-- ==== Sys2Proof/Word.lean ====
section
/-! DEFINITION. The block's value types (00_scope.md R9 to R11). -/

namespace Sys2Proof

/-- A Byte: an unsigned 8-bit value (R9). -/
abbrev Byte := BitVec 8

/-- A Block: 16 bytes, held as `int(B)`, its value read as a big-endian integer, so that `B[0]` is bits
127..120 and bit 7 of `B[0]` is bit 127, the coefficient of x^0 (R10, R11). -/
abbrev Block := BitVec 128

/-- A u64: half a table entry, or a length (R9, R37). -/
abbrev Half := BitVec 64

/-- A u4: an index of the tables, or a position in a block (R9). -/
abbrev Nibble := BitVec 4

/-- A buffer operand: NULL, or a byte sequence in stream order (30_encoding.md R102, 20_memory.md R75). -/
abbrev Buffer := Option (List Byte)

end Sys2Proof
end

