-- ==== Sys2Proof/Machine/Bytes.lean ====
section
/-! DEFINITION. Blocks and byte sequences: byte order (00_scope.md R9, R10; 20_memory.md R74, R75). -/

namespace Sys2Proof.Machine

/-- `B[i]`: byte 0 is bits 127..120 (R10). -/
def blockByte (b : Block) (i : Nat) : Byte := b.extractLsb' (8 * (15 - i)) 8

/-- The Block that is `c` at byte `i` and 0 elsewhere. -/
def byteAt (i : Nat) (c : Byte) : Block := c.setWidth 128 <<< (8 * (15 - i))

/-- The Block that holds the bytes of a sequence from byte `i` on, and 0 elsewhere. -/
def packFrom (i : Nat) : List Byte → Block
  | [] => 0
  | c :: rest => byteAt i c ^^^ packFrom (i + 1) rest

/-- A sequence of at most 16 bytes as a Block, zero-padded on the right: `S || 0^(16 - len(S))` (R75). -/
def blockOfBytes (bytes : List Byte) : Block := packFrom 0 bytes

/-- The 16 bytes of a Block in stream order (R75). -/
def blockBytes (b : Block) : List Byte := (List.range 16).map (blockByte b)

/-- BE64 (R10). -/
def be64 (v : BitVec 64) : List Byte := (List.range 8).map fun i => v.extractLsb' (8 * (7 - i)) 8

/-- BE32 (R10). -/
def be32 (v : BitVec 32) : List Byte := (List.range 4).map fun i => v.extractLsb' (8 * (3 - i)) 8

/-- A length block, `BE64(a * 8) || BE64(b * 8)`, from two lengths in bytes (R74 (e)). The products are those of
naturals; BE64 is asked for one of 2^64 or more only in states no run reaches (log 16). -/
def lengthBlock (a b : Nat) : List Byte := be64 (BitVec.ofNat 64 (a * 8)) ++ be64 (BitVec.ofNat 64 (b * 8))

/-- `n` zero bytes, `0^n` (R9). -/
def zeroBytes (n : Nat) : List Byte := List.replicate n 0#8

end Sys2Proof.Machine
end

