-- ==== Sys2Proof/Config.lean ====
section
/-! DEFINITION. The open parameters of the spec (00_scope.md R8). -/

namespace Sys2Proof.Config

/-- BlockCipher, the parameter E: a total, pure function from key bytes and a Block to a Block, with no body
(60_exceptions.md R290, 92_eei_decisions.md D24). DESIGN CHOICE (log 7): it is total on every byte sequence,
so it also has a value on key lengths no command gives it. Safe. -/
opaque blockCipher : List Byte → Block → Block

/-- One less than NUM_CONTEXTS, the OPEN number of contexts, at least 1 (10_state.md R52, D34; log 5). -/
opaque moreContexts : Nat

/-- NUM_CONTEXTS. -/
def numContexts : Nat := moreContexts + 1

end Sys2Proof.Config
end

