-- ==== Sys2Proof/Syntax.lean ====
section
/-! DEFINITION. The instructions: the seven commands of the opcode map (30_encoding.md R105) with the operands
of R102, and the ten internal datapath operations (R110) with the arguments of their rules. -/

namespace Sys2Proof

/-- The MODE of a message: 0 = DECRYPT, 1 = ENCRYPT (10_state.md R33). -/
inductive Mode where
  | decrypt
  | encrypt
deriving DecidableEq, Repr

/-- One row of opcode_table.json each. -/
inductive Instr where
  /-- SET_KEY: KEY_BITS, KEY. -/
  | setKey (keyBits : BitVec 32) (key : Buffer)
  /-- START.ENC and START.DEC: CMD.MODE, IV_LEN, IV. -/
  | start (mode : Mode) (ivLen : BitVec 64) (iv : Buffer)
  /-- UPDATE_AD: AAD_LEN, AAD. -/
  | updateAd (aadLen : BitVec 64) (aad : Buffer)
  /-- UPDATE: LEN, IN. -/
  | update (len : BitVec 64) (input : Buffer)
  /-- FINISH: TAG_LEN. -/
  | finish (tagLen : BitVec 32)
  /-- CRYPT_AND_TAG.ENC and CRYPT_AND_TAG.DEC: CMD.MODE, IV_LEN, IV, AAD_LEN, AAD, LEN, IN, TAG_LEN. -/
  | cryptAndTag (mode : Mode) (ivLen : BitVec 64) (iv : Buffer) (aadLen : BitVec 64) (aad : Buffer)
      (len : BitVec 64) (input : Buffer) (tagLen : BitVec 32)
  /-- AUTH_DECRYPT: IV_LEN, IV, AAD_LEN, AAD, LEN, IN, TAG_LEN, TAG. -/
  | authDecrypt (ivLen : BitVec 64) (iv : Buffer) (aadLen : BitVec 64) (aad : Buffer)
      (len : BitVec 64) (input : Buffer) (tagLen : BitVec 32) (tag : Buffer)
  /-- BUILD_TABLES(H), internal. -/
  | buildTables (h : Block)
  /-- GF_MULT(X), internal. -/
  | gfMult (x : Block)
  /-- GHASH_UPDATE(D, A), internal. -/
  | ghashUpdate (d : List Byte) (a : Block)
  /-- GHASH_ABSORB(c), internal. -/
  | ghashAbsorb (c : Byte)
  /-- GHASH_FLUSH, internal. -/
  | ghashFlush
  /-- DERIVE_J0(IV), internal. -/
  | deriveJ0 (iv : List Byte)
  /-- INC32(C), internal. -/
  | inc32 (c : Block)
  /-- CTR_CRYPT(D), internal. -/
  | ctrCrypt (d : List Byte)
  /-- CTR_SINGLE_BLOCK(J, X), internal. -/
  | ctrSingleBlock (j x : Block)
  /-- TAG_COMPARE(CHECK, TAG, t), internal. -/
  | tagCompare (check tag : List Byte) (t : BitVec 32)
deriving DecidableEq, Repr

/-- The operand record that travels beside a command word (30_encoding.md R100, R102): every named operand
of every command. A command takes the operands its opcode names and no other. -/
structure OperandRecord where
  keyBits : BitVec 32
  key : Buffer
  ivLen : BitVec 64
  iv : Buffer
  aadLen : BitVec 64
  aad : Buffer
  len : BitVec 64
  input : Buffer
  tagLen : BitVec 32
  tag : Buffer
deriving DecidableEq, Repr

/-- The operand record of zeros: every number 0, every buffer NULL. -/
def OperandRecord.zero : OperandRecord :=
  { keyBits := 0, key := none, ivLen := 0, iv := none, aadLen := 0, aad := none,
    len := 0, input := none, tagLen := 0, tag := none }

/-- One transaction on the command port (R100): the context it addresses (BUS_BINDING, 60_exceptions.md R286),
the 32-bit command word and the operand record. -/
structure Transaction where
  context : Nat
  cmd : BitVec 32
  operands : OperandRecord
deriving DecidableEq, Repr

/-- The commands, as against the internal datapath operations, which no command word selects (R110). -/
def Instr.isCommand : Instr → Bool
  | .setKey _ _ | .start _ _ _ | .updateAd _ _ | .update _ _ | .finish _ => true
  | .cryptAndTag _ _ _ _ _ _ _ _ | .authDecrypt _ _ _ _ _ _ _ _ => true
  | .buildTables _ | .gfMult _ | .ghashUpdate _ _ | .ghashAbsorb _ | .ghashFlush => false
  | .deriveJ0 _ | .inc32 _ | .ctrCrypt _ | .ctrSingleBlock _ _ | .tagCompare _ _ _ => false

end Sys2Proof
end

