-- ==== Sys2Proof/Machine/State.lean ====
section
/-! DEFINITION. The state: the register set of one context (10_state.md R32 to R47), and the machine that
holds every context, the host's stream and the response. -/

namespace Sys2Proof.Machine

/-- The message state, the register STATE (10_state.md R32, 44_gcm_engine.md R200). The 3-bit values 5, 6 and 7
are never written, so they have no constructor. -/
inductive MsgState where
  | init
  | keyed
  | started
  | updating
  | finished
deriving DecidableEq, Repr

/-- The status of a response (30_encoding.md R104). The numbers are in `statusCode`. -/
inductive Status where
  | ok
  | badInput
  | invalidState
  | unsupportedKeyLength
  | authenticationFailed
  | illegalCommand
deriving DecidableEq, Repr

/-- The response of a command (R104). -/
structure Response where
  status : Status
  out : List Byte
  tag : List Byte
deriving DecidableEq, Repr

/-- What an internal datapath operation hands back when it is run on its own (30_encoding.md R110, log 8). -/
inductive Result where
  /-- A Block: GF_MULT, GHASH_UPDATE, DERIVE_J0, INC32, CTR_SINGLE_BLOCK. -/
  | block (b : Block)
  /-- The tables: BUILD_TABLES. -/
  | tables (hh hl : Vector Half 16)
  /-- A byte sequence: CTR_CRYPT. -/
  | bytes (o : List Byte)
  /-- A truth value: TAG_COMPARE. -/
  | truth (b : Bool)
  /-- No value, registers only: GHASH_ABSORB, GHASH_FLUSH. -/
  | registersOnly
deriving DecidableEq, Repr

/-- The register set of one context: 10_state.md section 4. H is no register (R38). -/
structure Context where
  /-- STATE, R32. -/
  msgState : MsgState
  /-- MODE, R33. -/
  mode : Mode
  /-- KEY[0..31], R34. -/
  key : Vector Byte 32
  /-- KEY_BITS, R35. -/
  keyBits : BitVec 16
  /-- KEY_VALID, R36. -/
  keyValid : Bool
  /-- HH[0..15], R37. -/
  hh : Vector Half 16
  /-- HL[0..15], R37. -/
  hl : Vector Half 16
  /-- ACC, R39. -/
  acc : Block
  /-- J0, R40. -/
  j0 : Block
  /-- J0_ORIG, R41. -/
  j0Orig : Block
  /-- AAD_LEN, R42. -/
  aadLen : BitVec 64
  /-- DATA_LEN, R43. -/
  dataLen : BitVec 64
  /-- AD_DONE, R44. -/
  adDone : Bool
  /-- KS, R45. -/
  ks : Block
  /-- KS_OFF, R46. -/
  ksOff : Nibble
  /-- GH_PEND, R47. -/
  ghPend : Nibble
deriving DecidableEq, Repr

/-- A context as it comes out of reset, when it is created (70_reset_and_hazards.md R320). -/
def Context.reset : Context :=
  { msgState := .init
    mode := .decrypt
    key := Vector.mk (List.replicate 32 0#8).toArray (by rfl)
    keyBits := 0
    keyValid := false
    hh := Vector.mk (List.replicate 16 0#64).toArray (by rfl)
    hl := Vector.mk (List.replicate 16 0#64).toArray (by rfl)
    acc := 0
    j0 := 0
    j0Orig := 0
    aadLen := 0
    dataLen := 0
    adDone := false
    ks := 0
    ksOff := 0
    ghPend := 0 }

/-- What the host does at the port. -/
inductive PortEvent where
  /-- The host issues the transactions `ts`, which are in flight together. A list of one is the rule (R82);
  transactions on distinct contexts may overlap (R83), and are taken in the order of the list; two on one
  context break the host's duty (70_reset_and_hazards.md R330). -/
  | issue (ts : List Transaction)
  /-- The host creates the context `id` (R320). -/
  | create (id : Nat)
  /-- The host drops the context `id` (R323). -/
  | drop (id : Nat)
deriving DecidableEq, Repr

/-- The machine. -/
structure State where
  /-- The register sets of the contexts by number (10_state.md R52), `none` for a dropped one (R323). A number
  that is not listed is a context as reset leaves it. -/
  contexts : List (Nat × Option Context)
  /-- What the host puts on the command port, next first. -/
  stream : List PortEvent
  /-- The context that the command on the port addresses. -/
  active : Nat
  /-- The response of the last command (R104), absent where the last port event had none. -/
  response : Option Response
  /-- What the last internal datapath operation that ran on its own handed back. -/
  result : Option Result
deriving DecidableEq, Repr

/-- Reset: every context as R320 says, nothing on the port. The stream, the selection and the two latches are
DESIGN CHOICE (log 3, 5, 8, 12). -/
def State.reset : State :=
  { contexts := [], stream := [], active := 0, response := none, result := none }

/-- The block has no traps: errors are statuses, and no command stops it (60_exceptions.md R280). So there is no
fault at all. -/
inductive Fault where
deriving DecidableEq, Repr

/-- Why the model has no step. Each is a transaction or an operation to which the spec gives no meaning. -/
inductive Refusal where
  /-- Raised by `exec` alone, for an instruction that has no meaning yet. Safe. No arm raises it. -/
  | notModelled (mnemonic : String)
  /-- Raised by SET_KEY, START, UPDATE_AD, UPDATE and the one-shots, before every check, where a buffer does not carry the number of
  bytes its length operand names: no command of this block (20_memory.md R81). Safe. -/
  | operandLength
  /-- Raised by the port where two commands on one context are in flight (R82, R330). Safe. -/
  | overlappingCommands
  /-- Raised by every instruction, and by the port for an illegal word (log 22), where the addressed context is not there: dropped
  (R323), or not below NUM_CONTEXTS (D34). Raised by the port for creating or dropping under a number not below NUM_CONTEXTS; never
  for dropping a context that is dropped already (log 6). Safe. -/
  | noSuchContext
  /-- Raised by DERIVE_J0 and TAG_COMPARE run on their own on operands outside those their rules give them
  (R160, R256). Safe. -/
  | operandDomain
deriving DecidableEq, Repr

end Sys2Proof.Machine
end

