-- ==== Sys2Proof/Machine/Ops.lean ====
section
/-! DEFINITION. The operations over the state: the contexts by number, answering a command, handing back the value
of a datapath operation, and the skeleton of a command (44_gcm_engine.md R202). The block takes no exception and
returns from none (60_exceptions.md R280, R284): ending a command by `fail` stands in their place. -/

namespace Sys2Proof.Machine

/-! ## The contexts by number -/

/-- What the contexts hold under a number: a number that is not listed is a context in its reset state. -/
def lookupSlot : List (Nat × Option Context) → Nat → Option Context
  | [], _ => some Context.reset
  | (k, slot) :: rest, id => if k = id then slot else lookupSlot rest id

/-- The list without a number. -/
def removeSlot (m : List (Nat × Option Context)) (id : Nat) : List (Nat × Option Context) :=
  m.filter fun e => e.1 != id

/-- The list with an entry put before the first larger number. -/
def insertSlot (id : Nat) (slot : Option Context) : List (Nat × Option Context) → List (Nat × Option Context)
  | [] => [(id, slot)]
  | e :: rest => if id < e.1 then (id, slot) :: e :: rest else e :: insertSlot id slot rest

/-- Writes what a number holds, and keeps the canonical form. -/
def storeSlot (m : List (Nat × Option Context)) (id : Nat) (slot : Option Context) : List (Nat × Option Context) :=
  if slot = some Context.reset then removeSlot m id else insertSlot id slot (removeSlot m id)

/-- The canonical form: numbers strictly rising, and no entry equal to what an unlisted number reads as. -/
abbrev contextsWf (m : List (Nat × Option Context)) : Prop :=
  m.Pairwise (fun a b => a.1 < b.1) ∧ ∀ e ∈ m, e.2 ≠ some Context.reset

/-- The register set of a context that is there: below NUM_CONTEXTS (10_state.md R52) and not dropped
(70_reset_and_hazards.md R323). -/
def State.contextAt (s : State) (id : Nat) : Option Context :=
  if id < Config.numContexts then lookupSlot s.contexts id else none

/-- The context that the command on the port addresses. -/
def State.current (s : State) : Option Context := s.contextAt s.active

/-! ## Completing an instruction -/

/-- The response of a command that ends by `fail`: empty OUT and TAG (60_exceptions.md R281). -/
def failed (status : Status) : Response := { status := status, out := [], tag := [] }

/-- The response of a command that returns OK with STATUS only. -/
def okOnly : Response := { status := .ok, out := [], tag := [] }

/-- The addressed context becomes `c`, and the response is `r` (20_memory.md R77). -/
def State.respond (s : State) (c : Context) (r : Response) : State :=
  { s with contexts := storeSlot s.contexts s.active (some c), response := some r }

/-- The addressed context becomes `c`, and the datapath hands back `v` (30_encoding.md R110; log 8). -/
def State.deliver (s : State) (c : Context) (v : Result) : State :=
  { s with contexts := storeSlot s.contexts s.active (some c), result := some v }

/-- Runs a command on the addressed context. -/
def runCommand (f : Context → Except Refusal (Context × Response)) (s : State) : Host.Outcome State Fault Refusal :=
  match s.current with
  | none => .refused .noSuchContext
  | some c =>
    match f c with
    | .error why => .refused why
    | .ok done => .next (s.respond done.1 done.2)

/-- Runs an internal datapath operation on its own, on the addressed context. -/
def runDatapath (f : Context → Except Refusal (Context × Result)) (s : State) : Host.Outcome State Fault Refusal :=
  match s.current with
  | none => .refused .noSuchContext
  | some c =>
    match f c with
    | .error why => .refused why
    | .ok done => .next (s.deliver done.1 done.2)

/-! ## The skeleton of a command -/

/-- The status of the first check that holds (60_exceptions.md R282). -/
def firstFailing : List (Bool × Status) → Option Status
  | [] => none
  | (holds, status) :: rest => if holds then some status else firstFailing rest

/-- Duty, checks, effect, response. A transaction that breaks the host's duty on buffers is no command of this block and has no step,
whatever its checks would say (20_memory.md R81, D7; log 10). A check that holds ends the command by `fail`, with no write
(44_gcm_engine.md R202). -/
def command (checks : List (Bool × Status)) (duty : Bool) (effect : Context × Response) (c : Context) :
    Except Refusal (Context × Response) :=
  if duty then
    match firstFailing checks with
    | some status => .ok (c, failed status)
    | none => .ok effect
  else .error .operandLength

end Sys2Proof.Machine
end

