-- ==== Sys2Proof/Machine/CounterCodec.lean ====
section
/-! DEFINITION. The CounterCodec (43_counter_codec.md) and the meanings of INC32, CTR_CRYPT and CTR_SINGLE_BLOCK. -/

namespace Sys2Proof.Machine

/-- K, the key in use: `KEY[0..KEY_BITS/8)` (10_state.md R34). -/
def keyInUse (c : Context) : List Byte := c.key.toList.take (c.keyBits.toNat / 8)

/-- INC32(C): the last four bytes as a big-endian integer, plus 1 modulo 2^32 (R180). -/
def inc32 (c : Block) : Block := (c.extractLsb' 32 96 ++ (c.extractLsb' 0 32 + 1#32) : BitVec (96 + 32))

/-- CTR_CRYPT for one byte: the registers after it, and the output byte (R181). -/
def ctrByte (c : Context) (d : Byte) : Context × Byte :=
  let ks := if c.ksOff = 0 then Config.blockCipher (keyInUse c) c.j0 else c.ks
  let o := d ^^^ blockByte ks c.ksOff.toNat
  if c.ksOff = 15 then ({ c with ks := ks, ksOff := 0, j0 := inc32 c.j0 }, o)
  else ({ c with ks := ks, ksOff := c.ksOff + 1 }, o)

/-- CTR_CRYPT(D): the registers after it, and the output (R181). -/
def ctrCrypt : List Byte → Context → Context × List Byte
  | [], c => (c, [])
  | d :: rest, c =>
    let first := ctrByte c d
    let others := ctrCrypt rest first.1
    (others.1, first.2 :: others.2)

/-- CTR_SINGLE_BLOCK(J, X) (R183). -/
def ctrSingleBlock (c : Context) (j x : Block) : Block := Config.blockCipher (keyInUse c) j ^^^ x

/-- INC32 run on its own: it writes no register (R180). -/
def execInc32 (b : Block) (s : State) : Host.Outcome State Fault Refusal :=
  runDatapath (fun c => .ok (c, .block (inc32 b))) s

/-- CTR_CRYPT run on its own: it writes J0, KS and KS_OFF (R181). -/
def execCtrCrypt (d : List Byte) (s : State) : Host.Outcome State Fault Refusal :=
  runDatapath (fun c => .ok ((ctrCrypt d c).1, .bytes (ctrCrypt d c).2)) s

/-- CTR_SINGLE_BLOCK run on its own: it writes no register (R183). -/
def execCtrSingleBlock (j x : Block) (s : State) : Host.Outcome State Fault Refusal :=
  runDatapath (fun c => .ok (c, .block (ctrSingleBlock c j x))) s

end Sys2Proof.Machine
end

