-- ==== Sys2Proof/Machine/Flags.lean ====
section
/-! DEFINITION. The block has no condition codes (10_state.md R48). Its flags are STATE, AD_DONE and KEY_VALID: here are
the state checks that read them, and the numbers of the statuses, states and modes. -/

namespace Sys2Proof.Machine

/-- STATUS as an 8-bit code (30_encoding.md R104). -/
def statusCode : Status → BitVec 8
  | .ok => 0x00
  | .badInput => 0x01
  | .invalidState => 0x02
  | .unsupportedKeyLength => 0x03
  | .authenticationFailed => 0x04
  | .illegalCommand => 0x05

/-- STATE as a 3-bit register (10_state.md R32). -/
def stateCode : MsgState → BitVec 3
  | .init => 0
  | .keyed => 1
  | .started => 2
  | .updating => 3
  | .finished => 4

/-- MODE as a 1-bit register (R33). -/
def modeCode : Mode → BitVec 1
  | .decrypt => 0
  | .encrypt => 1

/-- "requires state >= KEYED" (44_gcm_engine.md R215, 45_oneshot.md R250). -/
def keyedCheck (c : Context) : Bool × Status := (c.msgState == .init, .invalidState)

/-- STATE = STARTED and AD_DONE = 0 (R220). -/
def beforeAadCheck (c : Context) : Bool × Status := (c.msgState != .started || c.adDone, .invalidState)

/-- STATE in STARTED, UPDATING (R225, R230). -/
def inMessageCheck (c : Context) : Bool × Status :=
  (c.msgState != .started && c.msgState != .updating, .invalidState)

end Sys2Proof.Machine
end

