-- ==== Sys2Proof/Machine/Galois.lean ====
section
/-! DEFINITION. The GaloisMultiplier (41_galois_multiplier.md): the field, the tables, GF_MULT, GHASH, and the meanings of
BUILD_TABLES, GF_MULT, GHASH_UPDATE, GHASH_ABSORB and GHASH_FLUSH. -/

namespace Sys2Proof.Machine

/-! ## The field -/

/-- The reduction constant, 0xE100000000000000 (R131). -/
def reductionConstant : Half := 0xE100000000000000

/-- MULX, multiplication by x (R131). -/
def mulx (v : Block) : Block :=
  if v.getLsbD 0 then (v >>> 1) ^^^ (reductionConstant.setWidth 128 <<< 64) else v >>> 1

/-- One turn of the loop of GF_MUL_REF for x^i, on the pair of `z` and `v` (R130). -/
def mulRefTurn (x : Block) (zv : Block × Block) (i : Nat) : Block × Block :=
  (if x.getLsbD (127 - i) then zv.1 ^^^ zv.2 else zv.1, mulx zv.2)

/-- GF_MUL_REF, the reference product of two Blocks (R130). -/
def gfMulRef (x y : Block) : Block := ((List.range 128).foldl (mulRefTurn x) (0, y)).1

/-! ## Tables -/

/-- MULX on the two halves, as BUILD_TABLES uses it (R131). -/
def mulxHalves (v : Half × Half) : Half × Half :=
  let t : Half := if v.2.getLsbD 0 then reductionConstant else 0
  ((v.1 >>> 1) ^^^ t, (v.1 <<< 63) ||| (v.2 >>> 1))

/-- The 16 entries of one half-table from its entries 8, 4, 2 and 1: entry 0 is 0, and entry i + j is the sum of the
entries i and j for i in (2, 4, 8) and j from 1 to i - 1 (R132). -/
def fillTable (t8 t4 t2 t1 : Half) : Vector Half 16 :=
  let t3 := t2 ^^^ t1
  let t5 := t4 ^^^ t1
  let t6 := t4 ^^^ t2
  let t7 := t4 ^^^ t3
  #v[0, t1, t2, t3, t4, t5, t6, t7,
     t8, t8 ^^^ t1, t8 ^^^ t2, t8 ^^^ t3, t8 ^^^ t4, t8 ^^^ t5, t8 ^^^ t6, t8 ^^^ t7]

/-- BUILD_TABLES(H), the pair of HH and HL (R132). -/
def buildTables (h : Block) : Vector Half 16 × Vector Half 16 :=
  let e8 : Half × Half := (h.extractLsb' 64 64, h.extractLsb' 0 64)
  let e4 := mulxHalves e8
  let e2 := mulxHalves e4
  let e1 := mulxHalves e2
  (fillTable e8.1 e4.1 e2.1 e1.1, fillTable e8.2 e4.2 e2.2 e1.2)

/-- `T[n] = blk(HH[n] * 2^64 + HL[n])`, entry n of the tables (10_state.md R37). -/
def tableEntry (hh hl : Vector Half 16) (n : Nibble) : Block :=
  hh[n.toNat]'n.isLt ++ hl[n.toNat]'n.isLt

/-- H, the alias of entry 8 (10_state.md R38). -/
def hashSubkey (c : Context) : Block := tableEntry c.hh c.hl 8

/-- LAST4, the ROM of the 4-bit reduction correction (R133). -/
def last4 : Vector (BitVec 16) 16 :=
  #v[0x0000, 0x1C20, 0x3840, 0x2460, 0x7080, 0x6CA0, 0x48C0, 0x54E0,
     0xE100, 0xFD20, 0xD940, 0xC560, 0x9180, 0x8DA0, 0xA9C0, 0xB5E0]

/-! ## Multiplication -/

/-- STEP: `Z <- Z • x^4 ^ T[n]` on the halves (R134). -/
def gfStep (hh hl : Vector Half 16) (z : Half × Half) (n : Nibble) : Half × Half :=
  let rem : Nibble := z.2.setWidth 4
  let zl := (z.1 <<< 60) ||| (z.2 >>> 4)
  let zh := (z.1 >>> 4) ^^^ ((last4[rem.toNat]'rem.isLt).setWidth 64 <<< 48)
  (zh ^^^ hh[n.toNat]'n.isLt, zl ^^^ hl[n.toNat]'n.isLt)

/-- Nibble k of a Block in the order GF_MULT takes them, from the highest-degree coefficients: the low nibble of byte 15,
its high nibble, the low nibble of byte 14, and so on to the high nibble of byte 0 (R134, 90_conflicts.md C2). -/
def nibbleInOrder (x : Block) (k : Nat) : Nibble :=
  if k % 2 = 0 then (blockByte x (15 - k / 2)).extractLsb' 0 4 else (blockByte x (15 - k / 2)).extractLsb' 4 4

/-- GF_MULT(HH, HL, X) (R134). -/
def gfMult (hh hl : Vector Half 16) (x : Block) : Block :=
  let n0 := nibbleInOrder x 0
  let z := (List.range 31).foldl (fun z k => gfStep hh hl z (nibbleInOrder x (k + 1)))
    (hh[n0.toNat]'n0.isLt, hl[n0.toNat]'n0.isLt)
  z.1 ++ z.2

/-! ## GHASH -/

/-- The complete blocks of GHASH_UPDATE: XOR each into the accumulator, then multiply (R137). -/
def ghashBlocks (hh hl : Vector Half 16) : Nat → List Byte → Block → Block
  | 0, _, a => a
  | n + 1, d, a => ghashBlocks hh hl n (d.drop 16) (gfMult hh hl (a ^^^ blockOfBytes (d.take 16)))

/-- GHASH_UPDATE(HH, HL, D, A) (R137). -/
def ghashUpdate (hh hl : Vector Half 16) (d : List Byte) (a : Block) : Block :=
  let n := d.length / 16
  let a := ghashBlocks hh hl n d a
  if d.length % 16 = 0 then a else gfMult hh hl (a ^^^ blockOfBytes (d.drop (16 * n)))

/-- GHASH_ABSORB(c) (R140). -/
def ghashAbsorb (c : Context) (b : Byte) : Context :=
  let acc := c.acc ^^^ byteAt c.ghPend.toNat b
  if c.ghPend = 15 then { c with acc := gfMult c.hh c.hl acc, ghPend := 0 }
  else { c with acc := acc, ghPend := c.ghPend + 1 }

/-- GHASH_FLUSH (R141). -/
def ghashFlush (c : Context) : Context :=
  if c.ghPend = 0 then c else { c with acc := gfMult c.hh c.hl c.acc, ghPend := 0 }

/-! ## The meanings -/

/-- BUILD_TABLES run on its own: it writes no register (R132). -/
def execBuildTables (h : Block) (s : State) : Host.Outcome State Fault Refusal :=
  runDatapath (fun c => .ok (c, .tables (buildTables h).1 (buildTables h).2)) s

/-- GF_MULT run on its own: it writes no register (R134). -/
def execGfMult (x : Block) (s : State) : Host.Outcome State Fault Refusal :=
  runDatapath (fun c => .ok (c, .block (gfMult c.hh c.hl x))) s

/-- GHASH_UPDATE run on its own: it writes no register (R137). -/
def execGhashUpdate (d : List Byte) (a : Block) (s : State) : Host.Outcome State Fault Refusal :=
  runDatapath (fun c => .ok (c, .block (ghashUpdate c.hh c.hl d a))) s

/-- GHASH_ABSORB run on its own (R140). -/
def execGhashAbsorb (b : Byte) (s : State) : Host.Outcome State Fault Refusal :=
  runDatapath (fun c => .ok (ghashAbsorb c b, .registersOnly)) s

/-- GHASH_FLUSH run on its own (R141). -/
def execGhashFlush (s : State) : Host.Outcome State Fault Refusal :=
  runDatapath (fun c => .ok (ghashFlush c, .registersOnly)) s

end Sys2Proof.Machine
end

