-- ==== Sys2Proof/Machine/Operands.lean ====
section
/-! DEFINITION. The operand forms: the limits of 00_scope.md R8, the checks on operands with their statuses, and the
host's duty on buffers (20_memory.md R81). -/

namespace Sys2Proof.Machine

/-- IV_LEN must stay below this (42_iv_deriver.md R162). -/
abbrev ivLimit : Nat := 2 ^ 29

/-- AAD_LEN must stay below this (44_gcm_engine.md R220, D11). -/
abbrev aadLimit : Nat := 2 ^ 61

/-- MAX_DATA_BYTES: the most bytes of payload in a message (R225, D10). -/
abbrev maxDataBytes : Nat := 2 ^ 36 - 32

/-- TAG_MIN (R230). -/
abbrev tagMin : Nat := 4

/-- TAG_MAX (R230). -/
abbrev tagMax : Nat := 16

/-- KEY_BITS_SET (R210). -/
def keyBitsSupported (keyBits : BitVec 32) : Bool := keyBits == 128 || keyBits == 192 || keyBits == 256

/-- The bytes of a buffer operand, NULL read as empty (R220, R225). -/
def bufferBytes (b : Buffer) : List Byte :=
  match b with
  | none => []
  | some bytes => bytes

/-- The host's duty on one buffer: NULL, or exactly `n` bytes (20_memory.md R81). For KEY, `n` is KEY_BITS/8 rounded down (log 25). -/
def holds (b : Buffer) (n : Nat) : Bool :=
  match b with
  | none => true
  | some bytes => bytes.length == n

/-- The checks of SET_KEY, in order (R210). -/
def keyChecks (keyBits : BitVec 32) (key : Buffer) : List (Bool × Status) :=
  [(!keyBitsSupported keyBits, .unsupportedKeyLength),
   (key.isNone, .badInput)]

/-- IV_CHECK, in order (42_iv_deriver.md R162). -/
def ivChecks (ivLen : BitVec 64) (iv : Buffer) : List (Bool × Status) :=
  [(iv.isNone && decide (0 < ivLen.toNat), .badInput),
   (decide (ivLen.toNat = 0), .badInput),
   (decide (ivLimit ≤ ivLen.toNat), .badInput)]

/-- AAD_CHECK, in order (R220). -/
def aadChecks (aadLen : BitVec 64) (aad : Buffer) : List (Bool × Status) :=
  [(aad.isNone && decide (0 < aadLen.toNat), .badInput),
   (decide (aadLimit ≤ aadLen.toNat), .badInput)]

/-- The checks on IN and LEN, in order, for a message that has `already` bytes of payload; the sum does not wrap
(R225; a one-shot has none, 45_oneshot.md R250). -/
def inputChecks (already : Nat) (len : BitVec 64) (input : Buffer) : List (Bool × Status) :=
  [(input.isNone && decide (0 < len.toNat), .badInput),
   (decide (maxDataBytes < already + len.toNat), .badInput)]

/-- The check on TAG_LEN (R230). -/
def tagLenChecks (tagLen : BitVec 32) : List (Bool × Status) :=
  [(decide (tagLen.toNat < tagMin) || decide (tagMax < tagLen.toNat), .badInput)]

/-- The check on TAG (45_oneshot.md R255). -/
def tagChecks (tag : Buffer) : List (Bool × Status) := [(tag.isNone, .badInput)]

end Sys2Proof.Machine
end

