-- ==== Sys2Proof/Machine/IvDeriver.lean ====
section
/-! DEFINITION. The IVDeriver (42_iv_deriver.md) and the meaning of DERIVE_J0. -/

namespace Sys2Proof.Machine

/-- The length of an IV that takes the fast path (R161). -/
def fastIvBytes : Nat := 12

/-- DERIVE_J0(HH, HL, IV) (R160): the fast path of R161, the general path of R163. -/
def deriveJ0 (hh hl : Vector Half 16) (iv : List Byte) : Block :=
  if iv.length = fastIvBytes then blockOfBytes (iv ++ be32 1)
  else ghashUpdate hh hl (lengthBlock 0 iv.length) (ghashUpdate hh hl iv 0)

/-- DERIVE_J0 run on its own: it writes no register; its operand has 1 to 2^29 - 1 bytes (R160; log 9). -/
def execDeriveJ0 (iv : List Byte) (s : State) : Host.Outcome State Fault Refusal :=
  runDatapath
    (fun c =>
      if 1 ≤ iv.length ∧ iv.length < ivLimit then .ok (c, .block (deriveJ0 c.hh c.hl iv)) else .error .operandDomain)
    s

end Sys2Proof.Machine
end

