-- ==== Sys2Proof/Machine/Engine.lean ====
section
/-! DEFINITION. The GCMEngine: the bodies of the five streaming commands, which the one-shot commands perform too, and the
meanings of SET_KEY, START, UPDATE_AD, UPDATE and FINISH (44_gcm_engine.md). -/

namespace Sys2Proof.Machine

/-! ## SET_KEY -/

/-- The 32 bytes of KEY for a key of at most 32 bytes: `KEY_OP || 0^(32 - n)` (R210). -/
def padKey (key : List Byte) : Vector Byte 32 :=
  Vector.mk ((key ++ zeroBytes 32).take 32).toArray (by simp [zeroBytes])

/-- Whether a key is the cached one: same KEY_BITS and same bytes, and a key is cached (R210, D14). -/
def sameKey (keyBits : BitVec 32) (key : List Byte) (c : Context) : Bool :=
  c.keyValid && c.keyBits.toNat == keyBits.toNat && c.key.toList.take (keyBits.toNat / 8) == key

/-- The rebuild of SET_KEY: the key, its tables from `H = E(K, 0^16)`, and KEY_VALID (R210). -/
def rebuildKey (keyBits : BitVec 32) (key : List Byte) (c : Context) : Context :=
  let tables := buildTables (Config.blockCipher key 0)
  { c with
    key := padKey key, keyBits := keyBits.setWidth 16, hh := tables.1, hl := tables.2, keyValid := true }

/-- The body of SET_KEY (R210). -/
def setKeyBody (keyBits : BitVec 32) (key : List Byte) (c : Context) : Context :=
  { (if sameKey keyBits key c then c else rebuildKey keyBits key c) with msgState := .keyed }

/-- The command SET_KEY on a context (R210). -/
def setKey (keyBits : BitVec 32) (key : Buffer) (c : Context) : Except Refusal (Context × Response) :=
  command (keyChecks keyBits key)
    (holds key (keyBits.toNat / 8))
    (setKeyBody keyBits (bufferBytes key) c, okOnly) c

/-! ## START -/

/-- The body of START (R215). -/
def startBody (mode : Mode) (iv : List Byte) (c : Context) : Context :=
  { c with
    acc := 0, ghPend := 0
    aadLen := 0, dataLen := 0
    adDone := false, ks := 0, ksOff := 0
    mode := mode
    j0 := deriveJ0 c.hh c.hl iv, j0Orig := deriveJ0 c.hh c.hl iv
    msgState := .started }

/-- The command START on a context (R215). -/
def start (mode : Mode) (ivLen : BitVec 64) (iv : Buffer) (c : Context) : Except Refusal (Context × Response) :=
  command (keyedCheck c :: ivChecks ivLen iv)
    (holds iv ivLen.toNat)
    (startBody mode (bufferBytes iv) c, okOnly) c

/-! ## UPDATE_AD -/

/-- The body of UPDATE_AD (R220). -/
def updateAdBody (aadLen : BitVec 64) (aad : List Byte) (c : Context) : Context :=
  { c with acc := ghashUpdate c.hh c.hl aad c.acc, aadLen := aadLen, adDone := true }

/-- The command UPDATE_AD on a context (R220). -/
def updateAd (aadLen : BitVec 64) (aad : Buffer) (c : Context) : Except Refusal (Context × Response) :=
  command (beforeAadCheck c :: aadChecks aadLen aad)
    (holds aad aadLen.toNat)
    (updateAdBody aadLen (bufferBytes aad) c, okOnly) c

/-! ## UPDATE -/

/-- The increment of J0 by the first UPDATE of a message (R225). -/
def firstIncrement (c : Context) : Context :=
  if c.msgState = .started then { c with j0 := inc32 c.j0 } else c

/-- The body of UPDATE: the registers after it, and OUT (R225). -/
def updateBody (len : BitVec 64) (input : List Byte) (c : Context) : Context × List Byte :=
  let crypted := ctrCrypt input (firstIncrement c)
  let ciphertext := if c.mode = .encrypt then crypted.2 else input
  let absorbed := ciphertext.foldl ghashAbsorb crypted.1
  ({ absorbed with dataLen := c.dataLen + len, msgState := .updating }, crypted.2)

/-- The command UPDATE on a context (R225). -/
def update (len : BitVec 64) (input : Buffer) (c : Context) : Except Refusal (Context × Response) :=
  let done := updateBody len (bufferBytes input) c
  command (inMessageCheck c :: inputChecks c.dataLen.toNat len input)
    (holds input len.toNat)
    (done.1, { status := .ok, out := done.2, tag := [] }) c

/-! ## FINISH -/

/-- The fold of the length block into ACC (R230). -/
def foldLengths (c : Context) : Context :=
  { c with acc := ghashUpdate c.hh c.hl (lengthBlock c.aadLen.toNat c.dataLen.toNat) c.acc }

/-- The body of FINISH: the registers after it, and TAG, the leftmost TAG_LEN bytes (R230, D20). -/
def finishBody (tagLen : BitVec 32) (c : Context) : Context × List Byte :=
  let folded := foldLengths (ghashFlush c)
  let t := ctrSingleBlock folded folded.j0Orig folded.acc
  ({ folded with msgState := .finished }, (blockBytes t).take tagLen.toNat)

/-- The command FINISH on a context (R230). -/
def finish (tagLen : BitVec 32) (c : Context) : Except Refusal (Context × Response) :=
  let done := finishBody tagLen c
  command (inMessageCheck c :: tagLenChecks tagLen)
    true
    (done.1, { status := .ok, out := [], tag := done.2 }) c

/-! ## The meanings -/

/-- SET_KEY (R210). -/
def execSetKey (keyBits : BitVec 32) (key : Buffer) (s : State) : Host.Outcome State Fault Refusal :=
  runCommand (setKey keyBits key) s

/-- START (R215). -/
def execStart (mode : Mode) (ivLen : BitVec 64) (iv : Buffer) (s : State) : Host.Outcome State Fault Refusal :=
  runCommand (start mode ivLen iv) s

/-- UPDATE_AD (R220). -/
def execUpdateAd (aadLen : BitVec 64) (aad : Buffer) (s : State) : Host.Outcome State Fault Refusal :=
  runCommand (updateAd aadLen aad) s

/-- UPDATE (R225). -/
def execUpdate (len : BitVec 64) (input : Buffer) (s : State) : Host.Outcome State Fault Refusal :=
  runCommand (update len input) s

/-- FINISH (R230). -/
def execFinish (tagLen : BitVec 32) (s : State) : Host.Outcome State Fault Refusal :=
  runCommand (finish tagLen) s

end Sys2Proof.Machine
end

