-- ==== Sys2Proof/Machine/OneShot.lean ====
section
/-! DEFINITION. The one-shot commands and the tag comparison (45_oneshot.md): the meanings of CRYPT_AND_TAG, AUTH_DECRYPT and
TAG_COMPARE. The Accelerator is not modelled (R252; log 13). -/

namespace Sys2Proof.Machine

/-- What the four steps of a one-shot leave: the registers, OUT and TAG. -/
structure OneShotDone where
  context : Context
  out : List Byte
  tag : List Byte
deriving DecidableEq, Repr

/-- `perform START; perform UPDATE_AD; perform UPDATE; perform FINISH` (R250). -/
def oneShotBody (mode : Mode) (iv : List Byte) (aadLen : BitVec 64) (aad : List Byte) (len : BitVec 64)
    (input : List Byte) (tagLen : BitVec 32) (c : Context) : OneShotDone :=
  let updated := updateBody len input (updateAdBody aadLen aad (startBody mode iv c))
  let finished := finishBody tagLen updated.1
  { context := finished.1, out := updated.2, tag := finished.2 }

/-- The checks of a one-shot, in order (R250). -/
def oneShotChecks (ivLen : BitVec 64) (iv : Buffer) (aadLen : BitVec 64) (aad : Buffer) (len : BitVec 64)
    (input : Buffer) (tagLen : BitVec 32) (c : Context) : List (Bool × Status) :=
  keyedCheck c ::
    (ivChecks ivLen iv ++ aadChecks aadLen aad ++ inputChecks 0 len input ++ tagLenChecks tagLen)

/-- The command CRYPT_AND_TAG on a context (R250). -/
def cryptAndTag (mode : Mode) (ivLen : BitVec 64) (iv : Buffer) (aadLen : BitVec 64) (aad : Buffer)
    (len : BitVec 64) (input : Buffer) (tagLen : BitVec 32) (c : Context) : Except Refusal (Context × Response) :=
  let done := oneShotBody mode (bufferBytes iv) aadLen (bufferBytes aad) len (bufferBytes input) tagLen c
  command (oneShotChecks ivLen iv aadLen aad len input tagLen c)
    (holds iv ivLen.toNat && holds aad aadLen.toNat && holds input len.toNat)
    (done.context, { status := .ok, out := done.out, tag := done.tag }) c

/-- The accumulated difference of TAG_COMPARE over the first `t` bytes (R256). -/
def tagDifference (check tag : List Byte) (t : Nat) : Byte :=
  (List.range t).foldl (fun diff i => diff ||| (check.getD i 0 ^^^ tag.getD i 0)) 0

/-- TAG_COMPARE(CHECK, TAG, t) (R256). -/
def tagCompare (check tag : List Byte) (t : Nat) : Bool := tagDifference check tag t == 0

/-- The response of AUTH_DECRYPT once the check tag is known: the plaintext on a match, as many zero bytes on a mismatch, and
never a tag (R255, R257). -/
def verdict (plain check tag : List Byte) (len : BitVec 64) (tagLen : BitVec 32) : Response :=
  if tagCompare check tag tagLen.toNat then { status := .ok, out := plain, tag := [] }
  else { status := .authenticationFailed, out := zeroBytes len.toNat, tag := [] }

/-- The command AUTH_DECRYPT on a context (R255). -/
def authDecrypt (ivLen : BitVec 64) (iv : Buffer) (aadLen : BitVec 64) (aad : Buffer) (len : BitVec 64) (input : Buffer)
    (tagLen : BitVec 32) (tag : Buffer) (c : Context) : Except Refusal (Context × Response) :=
  let done := oneShotBody .decrypt (bufferBytes iv) aadLen (bufferBytes aad) len (bufferBytes input) tagLen c
  command (oneShotChecks ivLen iv aadLen aad len input tagLen c ++ tagChecks tag)
    (holds iv ivLen.toNat && holds aad aadLen.toNat && holds input len.toNat && holds tag tagLen.toNat)
    (done.context, verdict done.out done.tag (bufferBytes tag) len tagLen) c

/-- CRYPT_AND_TAG (R250). -/
def execCryptAndTag (mode : Mode) (ivLen : BitVec 64) (iv : Buffer) (aadLen : BitVec 64) (aad : Buffer)
    (len : BitVec 64) (input : Buffer) (tagLen : BitVec 32) (s : State) : Host.Outcome State Fault Refusal :=
  runCommand (cryptAndTag mode ivLen iv aadLen aad len input tagLen) s

/-- AUTH_DECRYPT (R255). -/
def execAuthDecrypt (ivLen : BitVec 64) (iv : Buffer) (aadLen : BitVec 64) (aad : Buffer) (len : BitVec 64)
    (input : Buffer) (tagLen : BitVec 32) (tag : Buffer) (s : State) : Host.Outcome State Fault Refusal :=
  runCommand (authDecrypt ivLen iv aadLen aad len input tagLen tag) s

/-- Whether `t` and the lengths of CHECK and TAG are those R256 gives TAG_COMPARE. -/
def tagCompareDomain (check tag : List Byte) (t : Nat) : Bool :=
  decide (tagMin ≤ t) && decide (t ≤ tagMax) && decide (t ≤ check.length) && decide (t ≤ tag.length)

/-- TAG_COMPARE run on its own: it writes no register (R256; log 9). -/
def execTagCompare (check tag : List Byte) (t : BitVec 32) (s : State) : Host.Outcome State Fault Refusal :=
  runDatapath
    (fun c =>
      if tagCompareDomain check tag t.toNat then .ok (c, .truth (tagCompare check tag t.toNat))
      else .error .operandDomain)
    s

end Sys2Proof.Machine
end

