-- ==== Sys2Proof/Machine/Dispatch.lean ====
section
/-! DEFINITION. The dispatch: one arm per constructor of Instr, each one direct call of its meaning. -/

namespace Sys2Proof.Machine

def exec (i : Instr) (s : State) : Host.Outcome State Fault Refusal :=
  match i with
  | .setKey keyBits key => Sys2Proof.Machine.execSetKey keyBits key s
  | .start mode ivLen iv => Sys2Proof.Machine.execStart mode ivLen iv s
  | .updateAd aadLen aad => Sys2Proof.Machine.execUpdateAd aadLen aad s
  | .update len input => Sys2Proof.Machine.execUpdate len input s
  | .finish tagLen => Sys2Proof.Machine.execFinish tagLen s
  | .cryptAndTag mode ivLen iv aadLen aad len input tagLen => Sys2Proof.Machine.execCryptAndTag mode ivLen iv aadLen aad len input tagLen s
  | .authDecrypt ivLen iv aadLen aad len input tagLen tag => Sys2Proof.Machine.execAuthDecrypt ivLen iv aadLen aad len input tagLen tag s
  | .buildTables h => Sys2Proof.Machine.execBuildTables h s
  | .gfMult x => Sys2Proof.Machine.execGfMult x s
  | .ghashUpdate d a => Sys2Proof.Machine.execGhashUpdate d a s
  | .ghashAbsorb c => Sys2Proof.Machine.execGhashAbsorb c s
  | .ghashFlush => Sys2Proof.Machine.execGhashFlush s
  | .deriveJ0 iv => Sys2Proof.Machine.execDeriveJ0 iv s
  | .inc32 c => Sys2Proof.Machine.execInc32 c s
  | .ctrCrypt d => Sys2Proof.Machine.execCtrCrypt d s
  | .ctrSingleBlock j x => Sys2Proof.Machine.execCtrSingleBlock j x s
  | .tagCompare check tag t => Sys2Proof.Machine.execTagCompare check tag t s

end Sys2Proof.Machine
end

