-- ==== Sys2Proof/WellFormed.lean ====
section
/-! DEFINITION. Which instructions are well formed: the host's duty on buffers (20_memory.md R81), and the
operands the rules of the internal operations give them. -/

namespace Sys2Proof

/-- A non-NULL buffer carries exactly the number of bytes its length operand names (R81). -/
def Buffer.carries (b : Buffer) (n : Nat) : Bool :=
  match b with
  | none => true
  | some bytes => bytes.length == n

/-- Well-formed: R81 for the buffers of a command, KEY_BITS/8 rounded down (log 25); the length of the IV that 42_iv_deriver.md R160 gives
DERIVE_J0; the `t` and the lengths that 45_oneshot.md R256 gives TAG_COMPARE. -/
def Instr.wf : Instr → Bool
  | .setKey keyBits key => Buffer.carries key (keyBits.toNat / 8)
  | .start _ ivLen iv => Buffer.carries iv ivLen.toNat
  | .updateAd aadLen aad => Buffer.carries aad aadLen.toNat
  | .update len input => Buffer.carries input len.toNat
  | .finish _ => true
  | .cryptAndTag _ ivLen iv aadLen aad len input _ =>
    Buffer.carries iv ivLen.toNat && Buffer.carries aad aadLen.toNat && Buffer.carries input len.toNat
  | .authDecrypt ivLen iv aadLen aad len input tagLen tag =>
    Buffer.carries iv ivLen.toNat && Buffer.carries aad aadLen.toNat && Buffer.carries input len.toNat
      && Buffer.carries tag tagLen.toNat
  | .buildTables _ => true
  | .gfMult _ => true
  | .ghashUpdate _ _ => true
  | .ghashAbsorb _ => true
  | .ghashFlush => true
  | .deriveJ0 iv => decide (1 ≤ iv.length) && decide (iv.length ≤ 2 ^ 29 - 1)
  | .inc32 _ => true
  | .ctrCrypt _ => true
  | .ctrSingleBlock _ _ => true
  | .tagCompare check tag t =>
    decide (4 ≤ t.toNat) && decide (t.toNat ≤ 16) && decide (t.toNat ≤ check.length)
      && decide (t.toNat ≤ tag.length)

end Sys2Proof
end

