-- ==== Sys2Proof/Decode.lean ====
section
/-! DEFINITION. Decoding and encoding of command words (30_encoding.md R101, R105, R107). -/

namespace Sys2Proof

/-- Why a command word is illegal (R107). Every one of them is answered with ILLEGAL_COMMAND. -/
inductive DecodeError where
  /-- A bit of CMD[31:9] is 1. -/
  | reservedBits
  /-- OPC is 0x00 or lies in 0x08..0xFF. -/
  | unknownOpcode
  /-- CMD[8] is 1 with an opcode that has no mode. -/
  | modeBit
deriving DecidableEq, Repr

/-- OPC, CMD[7:0] (R101). -/
def opcodeField (cmd : BitVec 32) : BitVec 8 := cmd.extractLsb' 0 8

/-- MODE, CMD[8] (R101). -/
def modeField (cmd : BitVec 32) : Bool := cmd.getLsbD 8

/-- RSV, CMD[31:9] (R101). -/
def reservedField (cmd : BitVec 32) : BitVec 23 := cmd.extractLsb' 9 23

/-- The MODE bit of CMD: 1 = ENCRYPT, 0 = DECRYPT (R101). -/
def modeOfBit (m : Bool) : Mode := if m then .encrypt else .decrypt

/-- The CMD.MODE bit of a mode. -/
def bitOfMode : Mode → Bool
  | .decrypt => false
  | .encrypt => true

/-- DECODE (R107), with the operands of R102 taken from the operand record. -/
def decode (cmd : BitVec 32) (r : OperandRecord) : Except DecodeError Instr :=
  if reservedField cmd ≠ 0 then .error .reservedBits
  else if opcodeField cmd = 0x02 then .ok (.start (modeOfBit (modeField cmd)) r.ivLen r.iv)
  else if opcodeField cmd = 0x06 then
    .ok (.cryptAndTag (modeOfBit (modeField cmd)) r.ivLen r.iv r.aadLen r.aad r.len r.input r.tagLen)
  else if modeField cmd = true then .error .modeBit
  else if opcodeField cmd = 0x01 then .ok (.setKey r.keyBits r.key)
  else if opcodeField cmd = 0x03 then .ok (.updateAd r.aadLen r.aad)
  else if opcodeField cmd = 0x04 then .ok (.update r.len r.input)
  else if opcodeField cmd = 0x05 then .ok (.finish r.tagLen)
  else if opcodeField cmd = 0x07 then
    .ok (.authDecrypt r.ivLen r.iv r.aadLen r.aad r.len r.input r.tagLen r.tag)
  else .error .unknownOpcode

/-- The command word with an opcode and a MODE bit, RSV being 0 (R101). -/
def commandWord (opc : BitVec 8) (m : Bool) : BitVec 32 := 0#23 ++ BitVec.ofBool m ++ opc

/-- The words of an instruction: the command word of R105 and the operand record of R102, the operands the
opcode does not name being 0 and NULL. An internal datapath operation has none (R110). -/
def encode : Instr → Option (BitVec 32 × OperandRecord)
  | .setKey keyBits key =>
    some (commandWord 0x01 false, { OperandRecord.zero with keyBits := keyBits, key := key })
  | .start mode ivLen iv =>
    some (commandWord 0x02 (bitOfMode mode), { OperandRecord.zero with ivLen := ivLen, iv := iv })
  | .updateAd aadLen aad =>
    some (commandWord 0x03 false, { OperandRecord.zero with aadLen := aadLen, aad := aad })
  | .update len input =>
    some (commandWord 0x04 false, { OperandRecord.zero with len := len, input := input })
  | .finish tagLen => some (commandWord 0x05 false, { OperandRecord.zero with tagLen := tagLen })
  | .cryptAndTag mode ivLen iv aadLen aad len input tagLen =>
    some (commandWord 0x06 (bitOfMode mode),
      { OperandRecord.zero with
        ivLen := ivLen, iv := iv, aadLen := aadLen, aad := aad, len := len, input := input, tagLen := tagLen })
  | .authDecrypt ivLen iv aadLen aad len input tagLen tag =>
    some (commandWord 0x07 false,
      { OperandRecord.zero with
        ivLen := ivLen, iv := iv, aadLen := aadLen, aad := aad, len := len, input := input, tagLen := tagLen,
        tag := tag })
  | .buildTables _ => none
  | .gfMult _ => none
  | .ghashUpdate _ _ => none
  | .ghashAbsorb _ => none
  | .ghashFlush => none
  | .deriveJ0 _ => none
  | .inc32 _ => none
  | .ctrCrypt _ => none
  | .ctrSingleBlock _ _ => none
  | .tagCompare _ _ _ => none

/-- A command word of the opcode table, given as the table numbers its bits, with every bit above `nbits` 0.
DESIGN CHOICE (log 1): the word travels whole, as 32 bits, since the spec fixes no byte order for it. -/
def tableWord (nbits w : Nat) : BitVec 32 := BitVec.ofNat 32 (w % 2 ^ nbits)

/-- The instruction the decoder reads from a command word of the opcode table, with operands of zeros. -/
def decodeTableWord (nbits w : Nat) : Option Instr :=
  match decode (tableWord nbits w) OperandRecord.zero with
  | .ok i => some i
  | .error _ => none

end Sys2Proof
end

