-- ==== Sys2Proof/Machine/Port.lean ====
section
/-! DEFINITION. The command port (30_encoding.md R100): what the next port event asks of the machine. -/

namespace Sys2Proof.Machine

/-- What the next port event comes to. -/
inductive Fetched where
  /-- Nothing is on the port. -/
  | idle
  /-- The event is over, with this state: a context created or dropped, or an illegal word answered. -/
  | over (s : State)
  /-- A command is to be run in this state. -/
  | run (i : Instr) (s : State)
  /-- The model has no step. -/
  | refuse (why : Refusal)
deriving DecidableEq, Repr

/-- Whether no two of the transactions in flight address one context (20_memory.md R82). -/
def distinctContexts (ts : List Transaction) : Bool := decide (ts.map (·.context)).Nodup

/-- The context `id` is created (70_reset_and_hazards.md R320) or dropped (R323): no response, and no other context is
affected. DESIGN CHOICE (log 6), where the spec is silent: creating a context that is there replaces it by a fresh one; dropping a
context that is dropped already is taken as any drop is, and leaves it dropped, with an empty response latch. Both unsafe. -/
def State.replaceContext (s : State) (id : Nat) (slot : Option Context) (rest : List PortEvent) : Fetched :=
  if id < Config.numContexts then
    .over { s with contexts := storeSlot s.contexts id slot, stream := rest, response := none }
  else .refuse .noSuchContext

/-- Takes one transaction: DECODE comes before every check of the command (30_encoding.md R107). An illegal word is answered with
ILLEGAL_COMMAND; it writes no register and reads no operand. -/
def State.take (s : State) (t : Transaction) : Fetched :=
  match decode t.cmd t.operands with
  | .ok i => .run i s
  | .error _ =>
    match s.current with
    | none => .refuse .noSuchContext
    | some c => .over (s.respond c (failed .illegalCommand))

/-- The transactions in flight after the first, put back on the port. -/
def afterFirst (ts : List Transaction) (rest : List PortEvent) : List PortEvent :=
  match ts with
  | [] => rest
  | t :: others => .issue (t :: others) :: rest

/-- What the next port event comes to. -/
def fetch (s : State) : Fetched :=
  match s.stream with
  | [] => .idle
  | .create id :: rest => s.replaceContext id (some Context.reset) rest
  | .drop id :: rest => s.replaceContext id none rest
  | .issue [] :: rest => .over { s with stream := rest, response := none }
  | .issue (t :: ts) :: rest =>
    if distinctContexts (t :: ts) then
      { s with stream := afterFirst ts rest, active := t.context }.take t
    else .refuse .overlappingCommands

/-- Puts the command word `cmd`, with an operand record of zeros for context 0, at the front of the port; context 0 is created where it
was dropped, so that it is there. -/
def State.place (s : State) (cmd : BitVec 32) : State :=
  { s with
    contexts :=
      match lookupSlot s.contexts 0 with
      | none => storeSlot s.contexts 0 (some Context.reset)
      | some _ => s.contexts
    stream := .issue [{ context := 0, cmd := cmd, operands := OperandRecord.zero }] :: s.stream }

end Sys2Proof.Machine
end

