-- ==== Sys2Proof/Machine/Step.lean ====
section
/-! DEFINITION. One step: the next port event, whole (20_memory.md R77). -/

namespace Sys2Proof.Machine

/-- One step. With nothing on the port the machine stays as it is (log 3). -/
def step (s : State) : Host.Outcome State Fault Refusal :=
  match fetch s with
  | .idle => .next s
  | .over s' => .next s'
  | .run i s' => exec i s'
  | .refuse why => .refused why

/-- `s` with the command word of the opcode table, and operands of zeros, as the next port event. -/
def State.withFetchWord (s : State) (nbits w : Nat) : State := s.place (tableWord nbits w)

end Sys2Proof.Machine
end

