-- ==== Sys2Proof/Safety.lean ====
section
/-! DEFINITION. The terms in which claims are made: the invariants of 10_state.md R50, what the host observes (R49), and runs of
several instructions on one context. -/

namespace Sys2Proof.Machine

/-! ## The invariants of a context -/

/-- INC32 applied `n` times: `INC32^n` (R50). -/
def inc32Iter : Nat → Block → Block
  | 0, b => b
  | n + 1, b => inc32Iter n (inc32 b)

/-- The counter and the offset of a message that ran at least one UPDATE (R50 (d)). -/
structure Context.CounterAtData (c : Context) : Prop where
  offset : c.ksOff.toNat = c.dataLen.toNat % 16
  counter : c.j0 = inc32Iter (1 + c.dataLen.toNat / 16) c.j0Orig

/-- The invariants of 10_state.md R50, and those of R34, R35, R42, R43 and R45. R50 (g) holds by the type of STATE. -/
structure Context.Inv (c : Context) : Prop where
  /-- R50 (a). -/
  initIff : c.msgState = .init ↔ c.keyValid = false
  /-- R50 (b), R37. -/
  tables : c.keyValid = true → (c.hh, c.hl) = buildTables (Config.blockCipher (keyInUse c) 0)
  /-- R35: one of 0, 128, 192 or 256, and 0 only while KEY_VALID = 0. -/
  keyBits : c.keyBits = 128 ∨ c.keyBits = 192 ∨ c.keyBits = 256 ∨ (c.keyBits = 0 ∧ c.keyValid = false)
  /-- R34: every byte of KEY from KEY_BITS/8 on is 0. -/
  keyTail : c.keyValid = true → ∀ i (h : i < 32), c.keyBits.toNat / 8 ≤ i → c.key[i] = 0
  /-- R50 (c). -/
  started : c.msgState = .started → c.dataLen = 0 ∧ c.ksOff = 0 ∧ c.ghPend = 0 ∧ c.j0 = c.j0Orig
  /-- R50 (d). -/
  updating : c.msgState = .updating → c.CounterAtData
  /-- R50 (d): FINISH from STARTED, or a message that ran an UPDATE. -/
  finished : c.msgState = .finished → (c.j0 = c.j0Orig ∧ c.ksOff = 0 ∧ c.dataLen = 0) ∨ c.CounterAtData
  /-- R50 (e). -/
  pendUpdating : c.msgState = .updating → c.ghPend.toNat = c.dataLen.toNat % 16
  /-- R50 (e). -/
  pendFinished : c.msgState = .finished → c.ghPend = 0
  /-- R50 (f). -/
  aadDone : 0 < c.aadLen.toNat → c.adDone = true
  /-- R42. -/
  aadBound : c.aadLen.toNat < aadLimit
  /-- R43. -/
  dataBound : c.dataLen.toNat ≤ maxDataBytes
  /-- R45, for the message that ran the UPDATE. -/
  keystream : c.msgState = .updating ∨ c.msgState = .finished → c.ksOff ≠ 0 →
    c.ks = Config.blockCipher (keyInUse c) c.j0

/-- The invariant of the machine: the contexts are in canonical form, and each keeps R50. -/
structure State.Inv (s : State) : Prop where
  canonical : contextsWf s.contexts
  contexts : ∀ id c, lookupSlot s.contexts id = some c → c.Inv

/-! ## What the host observes -/

/-- The response the last step showed, with the context it belongs to: all that the host sees (R49). -/
def State.observed (s : State) : Option (Nat × Response) := s.response.map fun r => (s.active, r)

/-- The registers that a later command can read after SET_KEY or after a one-shot command: STATE, KEY, KEY_BITS, KEY_VALID, HH and HL
(45_oneshot.md R252). -/
structure Context.SameBetweenMessages (c d : Context) : Prop where
  msgState : c.msgState = d.msgState
  key : c.key = d.key
  keyBits : c.keyBits = d.keyBits
  keyValid : c.keyValid = d.keyValid
  hh : c.hh = d.hh
  hl : c.hl = d.hl

/-! ## Runs on the addressed context -/

/-- Runs instructions one after the other on the addressed context, and collects their responses; absent where one has no step. -/
def execAll : List Instr → State → Option (State × List Response)
  | [], s => some (s, [])
  | i :: rest, s =>
    match exec i s with
    | .next t => (execAll rest t).map fun p => (p.1, t.response.toList ++ p.2)
    | _ => none

/-- UPDATE commands, one for each chunk of a payload. -/
def updates (chunks : List (List Byte)) : List Instr :=
  chunks.map fun d => .update (BitVec.ofNat 64 d.length) (some d)

/-- UPDATE_AD for some associated data, or none of it (44_gcm_engine.md R237). -/
def aadCommand (aad : Option (List Byte)) : List Instr :=
  match aad with
  | none => []
  | some a => [.updateAd (BitVec.ofNat 64 a.length) (some a)]

/-- A message by streaming commands: START, UPDATE_AD or not, UPDATEs, FINISH (R235). -/
def message (mode : Mode) (iv : List Byte) (aad : Option (List Byte)) (chunks : List (List Byte)) (tagLen : BitVec 32) :
    List Instr :=
  .start mode (BitVec.ofNat 64 iv.length) (some iv) :: (aadCommand aad ++ updates chunks ++ [.finish tagLen])

/-! ## Messages in closed form (44_gcm_engine.md R235) -/

/-- Byte `j` of the keystream of a message: `E(K, INC32^(1 + floor(j/16))(J0_ORIG))[j mod 16]` (43_counter_codec.md R182). -/
def keystreamByte (key : List Byte) (j0Orig : Block) (j : Nat) : Byte :=
  blockByte (Config.blockCipher key (inc32Iter (1 + j / 16) j0Orig)) (j % 16)

/-- The payload under the keystream. -/
def crypted (key : List Byte) (j0Orig : Block) (payload : List Byte) : List Byte :=
  payload.mapIdx fun j b => b ^^^ keystreamByte key j0Orig j

/-- S of R235, from the associated data and the ciphertext. -/
def finalHash (hh hl : Vector Half 16) (aad ciphertext : List Byte) : Block :=
  ghashUpdate hh hl (lengthBlock aad.length ciphertext.length)
    (ghashUpdate hh hl ciphertext (ghashUpdate hh hl aad 0))

/-- TAG of R235. -/
def messageTag (key : List Byte) (hh hl : Vector Half 16) (j0Orig : Block) (aad ciphertext : List Byte) (tagLen : Nat) : List Byte :=
  (blockBytes (Config.blockCipher key j0Orig ^^^ finalHash hh hl aad ciphertext)).take tagLen

/-- The ciphertext of a message with payload `p`: the output when encrypting, the payload itself when decrypting (R138, R235). -/
def ciphertextOf (mode : Mode) (key : List Byte) (j0Orig : Block) (p : List Byte) : List Byte :=
  match mode with
  | .encrypt => crypted key j0Orig p
  | .decrypt => p

/-! ## Whole-machine terms -/

/-- The transition table of 44_gcm_engine.md R201: STATE after the command when every other check passes, absent where the table has
`IS`. An internal datapath operation has no row, and leaves STATE. -/
def transition (i : Instr) (st : MsgState) (adDone : Bool) : Option MsgState :=
  match i with
  | .setKey _ _ => some .keyed
  | .start _ _ _ => if st = .init then none else some .started
  | .updateAd _ _ => if st = .started ∧ adDone = false then some .started else none
  | .update _ _ => if st = .started ∨ st = .updating then some .updating else none
  | .finish _ => if st = .started ∨ st = .updating then some .finished else none
  | .cryptAndTag _ _ _ _ _ _ _ _ => if st = .init then none else some .finished
  | .authDecrypt _ _ _ _ _ _ _ _ => if st = .init then none else some .finished
  | .buildTables _ | .gfMult _ | .ghashUpdate _ _ | .ghashAbsorb _ | .ghashFlush => some st
  | .deriveJ0 _ | .inc32 _ | .ctrCrypt _ | .ctrSingleBlock _ _ | .tagCompare _ _ _ => some st

/-- START, and the commands with a START step (10_state.md section 4). -/
def startsMessage : Instr → Bool
  | .start _ _ _ | .cryptAndTag _ _ _ _ _ _ _ _ | .authDecrypt _ _ _ _ _ _ _ _ => true
  | _ => false

/-- The context that the next port event addresses. -/
def eventContext : List PortEvent → Option Nat
  | .issue (t :: _) :: _ => some t.context
  | .create id :: _ => some id
  | .drop id :: _ => some id
  | .issue [] :: _ => none
  | [] => none

/-- The host's stream of transactions issued one after the other. -/
def issued (ts : List Transaction) : List PortEvent := ts.map fun t => .issue [t]

/-- `n` steps, with what the host observed at each; absent where one has no step. -/
def runSteps : Nat → State → Option (State × List (Nat × Response))
  | 0, s => some (s, [])
  | n + 1, s =>
    match step s with
    | .next t => (runSteps n t).map fun p => (p.1, t.observed.toList ++ p.2)
    | _ => none

end Sys2Proof.Machine
end

