-- ==== Sys2Proof/Certificates/Slice0/Obligations.lean ====
section
/-! DEFINITION. The statements for the provers. Each docstring names the rules of spec/ it formalises. -/

open Sys2Proof Sys2Proof.Machine

/-! ## Encoding -/

/-- R101, R102, R105: every command has a command word and an operand record, and DECODE of them is the command. -/
def Obligations.DecodeInvertsEncode : Prop :=
  ∀ i : Instr, i.isCommand = true → ∃ w r, encode i = some (w, r) ∧ decode w r = .ok i

/-- R105, R107, R110: a word that DECODE accepts stands for a command, never for a datapath operation, and is the one word of it. -/
def Obligations.AcceptedWordIsTheCommandsWord : Prop :=
  ∀ (w : BitVec 32) (r : OperandRecord) (i : Instr), decode w r = .ok i → i.isCommand = true ∧ ∃ r', encode i = some (w, r')

/-- R113: the worked encodings, each word with the command it stands for and back, and the illegal words. -/
def Obligations.WorkedEncodings : Prop :=
  (let r := { OperandRecord.zero with keyBits := 128, key := some (zeroBytes 16) }
   encode (.setKey 128 (some (zeroBytes 16))) = some (0x00000001, r) ∧
   decode 0x00000001 r = .ok (.setKey 128 (some (zeroBytes 16)))) ∧
  (let iv := [0xca, 0xfe, 0xba, 0xbe, 0xfa, 0xce, 0xdb, 0xad, 0xde, 0xca, 0xf8, 0x88]
   let r := { OperandRecord.zero with ivLen := 12, iv := some iv }
   encode (.start .encrypt 12 (some iv)) = some (0x00000102, r) ∧ decode 0x00000102 r = .ok (.start .encrypt 12 (some iv))) ∧
  (∀ iv,
    encode (.start .decrypt 12 iv) = some (0x00000002, { OperandRecord.zero with ivLen := 12, iv := iv }) ∧
    decode 0x00000002 { OperandRecord.zero with ivLen := 12, iv := iv } = .ok (.start .decrypt 12 iv)) ∧
  (encode (.finish 16) = some (0x00000005, { OperandRecord.zero with tagLen := 16 }) ∧
    decode 0x00000005 { OperandRecord.zero with tagLen := 16 } = .ok (.finish 16)) ∧
  (∀ r, ∃ e, decode 0x00000104 r = .error e) ∧
  (∀ r, ∃ e, decode 0x00000008 r = .error e) ∧
  (∀ r, ∃ e, decode 0x80000001 r = .error e)

/-- R107: which command words are illegal, what each of the others selects, and that an illegal word on the port is answered with
ILLEGAL_COMMAND and empty OUT and TAG, writes no register of any context, and reads no operand. -/
def Obligations.IllegalWordsAreAnswered : Prop :=
  (∀ r : OperandRecord,
    decode 0x00000001 r = .ok (.setKey r.keyBits r.key) ∧
    decode 0x00000002 r = .ok (.start .decrypt r.ivLen r.iv) ∧
    decode 0x00000102 r = .ok (.start .encrypt r.ivLen r.iv) ∧
    decode 0x00000003 r = .ok (.updateAd r.aadLen r.aad) ∧
    decode 0x00000004 r = .ok (.update r.len r.input) ∧
    decode 0x00000005 r = .ok (.finish r.tagLen) ∧
    decode 0x00000006 r = .ok (.cryptAndTag .decrypt r.ivLen r.iv r.aadLen r.aad r.len r.input r.tagLen) ∧
    decode 0x00000106 r = .ok (.cryptAndTag .encrypt r.ivLen r.iv r.aadLen r.aad r.len r.input r.tagLen) ∧
    decode 0x00000007 r = .ok (.authDecrypt r.ivLen r.iv r.aadLen r.aad r.len r.input r.tagLen r.tag)) ∧
  (∀ (w : BitVec 32) (r : OperandRecord),
    (∃ e, decode w r = .error e) ↔
      ((w.toNat % 2 ^ 8 = 0 ∨ 8 ≤ w.toNat % 2 ^ 8) ∨
       (w.getLsbD 8 = true ∧ w.toNat % 2 ^ 8 ∈ [1, 3, 4, 5, 7]) ∨
       (∃ k, 9 ≤ k ∧ w.getLsbD k = true))) ∧
  (∀ (s : State) (t : Transaction) (ts : List Transaction) (rest : List PortEvent) (c : Context),
    s.stream = .issue (t :: ts) :: rest → distinctContexts (t :: ts) = true → s.contextAt t.context = some c →
    (∃ e, decode t.cmd t.operands = .error e) →
    ∃ u, step s = .next u ∧ u.response = some { status := .illegalCommand, out := [], tag := [] } ∧
      u.active = t.context ∧ u.stream = afterFirst ts rest ∧ u.result = s.result ∧
      ∀ id, u.contextAt id = s.contextAt id)

/-- R10, R75: byte i of a Block built from at most 16 bytes is byte i of the sequence, 0 past its end; a Block is the one built from its
bytes; and it is the big-endian integer of its bytes. -/
def Obligations.BlocksAreTheirBytesBigEndian : Prop :=
  (∀ (l : List Byte) (i : Nat), l.length ≤ 16 → i < 16 → blockByte (blockOfBytes l) i = l.getD i 0) ∧
  (∀ b : Block, blockOfBytes (blockBytes b) = b) ∧
  (∀ b : Block, b.toNat = ((List.range 16).map fun i => (blockByte b i).toNat * 2 ^ (8 * (15 - i))).sum)

/-! ## The port -/

/-- R77, R100: a command on the port that DECODE accepts is run, on the context it addresses, with the port moved past it. -/
def Obligations.StepRunsTheDecodedCommand : Prop :=
  ∀ (s : State) (t : Transaction) (ts : List Transaction) (rest : List PortEvent) (i : Instr),
    s.stream = .issue (t :: ts) :: rest → distinctContexts (t :: ts) = true → decode t.cmd t.operands = .ok i →
    step s = exec i { s with stream := afterFirst ts rest, active := t.context }

/-- R82, R330 (log 4): two commands in flight on one context have no step. -/
def Obligations.OverlappingCommandsHaveNoStep : Prop :=
  ∀ (s : State) (a b : Transaction) (before between after : List Transaction) (rest : List PortEvent),
    a.context = b.context → s.stream = .issue (before ++ a :: between ++ b :: after) :: rest →
    step s = .refused .overlappingCommands

/-- R320, R323 (log 6): a created context is as reset leaves it, a dropped one is gone, neither gives a response, and no other context
changes. -/
def Obligations.ContextsAreCreatedAndDropped : Prop :=
  ∀ (s : State) (id : Nat) (rest : List PortEvent), id < Config.numContexts →
    (s.stream = .create id :: rest →
      ∃ t, step s = .next t ∧ t.contextAt id = some Context.reset ∧ (∀ k, k ≠ id → t.contextAt k = s.contextAt k) ∧
        t.response = none ∧ t.stream = rest ∧ t.active = s.active ∧ t.result = s.result) ∧
    (s.stream = .drop id :: rest →
      ∃ t, step s = .next t ∧ t.contextAt id = none ∧ (∀ k, k ≠ id → t.contextAt k = s.contextAt k) ∧
        t.response = none ∧ t.stream = rest ∧ t.active = s.active ∧ t.result = s.result)

/-- R52, R83: a step changes no context but the one the port event addresses. -/
def Obligations.StepTouchesOneContext : Prop :=
  ∀ (s t : State) (id : Nat), step s = .next t → eventContext s.stream ≠ some id → t.contextAt id = s.contextAt id

/-- R83: commands on distinct contexts, in any two interleavings that keep each context's own order, give each context the same
responses and leave it the same. -/
def Obligations.InterleavingsOfContextsAgree : Prop :=
  ∀ (s t : State) (ts us : List Transaction) (seen : List (Nat × Response)),
    (∀ id, ts.filter (fun x => x.context == id) = us.filter (fun x => x.context == id)) →
    runSteps ts.length { s with stream := issued ts } = some (t, seen) →
    ∃ t' seen', runSteps us.length { s with stream := issued us } = some (t', seen') ∧
      ∀ id, seen'.filter (fun x => x.1 == id) = seen.filter (fun x => x.1 == id) ∧ t'.contextAt id = t.contextAt id

/-! ## Reset and invariants -/

/-- R320: a context out of reset. That all contexts exist at reset is the model's choice (log 5). -/
def Obligations.ResetValues : Prop :=
  ∀ id, id < Config.numContexts →
    ∃ c, State.reset.contextAt id = some c ∧
      stateCode c.msgState = 0 ∧ modeCode c.mode = 0 ∧ c.key.toList = zeroBytes 32 ∧ c.keyBits = 0 ∧ c.keyValid = false ∧
      c.hh.toList = List.replicate 16 0 ∧ c.hl.toList = List.replicate 16 0 ∧ c.acc = 0 ∧ c.j0 = 0 ∧ c.j0Orig = 0 ∧
      c.aadLen = 0 ∧ c.dataLen = 0 ∧ c.adDone = false ∧ c.ks = 0 ∧ c.ksOff = 0 ∧ c.ghPend = 0

/-- R50: the invariants hold at reset. -/
def Obligations.ResetMeetsTheInvariants : Prop := State.reset.Inv

/-- R50: every step keeps the invariants, from every state that has them. -/
def Obligations.StepKeepsTheInvariants : Prop :=
  ∀ s t : State, s.Inv → step s = .next t → t.Inv

/-- R321: commands from reset, with buffers that meet the host's duty. For a KEY_BITS that is no multiple of 8, that the duty asks for a
key of KEY_BITS/8 bytes rounded down is the model's choice (log 25). -/
def Obligations.CommandsFromReset : Prop :=
  ∀ (s : State), s.current = some Context.reset →
    (∀ (keyBits : BitVec 32) (k : List Byte), keyBits = 128 ∨ keyBits = 192 ∨ keyBits = 256 → k.length = keyBits.toNat / 8 →
      ∃ t c, exec (.setKey keyBits (some k)) s = .next t ∧ t.response = some okOnly ∧ t.current = some c ∧ c.msgState = .keyed) ∧
    (∀ (keyBits : BitVec 32) (key : Buffer), keyBits ≠ 128 → keyBits ≠ 192 → keyBits ≠ 256 → (Instr.setKey keyBits key).wf = true →
      exec (.setKey keyBits key) s = .next (s.respond Context.reset (failed .unsupportedKeyLength))) ∧
    (∀ keyBits : BitVec 32, keyBits = 128 ∨ keyBits = 192 ∨ keyBits = 256 →
      exec (.setKey keyBits none) s = .next (s.respond Context.reset (failed .badInput))) ∧
    (∀ i : Instr, i.isCommand = true → i.wf = true → (∀ keyBits key, i ≠ .setKey keyBits key) →
      exec i s = .next (s.respond Context.reset (failed .invalidState)))

/-! ## GaloisMultiplier -/

/-- R130: the product is commutative and associative, distributes over XOR, has the identity blk(2^127) and the zero 0^16. -/
def Obligations.ProductIsACommutativeRing : Prop :=
  (∀ x y : Block, gfMulRef x y = gfMulRef y x) ∧
  (∀ x y z : Block, gfMulRef (gfMulRef x y) z = gfMulRef x (gfMulRef y z)) ∧
  (∀ x y z : Block, gfMulRef x (y ^^^ z) = gfMulRef x y ^^^ gfMulRef x z) ∧
  (∀ x : Block, gfMulRef (BitVec.ofNat 128 (2 ^ 127)) x = x) ∧
  (∀ x : Block, gfMulRef 0 x = 0)

/-- R131: MULX on the whole value is MULX on the halves, and it is the product with x, blk(2^126). -/
def Obligations.HalvingIsMultiplicationByX : Prop :=
  (∀ vh vl : Half, mulx (vh ++ vl) = (mulxHalves (vh, vl)).1 ++ (mulxHalves (vh, vl)).2) ∧
  (∀ v : Block, mulx v = gfMulRef (BitVec.ofNat 128 (2 ^ 126)) v)

/-- R132, R38: BUILD_TABLES completes, writes no register, and entry n of its tables is H • blk(n * 2^124); entry 8 is H itself. -/
def Obligations.TablesAreNibbleMultiples : Prop :=
  ∀ (s : State) (c : Context) (h : Block), s.current = some c →
    ∃ hh hl, exec (.buildTables h) s = .next (s.deliver c (.tables hh hl)) ∧
      (∀ n : Nibble, tableEntry hh hl n = gfMulRef h (BitVec.ofNat 128 (n.toNat * 2 ^ 124))) ∧
      tableEntry hh hl 8 = h

/-- R133: every entry of LAST4 is the sum its rule gives, and the table is linear. -/
def Obligations.ReductionTable : Prop :=
  (∀ rem : Nibble,
    last4[rem.toNat]'rem.isLt =
      (List.range 4).foldl (fun v k =>
        if rem.getLsbD k then [0, 1, 2, 7].foldl (fun v e => v ^^^ BitVec.ofNat 16 (2 ^ (15 - (3 - k + e)))) v else v) 0) ∧
  (∀ a b : Nibble, last4[(a ^^^ b).toNat]'(a ^^^ b).isLt = last4[a.toNat]'a.isLt ^^^ last4[b.toNat]'b.isLt)

/-- R134: GF_MULT completes, writes no register, and is Horner's rule over the 32 nibbles, the highest degree first, whatever the
tables hold. Nibble k is bits 127-4k to 124-4k, the coefficients of x^(4k) to x^(4k+3). -/
def Obligations.GfMultIsHornersRule : Prop :=
  ∀ (s : State) (c : Context) (x : Block), s.current = some c →
    exec (.gfMult x) s = .next (s.deliver c (.block
      ((List.range 32).reverse.foldl
        (fun z k => mulx (mulx (mulx (mulx z))) ^^^ tableEntry c.hh c.hl (x.extractLsb' (124 - 4 * k) 4)) 0)))

/-- R135: the product by the tables is the reference product. -/
def Obligations.TableProductIsTheProduct : Prop :=
  ∀ h x : Block, gfMult (buildTables h).1 (buildTables h).2 x = gfMulRef x h

/-- R137: GHASH_UPDATE completes, writes no register, and takes the data 16 bytes at a time, a last partial block zero-padded: XOR into
the accumulator, then multiply. Empty data gives the accumulator back. -/
def Obligations.GhashUpdateTakesPaddedBlocks : Prop :=
  ∀ (s : State) (c : Context) (d : List Byte) (a : Block), s.current = some c →
    exec (.ghashUpdate d a) s = .next (s.deliver c (.block
      ((List.range ((d.length + 15) / 16)).foldl
        (fun a k => gfMult c.hh c.hl (a ^^^ blockOfBytes ((d.drop (16 * k)).take 16))) a)))

/-- R140: GHASH_ABSORB completes, XORs the byte into byte GH_PEND of ACC, and multiplies on the 16th byte; it writes ACC and GH_PEND and
no other register. -/
def Obligations.GhashAbsorbTakesOneByte : Prop :=
  ∀ (s : State) (c : Context) (b : Byte), s.current = some c →
    ∃ x : Block,
      (∀ i, i < 16 → blockByte x i = if i = c.ghPend.toNat then blockByte c.acc i ^^^ b else blockByte c.acc i) ∧
      (c.ghPend = 15 →
        exec (.ghashAbsorb b) s = .next (s.deliver { c with acc := gfMult c.hh c.hl x, ghPend := 0 } .registersOnly)) ∧
      (c.ghPend ≠ 15 →
        exec (.ghashAbsorb b) s = .next (s.deliver { c with acc := x, ghPend := c.ghPend + 1 } .registersOnly))

/-- R141: GHASH_FLUSH completes; it writes nothing while GH_PEND = 0, and else multiplies ACC and clears GH_PEND. -/
def Obligations.GhashFlushClosesTheBlock : Prop :=
  ∀ (s : State) (c : Context), s.current = some c →
    (c.ghPend = 0 → exec .ghashFlush s = .next (s.deliver c .registersOnly)) ∧
    (c.ghPend ≠ 0 →
      exec .ghashFlush s = .next (s.deliver { c with acc := gfMult c.hh c.hl c.acc, ghPend := 0 } .registersOnly))

/-- R142: the chunking law. -/
def Obligations.AbsorbThenFlushIsGhashUpdate : Prop :=
  ∀ (c : Context) (chunks : List (List Byte)), c.ghPend = 0 →
    (ghashFlush (chunks.foldl (fun c d => d.foldl ghashAbsorb c) c)).acc = ghashUpdate c.hh c.hl chunks.flatten c.acc ∧
    (ghashFlush (chunks.foldl (fun c d => d.foldl ghashAbsorb c) c)).ghPend = 0

/-! ## IVDeriver -/

/-- R160, R161, R163: DERIVE_J0 completes on every IV of 1 to 2^29 - 1 bytes and writes no register. A 12-byte IV gives IV || 00000001,
whatever the tables; any other IV is hashed, then the block BE64(0) || BE64(8 * len). -/
def Obligations.DeriveJ0ByIvLength : Prop :=
  ∀ (s : State) (c : Context) (iv : List Byte), s.current = some c → 1 ≤ iv.length → iv.length ≤ 2 ^ 29 - 1 →
    (iv.length = 12 →
      ∃ j : Block, exec (.deriveJ0 iv) s = .next (s.deliver c (.block j)) ∧
        (∀ i, i < 12 → blockByte j i = iv.getD i 0) ∧ j.toNat % 2 ^ 32 = 1) ∧
    (iv.length ≠ 12 →
      exec (.deriveJ0 iv) s = .next (s.deliver c (.block
        (gfMult c.hh c.hl (ghashUpdate c.hh c.hl iv 0 ^^^ BitVec.ofNat 128 (8 * iv.length))))))

/-! ## CounterCodec -/

/-- R180: INC32 completes, writes no register, leaves bytes 0 to 11, and adds 1 modulo 2^32 to the last four. -/
def Obligations.Inc32WrapsInTheLastFourBytes : Prop :=
  ∀ (s : State) (c : Context) (b : Block), s.current = some c →
    ∃ n : Block, exec (.inc32 b) s = .next (s.deliver c (.block n)) ∧
      n.toNat / 2 ^ 32 = b.toNat / 2 ^ 32 ∧ n.toNat % 2 ^ 32 = (b.toNat % 2 ^ 32 + 1) % 2 ^ 32

/-- R181: CTR_CRYPT completes on every input and from every registers, in closed form. Byte j of the output is byte j of the input
under byte (KS_OFF + j) mod 16 of keystream block floor((KS_OFF + j)/16), where block 0 of an open block is KS and every other block n is
E(K, INC32^n(J0)); J0, KS and KS_OFF are written, KS only where a block starts, and no other register. In a context
without a valid key of 128, 192 or 256 bits, that the key in use is the first KEY_BITS/8 bytes of KEY is the model's choice (log 23). -/
def Obligations.CtrCryptClosedForm : Prop :=
  ∀ (s : State) (c : Context) (d : List Byte), s.current = some c →
    ∃ stream : Nat → Block,
      (∀ n, stream n =
        if n = 0 ∧ c.ksOff ≠ 0 then c.ks else Config.blockCipher (keyInUse c) (inc32Iter n c.j0)) ∧
      exec (.ctrCrypt d) s = .next (s.deliver
        { c with
          j0 := inc32Iter ((c.ksOff.toNat + d.length) / 16) c.j0
          ksOff := BitVec.ofNat 4 ((c.ksOff.toNat + d.length) % 16)
          ks := if d = [] then c.ks else stream ((c.ksOff.toNat + d.length - 1) / 16) }
        (.bytes (d.mapIdx fun j b => b ^^^ blockByte (stream ((c.ksOff.toNat + j) / 16)) ((c.ksOff.toNat + j) % 16))))

/-- R182: the keystream law for the UPDATEs of one message. From a context in STARTED with KS_OFF = 0, the outputs of UPDATEs of any
chunks together are the payload under E(K, INC32^(1 + floor(j/16))(J0))[j mod 16], and each output has the length of its input. -/
def Obligations.KeystreamOfAMessage : Prop :=
  ∀ (s : State) (c : Context) (chunks : List (List Byte)), s.current = some c →
    c.msgState = .started → c.ksOff = 0 → c.dataLen = 0 → chunks.flatten.length ≤ maxDataBytes →
    ∃ t rs, execAll (updates chunks) s = some (t, rs) ∧
      (rs.map (·.out)).flatten = crypted (keyInUse c) c.j0 chunks.flatten ∧
      rs.map (fun r => r.out.length) = chunks.map List.length ∧
      ∀ r ∈ rs, r.status = .ok

/-- R183: CTR_SINGLE_BLOCK completes, is E(K, J) ^ X, and writes no register. In a context without a valid key of 128, 192 or 256 bits,
that the key in use is the first KEY_BITS/8 bytes of KEY is the model's choice (log 23). -/
def Obligations.CtrSingleBlockIsOneBlock : Prop :=
  ∀ (s : State) (c : Context) (j x : Block), s.current = some c →
    exec (.ctrSingleBlock j x) s = .next (s.deliver c (.block (Config.blockCipher (keyInUse c) j ^^^ x)))

/-- R184: the payload limit is at most 2^32 - 2 blocks; under it the payload counters are pairwise distinct and none is J0_ORIG; the last
four bytes may still wrap inside a message. -/
def Obligations.PayloadCountersAreDistinct : Prop :=
  (∀ n, n ≤ maxDataBytes → (n + 15) / 16 ≤ 2 ^ 32 - 2) ∧
  (∀ (j0Orig : Block) (m m' : Nat), 1 ≤ m → m < m' → m' ≤ 2 ^ 32 - 2 →
    inc32Iter m j0Orig ≠ inc32Iter m' j0Orig ∧ inc32Iter m j0Orig ≠ j0Orig ∧ inc32Iter m' j0Orig ≠ j0Orig) ∧
  (∃ (j0Orig : Block) (m : Nat), 1 ≤ m ∧ m + 1 ≤ 2 ^ 32 - 2 ∧
    (inc32Iter m j0Orig).toNat % 2 ^ 32 = 2 ^ 32 - 1 ∧ (inc32Iter (m + 1) j0Orig).toNat % 2 ^ 32 = 0)

/-! ## The streaming commands -/

/-- R210: SET_KEY with a key that meets the host's duty, every check and the whole effect: a rebuild where the key differs from the
cached one, else STATE alone. For a KEY_BITS that is no multiple of 8, that the duty asks for a key of KEY_BITS/8 bytes rounded down is
the model's choice (log 25). -/
def Obligations.SetKeyRule : Prop :=
  ∀ (s : State) (c : Context) (keyBits : BitVec 32), s.current = some c →
    (keyBits ≠ 128 → keyBits ≠ 192 → keyBits ≠ 256 → ∀ key, (Instr.setKey keyBits key).wf = true →
      exec (.setKey keyBits key) s = .next (s.respond c { status := .unsupportedKeyLength, out := [], tag := [] })) ∧
    (keyBits = 128 ∨ keyBits = 192 ∨ keyBits = 256 →
      exec (.setKey keyBits none) s = .next (s.respond c { status := .badInput, out := [], tag := [] }) ∧
      ∀ k : List Byte, k.length = keyBits.toNat / 8 →
        (c.keyValid = true ∧ c.keyBits.toNat = keyBits.toNat ∧ c.key.toList.take (keyBits.toNat / 8) = k →
          exec (.setKey keyBits (some k)) s =
            .next (s.respond { c with msgState := .keyed } { status := .ok, out := [], tag := [] })) ∧
        (¬(c.keyValid = true ∧ c.keyBits.toNat = keyBits.toNat ∧ c.key.toList.take (keyBits.toNat / 8) = k) →
          exec (.setKey keyBits (some k)) s =
            .next (s.respond
              { c with
                key := Vector.ofFn fun i => k.getD i 0
                keyBits := BitVec.ofNat 16 keyBits.toNat
                hh := (buildTables (Config.blockCipher k 0)).1
                hl := (buildTables (Config.blockCipher k 0)).2
                keyValid := true
                msgState := .keyed }
              { status := .ok, out := [], tag := [] })))

/-- R215, R162: START with a buffer that meets the host's duty (R81), every check and the whole effect. -/
def Obligations.StartRule : Prop :=
  ∀ (s : State) (c : Context) (m : Mode) (ivLen : BitVec 64), s.current = some c →
    (c.msgState = .init → ∀ iv, (Instr.start m ivLen iv).wf = true →
      exec (.start m ivLen iv) s = .next (s.respond c { status := .invalidState, out := [], tag := [] })) ∧
    (c.msgState ≠ .init →
      (∀ iv, iv = none ∨ ivLen.toNat = 0 ∨ 2 ^ 29 ≤ ivLen.toNat → (Instr.start m ivLen iv).wf = true →
        exec (.start m ivLen iv) s = .next (s.respond c { status := .badInput, out := [], tag := [] })) ∧
      (∀ iv : List Byte, 1 ≤ ivLen.toNat → ivLen.toNat < 2 ^ 29 → iv.length = ivLen.toNat →
        exec (.start m ivLen (some iv)) s =
          .next (s.respond
            { c with
              acc := 0, ghPend := 0, aadLen := 0, dataLen := 0, adDone := false, ks := 0, ksOff := 0, mode := m
              j0 := deriveJ0 c.hh c.hl iv, j0Orig := deriveJ0 c.hh c.hl iv, msgState := .started }
            { status := .ok, out := [], tag := [] })))

/-- R220: UPDATE_AD with a buffer that meets the host's duty (R81), every check and the whole effect. -/
def Obligations.UpdateAdRule : Prop :=
  ∀ (s : State) (c : Context) (aadLen : BitVec 64), s.current = some c →
    (c.msgState ≠ .started ∨ c.adDone = true → ∀ aad, (Instr.updateAd aadLen aad).wf = true →
      exec (.updateAd aadLen aad) s = .next (s.respond c { status := .invalidState, out := [], tag := [] })) ∧
    (c.msgState = .started → c.adDone = false →
      (∀ aad, (aad = none ∧ 0 < aadLen.toNat) ∨ 2 ^ 61 ≤ aadLen.toNat → (Instr.updateAd aadLen aad).wf = true →
        exec (.updateAd aadLen aad) s = .next (s.respond c { status := .badInput, out := [], tag := [] })) ∧
      (aadLen.toNat = 0 →
        exec (.updateAd aadLen none) s =
          .next (s.respond { c with aadLen := 0, adDone := true } { status := .ok, out := [], tag := [] })) ∧
      (∀ aad : List Byte, aadLen.toNat < 2 ^ 61 → aad.length = aadLen.toNat →
        exec (.updateAd aadLen (some aad)) s =
          .next (s.respond
            { c with acc := ghashUpdate c.hh c.hl aad c.acc, aadLen := aadLen, adDone := true }
            { status := .ok, out := [], tag := [] })))

/-- R225: UPDATE with a buffer that meets the host's duty (R81), every check and the whole effect. `c1` has the increment of the first call; CTR_CRYPT gives J0, KS, KS_OFF and OUT,
GHASH_ABSORB over the ciphertext gives ACC and GH_PEND, and the length is added. -/
def Obligations.UpdateRule : Prop :=
  ∀ (s : State) (c : Context) (len : BitVec 64), s.current = some c →
    (c.msgState ≠ .started → c.msgState ≠ .updating → ∀ input, (Instr.update len input).wf = true →
      exec (.update len input) s = .next (s.respond c { status := .invalidState, out := [], tag := [] })) ∧
    (c.msgState = .started ∨ c.msgState = .updating →
      (∀ input, (input = none ∧ 0 < len.toNat) ∨ 2 ^ 36 - 32 < c.dataLen.toNat + len.toNat → (Instr.update len input).wf = true →
        exec (.update len input) s = .next (s.respond c { status := .badInput, out := [], tag := [] })) ∧
      (∀ input : Buffer, ∀ d : List Byte, (input = none ∧ d = [] ∨ input = some d) → d.length = len.toNat →
        c.dataLen.toNat + len.toNat ≤ 2 ^ 36 - 32 →
        ∃ c1 crypt ciphertext,
          c1 = { c with j0 := if c.msgState = .started then inc32 c.j0 else c.j0 } ∧
          crypt = ctrCrypt d c1 ∧
          ciphertext = (match c.mode with | .encrypt => crypt.2 | .decrypt => d) ∧
          crypt.2.length = len.toNat ∧
          exec (.update len input) s =
            .next (s.respond
              { c with
                j0 := crypt.1.j0, ks := crypt.1.ks, ksOff := crypt.1.ksOff
                acc := (ciphertext.foldl ghashAbsorb c).acc
                ghPend := (ciphertext.foldl ghashAbsorb c).ghPend
                dataLen := c.dataLen + len
                msgState := .updating }
              { status := .ok, out := crypt.2, tag := [] })))

/-- R230: FINISH, every check and the whole effect. -/
def Obligations.FinishRule : Prop :=
  ∀ (s : State) (c : Context) (tagLen : BitVec 32), s.current = some c →
    (c.msgState ≠ .started → c.msgState ≠ .updating →
      exec (.finish tagLen) s = .next (s.respond c { status := .invalidState, out := [], tag := [] })) ∧
    (c.msgState = .started ∨ c.msgState = .updating →
      (tagLen.toNat < 4 ∨ 16 < tagLen.toNat →
        exec (.finish tagLen) s = .next (s.respond c { status := .badInput, out := [], tag := [] })) ∧
      (4 ≤ tagLen.toNat → tagLen.toNat ≤ 16 →
        ∃ flushed hash : Block,
          flushed = (if c.ghPend = 0 then c.acc else gfMult c.hh c.hl c.acc) ∧
          hash = gfMult c.hh c.hl
            (flushed ^^^ (BitVec.ofNat 64 (c.aadLen.toNat * 8) ++ BitVec.ofNat 64 (c.dataLen.toNat * 8))) ∧
          exec (.finish tagLen) s =
            .next (s.respond { c with acc := hash, ghPend := 0, msgState := .finished }
              { status := .ok, out := []
                tag := (blockBytes (Config.blockCipher (keyInUse c) c.j0Orig ^^^ hash)).take tagLen.toNat })))

/-! ## Laws of the engine -/

/-- R201: the transition table, for every command whose buffers meet the host's duty. -/
def Obligations.TransitionTable : Prop :=
  ∀ (i : Instr) (s : State) (c : Context), i.isCommand = true → i.wf = true → s.current = some c →
    ∃ r c', exec i s = .next (s.respond c' r) ∧
      (transition i c.msgState c.adDone = none ↔ r.status = .invalidState) ∧
      (r.status = .ok ∨ r.status = .authenticationFailed → transition i c.msgState c.adDone = some c'.msgState) ∧
      (r.status ≠ .ok → r.status ≠ .authenticationFailed → c' = c)

/-- R281, R202: a command that ends by `fail` writes no register of any context, and its OUT and TAG are empty. -/
def Obligations.FailingCommandWritesNothing : Prop :=
  ∀ (i : Instr) (s t : State) (r : Response), i.isCommand = true → exec i s = .next t → t.response = some r →
    r.status ≠ .ok → r.status ≠ .authenticationFailed →
    r.out = [] ∧ r.tag = [] ∧ (∀ id, t.contextAt id = s.contextAt id) ∧
      t.stream = s.stream ∧ t.active = s.active ∧ t.result = s.result

/-- R104: the status codes, which command gives which status, and when OUT and TAG are not empty and how long they then are. -/
def Obligations.ResponsesHaveTheirShape : Prop :=
  (statusCode .ok = 0x00 ∧ statusCode .badInput = 0x01 ∧ statusCode .invalidState = 0x02 ∧
    statusCode .unsupportedKeyLength = 0x03 ∧ statusCode .authenticationFailed = 0x04 ∧ statusCode .illegalCommand = 0x05) ∧
  ∀ (i : Instr) (s t : State) (r : Response), i.isCommand = true → exec i s = .next t → t.response = some r →
    (r.status = .unsupportedKeyLength → ∃ keyBits key, i = .setKey keyBits key) ∧
    (r.status = .invalidState → ∀ keyBits key, i ≠ .setKey keyBits key) ∧
    (r.status = .authenticationFailed → ∃ a b c d e f g h, i = .authDecrypt a b c d e f g h) ∧
    r.status ≠ .illegalCommand ∧
    (r.out ≠ [] →
      (r.status = .ok ∧
        ((∃ len input, i = .update len input) ∨ (∃ m a b c d e f g, i = .cryptAndTag m a b c d e f g) ∨
         (∃ a b c d e f g h, i = .authDecrypt a b c d e f g h))) ∨
      (r.status = .authenticationFailed ∧ ∃ a b c d e f g h, i = .authDecrypt a b c d e f g h)) ∧
    (r.tag ≠ [] →
      r.status = .ok ∧ ((∃ tagLen, i = .finish tagLen) ∨ (∃ m a b c d e f g, i = .cryptAndTag m a b c d e f g))) ∧
    (∀ len input, i = .update len input → r.status = .ok → r.out.length = len.toNat) ∧
    (∀ tagLen, i = .finish tagLen → r.status = .ok → r.tag.length = tagLen.toNat) ∧
    (∀ m ivLen iv aadLen aad len input tagLen, i = .cryptAndTag m ivLen iv aadLen aad len input tagLen → r.status = .ok →
      r.out.length = len.toNat ∧ r.tag.length = tagLen.toNat) ∧
    (∀ ivLen iv aadLen aad len input tagLen tag, i = .authDecrypt ivLen iv aadLen aad len input tagLen tag →
      r.status = .ok ∨ r.status = .authenticationFailed → r.out.length = len.toNat)

/-- R280, R292: whatever its word, a transaction whose buffers meet the host's duty is answered, failing or not, with one response, and the
port moves past it. -/
def Obligations.EveryTransactionIsAnswered : Prop :=
  ∀ (s : State) (t : Transaction) (rest : List PortEvent) (c : Context),
    s.stream = .issue [t] :: rest → s.contextAt t.context = some c →
    (∀ i, decode t.cmd t.operands = .ok i → i.wf = true) →
    ∃ u r, step s = .next u ∧ u.observed = some (t.context, r) ∧ u.stream = rest

/-- R52, R77, R110: what an instruction leaves: every other context, the port, the selection; a command leaves the datapath's latch and
shows a response, a datapath operation leaves the response. -/
def Obligations.ExecLeavesTheRestOfTheMachine : Prop :=
  ∀ (i : Instr) (s t : State), exec i s = .next t →
    (∀ id, id ≠ s.active → t.contextAt id = s.contextAt id) ∧ t.stream = s.stream ∧ t.active = s.active ∧
    (i.isCommand = true → t.result = s.result ∧ t.response ≠ none) ∧
    (i.isCommand = false → t.response = s.response ∧ t.result ≠ none)

/-- R81: a transaction one of whose buffers does not carry the number of bytes its length operand names has no step, in every state and
whatever the command's checks would say. For a KEY_BITS that is no multiple of 8, that KEY_BITS/8 is rounded down is the model's
choice (log 25). -/
def Obligations.BrokenBufferDutyNeverRuns : Prop :=
  (∀ (s : State) (c : Context), s.current = some c →
    (∀ keyBits k, k.length ≠ keyBits.toNat / 8 → exec (.setKey keyBits (some k)) s = .refused .operandLength) ∧
    (∀ m ivLen iv, iv.length ≠ ivLen.toNat → exec (.start m ivLen (some iv)) s = .refused .operandLength) ∧
    (∀ aadLen aad, aad.length ≠ aadLen.toNat → exec (.updateAd aadLen (some aad)) s = .refused .operandLength) ∧
    (∀ len input, input.length ≠ len.toNat → exec (.update len (some input)) s = .refused .operandLength) ∧
    (∀ m ivLen iv aadLen aad len input tagLen,
      (∃ l, iv = some l ∧ l.length ≠ ivLen.toNat) ∨ (∃ l, aad = some l ∧ l.length ≠ aadLen.toNat) ∨
        (∃ l, input = some l ∧ l.length ≠ len.toNat) →
      exec (.cryptAndTag m ivLen iv aadLen aad len input tagLen) s = .refused .operandLength) ∧
    (∀ ivLen iv aadLen aad len input tagLen tag,
      (∃ l, iv = some l ∧ l.length ≠ ivLen.toNat) ∨ (∃ l, aad = some l ∧ l.length ≠ aadLen.toNat) ∨
        (∃ l, input = some l ∧ l.length ≠ len.toNat) ∨ (∃ l, tag = some l ∧ l.length ≠ tagLen.toNat) →
      exec (.authDecrypt ivLen iv aadLen aad len input tagLen tag) s = .refused .operandLength)) ∧
  (∀ (s : State) (t : Transaction) (ts : List Transaction) (rest : List PortEvent) (c : Context) (i : Instr),
    s.stream = .issue (t :: ts) :: rest → distinctContexts (t :: ts) = true → s.contextAt t.context = some c →
    decode t.cmd t.operands = .ok i → i.wf = false → step s = .refused .operandLength)

/-- R160, R256 (log 9): DERIVE_J0 and TAG_COMPARE have no step outside the operands of their rules. -/
def Obligations.DatapathOperandDomains : Prop :=
  (∀ (s : State) (c : Context) (iv : List Byte), s.current = some c → iv.length = 0 ∨ 2 ^ 29 ≤ iv.length →
    exec (.deriveJ0 iv) s = .refused .operandDomain) ∧
  (∀ (s : State) (c : Context) (check tag : List Byte) (t : BitVec 32), s.current = some c →
    t.toNat < 4 ∨ 16 < t.toNat ∨ check.length < t.toNat ∨ tag.length < t.toNat →
    exec (.tagCompare check tag t) s = .refused .operandDomain)

/-- R30, R33 to R37, R39 to R47 (10_state.md section 4): which commands write which register. -/
def Obligations.RegistersHaveTheirWriters : Prop :=
  ∀ (i : Instr) (s : State) (c c' : Context) (r : Response), i.isCommand = true → s.current = some c →
    exec i s = .next (s.respond c' r) →
    ((∀ keyBits key, i ≠ .setKey keyBits key) →
      c'.key = c.key ∧ c'.keyBits = c.keyBits ∧ c'.keyValid = c.keyValid ∧ c'.hh = c.hh ∧ c'.hl = c.hl) ∧
    (startsMessage i = false →
      c'.mode = c.mode ∧ c'.j0Orig = c.j0Orig ∧
      ((∀ len input, i ≠ .update len input) →
        c'.j0 = c.j0 ∧ c'.ks = c.ks ∧ c'.ksOff = c.ksOff ∧ c'.dataLen = c.dataLen ∧
        ((∀ tagLen, i ≠ .finish tagLen) → c'.ghPend = c.ghPend) ∧
        ((∀ tagLen, i ≠ .finish tagLen) → (∀ aadLen aad, i ≠ .updateAd aadLen aad) → c'.acc = c.acc)) ∧
      ((∀ aadLen aad, i ≠ .updateAd aadLen aad) → c'.aadLen = c.aadLen ∧ c'.adDone = c.adDone))

/-- R80: SET_KEY on success and START, applied twice with the same operands, leave what they leave applied once; a second UPDATE_AD or a
second FINISH of a message fails INVALID_STATE; the buffer of the second UPDATE_AD meets the host's duty (R81). -/
def Obligations.IdempotentCommands : Prop :=
  (∀ (s t : State) (keyBits : BitVec 32) (key : Buffer), exec (.setKey keyBits key) s = .next t →
    exec (.setKey keyBits key) t = .next t) ∧
  (∀ (s t : State) (m : Mode) (ivLen : BitVec 64) (iv : Buffer), exec (.start m ivLen iv) s = .next t →
    exec (.start m ivLen iv) t = .next t) ∧
  (∀ (s t : State) (aadLen aadLen' : BitVec 64) (aad aad' : Buffer), exec (.updateAd aadLen aad) s = .next t →
    t.response = some okOnly →
    (Instr.updateAd aadLen' aad').wf = true →
    ∃ c, exec (.updateAd aadLen' aad') t = .next (t.respond c (failed .invalidState)) ∧ t.current = some c) ∧
  (∀ (s t : State) (tagLen tagLen' : BitVec 32) (tag : List Byte), exec (.finish tagLen) s = .next t →
    t.response = some { status := .ok, out := [], tag := tag } →
    ∃ c, exec (.finish tagLen') t = .next (t.respond c (failed .invalidState)) ∧ t.current = some c)

/-- R239: after a SET_KEY that succeeds the message is abandoned: UPDATE_AD, UPDATE and FINISH fail INVALID_STATE and leave it so. After a
START that succeeds the accumulator, the lengths and the flags are cleared. -/
def Obligations.AbandonedMessages : Prop :=
  (∀ (s t : State) (keyBits : BitVec 32) (key : Buffer), exec (.setKey keyBits key) s = .next t → t.response = some okOnly →
    ∃ c, t.current = some c ∧ c.msgState = .keyed ∧
      (∀ aadLen aad, (Instr.updateAd aadLen aad).wf = true →
        exec (.updateAd aadLen aad) t = .next (t.respond c (failed .invalidState))) ∧
      (∀ len input, (Instr.update len input).wf = true → exec (.update len input) t = .next (t.respond c (failed .invalidState))) ∧
      (∀ tagLen, exec (.finish tagLen) t = .next (t.respond c (failed .invalidState)))) ∧
  (∀ (s t : State) (m : Mode) (ivLen : BitVec 64) (iv : Buffer), exec (.start m ivLen iv) s = .next t → t.response = some okOnly →
    ∃ c, t.current = some c ∧ c.msgState = .started ∧ c.acc = 0 ∧ c.aadLen = 0 ∧ c.dataLen = 0 ∧ c.adDone = false ∧
      c.ghPend = 0 ∧ c.ksOff = 0)

/-- R235: a message in closed form. From any context that keeps the invariants: SET_KEY, START, UPDATE_AD or not, UPDATEs of any chunks,
FINISH all return OK; the outputs together are the payload under the keystream, and the tag is that of the closed form. -/
def Obligations.MessageClosedForm : Prop :=
  ∀ (s : State) (c : Context) (keyBits : BitVec 32) (key : List Byte) (m : Mode) (iv : List Byte) (aad : Option (List Byte))
    (chunks : List (List Byte)) (tagLen : BitVec 32),
    s.current = some c → c.Inv →
    keyBits = 128 ∨ keyBits = 192 ∨ keyBits = 256 → key.length = keyBits.toNat / 8 →
    1 ≤ iv.length → iv.length < ivLimit → (aad.getD []).length < aadLimit → chunks.flatten.length ≤ maxDataBytes →
    4 ≤ tagLen.toNat → tagLen.toNat ≤ 16 →
    ∃ t rs tables j0Orig,
      execAll (.setKey keyBits (some key) :: message m iv aad chunks tagLen) s = some (t, rs) ∧
      tables = buildTables (Config.blockCipher key 0) ∧
      j0Orig = deriveJ0 tables.1 tables.2 iv ∧
      (∀ r ∈ rs, r.status = .ok) ∧
      (rs.map (·.out)).flatten = crypted key j0Orig chunks.flatten ∧
      (rs.map (·.tag)).flatten =
        messageTag key tables.1 tables.2 j0Orig (aad.getD []) (ciphertextOf m key j0Orig chunks.flatten) tagLen.toNat

/-- R236: the outputs together and the tag depend on the concatenation of the UPDATE data alone, for any chunks, empty ones too, and
for none at all where the payload is empty. -/
def Obligations.ChunkSizeIndependence : Prop :=
  ∀ (s : State) (c : Context) (chunks chunks' : List (List Byte)) (tagLen : BitVec 32),
    s.current = some c → c.Inv → c.msgState = .started → chunks.flatten = chunks'.flatten →
    chunks.flatten.length ≤ maxDataBytes → 4 ≤ tagLen.toNat → tagLen.toNat ≤ 16 →
    ∃ t t' rs rs',
      execAll (updates chunks ++ [.finish tagLen]) s = some (t, rs) ∧
      execAll (updates chunks' ++ [.finish tagLen]) s = some (t', rs') ∧
      (∀ r ∈ rs ++ rs', r.status = .ok) ∧
      (rs.map (·.out)).flatten = (rs'.map (·.out)).flatten ∧
      (rs.map (·.tag)).flatten = (rs'.map (·.tag)).flatten

/-- R237: a message without UPDATE_AD has the outputs and the tag of the message with UPDATE_AD 0, NULL. -/
def Obligations.OmittedAadIsEmptyAad : Prop :=
  ∀ (s : State) (c : Context) (chunks : List (List Byte)) (tagLen : BitVec 32),
    s.current = some c → c.msgState = .started → c.adDone = false → c.aadLen = 0 →
    c.dataLen.toNat + chunks.flatten.length ≤ maxDataBytes → 4 ≤ tagLen.toNat → tagLen.toNat ≤ 16 →
    ∃ t t' rs,
      execAll (updates chunks ++ [.finish tagLen]) s = some (t, rs) ∧
      execAll (.updateAd 0 none :: (updates chunks ++ [.finish tagLen])) s = some (t', okOnly :: rs) ∧
      ∀ r ∈ rs, r.status = .ok

/-- R238: if an encrypting message maps P to (C, TAG), the decrypting message on C, in any chunks, gives P and the same TAG. -/
def Obligations.DecryptInvertsEncrypt : Prop :=
  ∀ (s : State) (c : Context) (iv : List Byte) (aad : Option (List Byte)) (chunks chunks' : List (List Byte))
    (tagLen : BitVec 32),
    s.current = some c → c.msgState ≠ .init → 1 ≤ iv.length → iv.length < ivLimit → (aad.getD []).length < aadLimit →
    chunks.flatten.length ≤ maxDataBytes → 4 ≤ tagLen.toNat → tagLen.toNat ≤ 16 →
    ∃ t rs, execAll (message .encrypt iv aad chunks tagLen) s = some (t, rs) ∧
      (chunks'.flatten = (rs.map (·.out)).flatten →
        ∃ t' rs', execAll (message .decrypt iv aad chunks' tagLen) s = some (t', rs') ∧
          (rs'.map (·.out)).flatten = chunks.flatten ∧
          (rs'.map (·.tag)).flatten = (rs.map (·.tag)).flatten)

/-! ## One-shot commands -/

/-- R250: CRYPT_AND_TAG with buffers that meet the host's duty (R81), every check and the whole effect, in closed form. -/
def Obligations.CryptAndTagRule : Prop :=
  ∀ (s : State) (c : Context) (m : Mode) (ivLen aadLen len : BitVec 64) (tagLen : BitVec 32), s.current = some c →
    (c.msgState = .init → ∀ iv aad input, (Instr.cryptAndTag m ivLen iv aadLen aad len input tagLen).wf = true →
      exec (.cryptAndTag m ivLen iv aadLen aad len input tagLen) s =
        .next (s.respond c { status := .invalidState, out := [], tag := [] })) ∧
    (c.msgState ≠ .init →
      (∀ iv aad input,
        (iv = none ∨ ivLen.toNat = 0 ∨ 2 ^ 29 ≤ ivLen.toNat) ∨ (aad = none ∧ 0 < aadLen.toNat) ∨ 2 ^ 61 ≤ aadLen.toNat ∨
          (input = none ∧ 0 < len.toNat) ∨ 2 ^ 36 - 32 < len.toNat ∨ tagLen.toNat < 4 ∨ 16 < tagLen.toNat →
        (Instr.cryptAndTag m ivLen iv aadLen aad len input tagLen).wf = true →
        exec (.cryptAndTag m ivLen iv aadLen aad len input tagLen) s =
          .next (s.respond c { status := .badInput, out := [], tag := [] })) ∧
      (∀ (iv : List Byte) (aad input : Buffer) (a d : List Byte),
        iv.length = ivLen.toNat → 1 ≤ ivLen.toNat → ivLen.toNat < 2 ^ 29 →
        (aad = none ∧ a = [] ∨ aad = some a) → a.length = aadLen.toNat → aadLen.toNat < 2 ^ 61 →
        (input = none ∧ d = [] ∨ input = some d) → d.length = len.toNat → len.toNat ≤ 2 ^ 36 - 32 →
        4 ≤ tagLen.toNat → tagLen.toNat ≤ 16 →
        ∃ j0Orig ciphertext,
          j0Orig = deriveJ0 c.hh c.hl iv ∧ ciphertext = ciphertextOf m (keyInUse c) j0Orig d ∧
          exec (.cryptAndTag m ivLen (some iv) aadLen aad len input tagLen) s =
            .next (s.respond
              { c with
                mode := m, j0Orig := j0Orig, j0 := inc32Iter (1 + d.length / 16) j0Orig
                acc := finalHash c.hh c.hl a ciphertext, ghPend := 0
                aadLen := aadLen, dataLen := len, adDone := true
                ks := if d = [] then 0 else Config.blockCipher (keyInUse c) (inc32Iter (1 + (d.length - 1) / 16) j0Orig)
                ksOff := BitVec.ofNat 4 (d.length % 16), msgState := .finished }
              { status := .ok, out := crypted (keyInUse c) j0Orig d
                tag := messageTag (keyInUse c) c.hh c.hl j0Orig a ciphertext tagLen.toNat })))

/-- R251: a successful CRYPT_AND_TAG gives the OUT, the TAG and the registers of the sequence START, UPDATE_AD, UPDATE, FINISH with the
same operands; where it fails it writes nothing. -/
def Obligations.OneShotEqualsTheSequence : Prop :=
  ∀ (s t : State) (r : Response) (m : Mode) (ivLen : BitVec 64) (iv : Buffer) (aadLen : BitVec 64) (aad : Buffer)
    (len : BitVec 64) (input : Buffer) (tagLen : BitVec 32),
    exec (.cryptAndTag m ivLen iv aadLen aad len input tagLen) s = .next t → t.response = some r →
    (r.status = .ok →
      ∃ u r3 r4,
        execAll [.start m ivLen iv, .updateAd aadLen aad, .update len input, .finish tagLen] s =
          some (u, [okOnly, okOnly, r3, r4]) ∧
        r3.status = .ok ∧ r4.status = .ok ∧ r3.out = r.out ∧ r4.tag = r.tag ∧ u.contexts = t.contexts) ∧
    (r.status ≠ .ok → ∀ id, t.contextAt id = s.contextAt id)

/-- R255: AUTH_DECRYPT with buffers that meet the host's duty (R81), every check and the whole effect, in closed form: the registers of CRYPT_AND_TAG.DEC in both outcomes, the plaintext
where TAG is the computed tag, and LEN zero bytes with AUTHENTICATION_FAILED where it is not. -/
def Obligations.AuthDecryptRule : Prop :=
  ∀ (s : State) (c : Context) (ivLen aadLen len : BitVec 64) (tagLen : BitVec 32), s.current = some c →
    (c.msgState = .init → ∀ iv aad input tag, (Instr.authDecrypt ivLen iv aadLen aad len input tagLen tag).wf = true →
      exec (.authDecrypt ivLen iv aadLen aad len input tagLen tag) s =
        .next (s.respond c { status := .invalidState, out := [], tag := [] })) ∧
    (c.msgState ≠ .init →
      (∀ iv aad input tag,
        (iv = none ∨ ivLen.toNat = 0 ∨ 2 ^ 29 ≤ ivLen.toNat) ∨ (aad = none ∧ 0 < aadLen.toNat) ∨ 2 ^ 61 ≤ aadLen.toNat ∨
          (input = none ∧ 0 < len.toNat) ∨ 2 ^ 36 - 32 < len.toNat ∨ tagLen.toNat < 4 ∨ 16 < tagLen.toNat ∨ tag = none →
        (Instr.authDecrypt ivLen iv aadLen aad len input tagLen tag).wf = true →
        exec (.authDecrypt ivLen iv aadLen aad len input tagLen tag) s =
          .next (s.respond c { status := .badInput, out := [], tag := [] })) ∧
      (∀ (iv : List Byte) (aad input : Buffer) (a d tag : List Byte),
        iv.length = ivLen.toNat → 1 ≤ ivLen.toNat → ivLen.toNat < 2 ^ 29 →
        (aad = none ∧ a = [] ∨ aad = some a) → a.length = aadLen.toNat → aadLen.toNat < 2 ^ 61 →
        (input = none ∧ d = [] ∨ input = some d) → d.length = len.toNat → len.toNat ≤ 2 ^ 36 - 32 →
        4 ≤ tagLen.toNat → tagLen.toNat ≤ 16 → tag.length = tagLen.toNat →
        ∃ j0Orig done check,
          j0Orig = deriveJ0 c.hh c.hl iv ∧
          check = messageTag (keyInUse c) c.hh c.hl j0Orig a d tagLen.toNat ∧
          done =
            { c with
              mode := .decrypt, j0Orig := j0Orig, j0 := inc32Iter (1 + d.length / 16) j0Orig
              acc := finalHash c.hh c.hl a d, ghPend := 0
              aadLen := aadLen, dataLen := len, adDone := true
              ks := if d = [] then 0 else Config.blockCipher (keyInUse c) (inc32Iter (1 + (d.length - 1) / 16) j0Orig)
              ksOff := BitVec.ofNat 4 (d.length % 16), msgState := .finished } ∧
          (tag = check →
            exec (.authDecrypt ivLen (some iv) aadLen aad len input tagLen (some tag)) s =
              .next (s.respond done { status := .ok, out := crypted (keyInUse c) j0Orig d, tag := [] })) ∧
          (tag ≠ check →
            exec (.authDecrypt ivLen (some iv) aadLen aad len input tagLen (some tag)) s =
              .next (s.respond done { status := .authenticationFailed, out := List.replicate len.toNat 0, tag := [] }))))

/-- R256: TAG_COMPARE completes on t from 4 to 16 and on operands of at least t bytes, writes no register, and is true exactly where the
first t bytes agree. -/
def Obligations.TagCompareIsEqualityOfPrefixes : Prop :=
  ∀ (s : State) (c : Context) (check tag : List Byte) (t : BitVec 32), s.current = some c →
    4 ≤ t.toNat → t.toNat ≤ 16 → t.toNat ≤ check.length → t.toNat ≤ tag.length →
    ∃ b, exec (.tagCompare check tag t) s = .next (s.deliver c (.truth b)) ∧
      (b = true ↔ check.take t.toNat = tag.take t.toNat)

/-- R257: where AUTH_DECRYPT ends with AUTHENTICATION_FAILED, its response is the same whatever the ciphertext, the key and the registers:
LEN zero bytes and no tag. -/
def Obligations.MismatchShowsNoPlaintext : Prop :=
  ∀ (s t : State) (r : Response) (ivLen : BitVec 64) (iv : Buffer) (aadLen : BitVec 64) (aad : Buffer)
    (len : BitVec 64) (input : Buffer) (tagLen : BitVec 32) (tag : Buffer),
    exec (.authDecrypt ivLen iv aadLen aad len input tagLen tag) s = .next t → t.response = some r →
    r.status = .authenticationFailed → r.out = List.replicate len.toNat 0 ∧ r.tag = []

/-- R258: the round trip. -/
def Obligations.AuthDecryptUndoesCryptAndTag : Prop :=
  ∀ (s : State) (c : Context) (ivLen : BitVec 64) (iv : List Byte) (aadLen : BitVec 64) (aad : List Byte)
    (len : BitVec 64) (p : List Byte) (tagLen : BitVec 32),
    s.current = some c → c.msgState ≠ .init → iv.length = ivLen.toNat → 1 ≤ ivLen.toNat → ivLen.toNat < 2 ^ 29 →
    aad.length = aadLen.toNat → aadLen.toNat < 2 ^ 61 → p.length = len.toNat → len.toNat ≤ 2 ^ 36 - 32 →
    4 ≤ tagLen.toNat → tagLen.toNat ≤ 16 →
    ∃ t out tag u,
      exec (.cryptAndTag .encrypt ivLen (some iv) aadLen (some aad) len (some p) tagLen) s = .next t ∧
      t.response = some { status := .ok, out := out, tag := tag } ∧
      exec (.authDecrypt ivLen (some iv) aadLen (some aad) len (some out) tagLen (some tag)) t = .next u ∧
      u.response = some { status := .ok, out := p, tag := [] }

/-- R259 (a), (c): a tag of the right length that is not the one CRYPT_AND_TAG gave, by a flip of any of its bits or otherwise, gives
AUTHENTICATION_FAILED and LEN zero bytes. -/
def Obligations.ChangedTagIsDetected : Prop :=
  ∀ (s t : State) (m : Mode) (out tag tag' : List Byte) (ivLen : BitVec 64) (iv : Buffer) (aadLen : BitVec 64) (aad : Buffer)
    (len : BitVec 64) (input : Buffer) (tagLen : BitVec 32) (c : List Byte),
    exec (.cryptAndTag m ivLen iv aadLen aad len input tagLen) s = .next t →
    t.response = some { status := .ok, out := out, tag := tag } →
    (m = .encrypt ∧ c = out ∨ m = .decrypt ∧ c = bufferBytes input) → tag'.length = tag.length → tag' ≠ tag →
    ∃ u, exec (.authDecrypt ivLen iv aadLen aad len (some c) tagLen (some tag')) t = .next u ∧
      u.response = some { status := .authenticationFailed, out := List.replicate len.toNat 0, tag := [] }

/-- R259 (b), for the ciphertext: from a context whose tables are those of H, changing byte `i` of the ciphertext by `e` is detected
exactly where (blk(e at i mod 16) • H^k)[0..TAG_LEN) is not zero, k being the position of the changed block counted from the length block. -/
def Obligations.ChangedCiphertextIsDetected : Prop :=
  ∀ (s : State) (c : Context) (h : Block) (ivLen : BitVec 64) (iv : List Byte) (aadLen : BitVec 64) (aad : List Byte)
    (len : BitVec 64) (d tag : List Byte) (tagLen : BitVec 32) (i : Nat) (e : Byte),
    s.current = some c → c.msgState ≠ .init → (c.hh, c.hl) = buildTables h →
    iv.length = ivLen.toNat → 1 ≤ ivLen.toNat → ivLen.toNat < 2 ^ 29 →
    aad.length = aadLen.toNat → aadLen.toNat < 2 ^ 61 → d.length = len.toNat → len.toNat ≤ 2 ^ 36 - 32 →
    4 ≤ tagLen.toNat → tagLen.toNat ≤ 16 → i < d.length →
    tag = messageTag (keyInUse c) c.hh c.hl (deriveJ0 c.hh c.hl iv) aad d tagLen.toNat →
    ∃ t r k,
      k = (d.length + 15) / 16 - i / 16 + 1 ∧
      exec (.authDecrypt ivLen (some iv) aadLen (some aad) len (some (d.set i (d.getD i 0 ^^^ e))) tagLen (some tag)) s = .next t ∧
      t.response = some r ∧
      (r.status = .authenticationFailed ↔
        (blockBytes ((fun z => gfMulRef z h)^[k] (byteAt (i % 16) e))).take tagLen.toNat ≠ zeroBytes tagLen.toNat) ∧
      (r.status = .authenticationFailed ∨ r.status = .ok)

/-- R259 (b), for the associated data. -/
def Obligations.ChangedAadIsDetected : Prop :=
  ∀ (s : State) (c : Context) (h : Block) (ivLen : BitVec 64) (iv : List Byte) (aadLen : BitVec 64) (aad : List Byte)
    (len : BitVec 64) (d tag : List Byte) (tagLen : BitVec 32) (i : Nat) (e : Byte),
    s.current = some c → c.msgState ≠ .init → (c.hh, c.hl) = buildTables h →
    iv.length = ivLen.toNat → 1 ≤ ivLen.toNat → ivLen.toNat < 2 ^ 29 →
    aad.length = aadLen.toNat → aadLen.toNat < 2 ^ 61 → d.length = len.toNat → len.toNat ≤ 2 ^ 36 - 32 →
    4 ≤ tagLen.toNat → tagLen.toNat ≤ 16 → i < aad.length →
    tag = messageTag (keyInUse c) c.hh c.hl (deriveJ0 c.hh c.hl iv) aad d tagLen.toNat →
    ∃ t r k,
      k = (aad.length + 15) / 16 - i / 16 + (d.length + 15) / 16 + 1 ∧
      exec (.authDecrypt ivLen (some iv) aadLen (some (aad.set i (aad.getD i 0 ^^^ e))) len (some d) tagLen (some tag)) s = .next t ∧
      t.response = some r ∧
      (r.status = .authenticationFailed ↔
        (blockBytes ((fun z => gfMulRef z h)^[k] (byteAt (i % 16) e))).take tagLen.toNat ≠ zeroBytes tagLen.toNat) ∧
      (r.status = .authenticationFailed ∨ r.status = .ok)

/-- R259 (b), for TAG_LEN = 16: one changed bit changes all of the tag block exactly where H is not zero. -/
def Obligations.OneBitTimesPowersOfHVanishesOnlyForZeroH : Prop :=
  ∀ (h : Block) (j k : Nat), j < 128 → 2 ≤ k →
    ((fun z => gfMulRef z h)^[k] (BitVec.ofNat 128 (2 ^ j)) ≠ 0 ↔ h ≠ 0)

/-- R252: after SET_KEY, after FINISH or after a one-shot, no later response depends on the registers of the message: contexts that agree
on STATE, KEY, KEY_BITS, KEY_VALID, HH and HL, outside a message, answer every sequence of commands alike. -/
def Obligations.MessageRegistersAreNotObservableBetweenMessages : Prop :=
  ∀ (is : List Instr) (s s' t : State) (c c' : Context) (rs : List Response),
    (∀ i ∈ is, i.isCommand = true) → s.current = some c → s'.current = some c' → c.SameBetweenMessages c' →
    c.msgState ≠ .started → c.msgState ≠ .updating → execAll is s = some (t, rs) →
    ∃ t', execAll is s' = some (t', rs)
end

