-- ==== Sys2Proof/Laws/Bytes.lean ====
section
/-! SUPPORT. Blocks and their bytes: reading a byte of a packed sequence, and equality byte by byte. -/

namespace Sys2Proof.Machine

theorem blockByte_getLsbD (b : Block) (i k : Nat) :
    (blockByte b i).getLsbD k = (decide (k < 8) && b.getLsbD (8 * (15 - i) + k)) := by
  simp [blockByte]

theorem byteAt_getLsbD (i : Nat) (c : Byte) (k : Nat) :
    (byteAt i c).getLsbD k = (decide (8 * (15 - i) ≤ k) && c.getLsbD (k - 8 * (15 - i)) && decide (k < 128)) := by
  simp only [byteAt, BitVec.getLsbD_shiftLeft, BitVec.getLsbD_setWidth]
  by_cases h : k < 8 * (15 - i)
  · simp [h, show ¬ (8 * (15 - i) ≤ k) by omega]
  · by_cases h2 : k < 128
    · simp [h, h2, show (8 * (15 - i) ≤ k) by omega, show k - 8 * (15 - i) < 128 by omega]
    · simp [h2]

@[simp] theorem blockByte_zero (i : Nat) : blockByte 0 i = 0 := by simp [blockByte]

@[simp] theorem blockByte_xor (a b : Block) (i : Nat) : blockByte (a ^^^ b) i = blockByte a i ^^^ blockByte b i := by
  simp [blockByte, BitVec.extractLsb'_xor]

theorem byteAt_xor (i : Nat) (a b : Byte) : byteAt i (a ^^^ b) = byteAt i a ^^^ byteAt i b := by
  simp [byteAt, BitVec.setWidth_xor, BitVec.shiftLeft_xor_distrib]

/-- A byte of a Block that is zero but for one byte. -/
theorem blockByte_byteAt {i j : Nat} (hi : i < 16) (hj : j < 16) (c : Byte) :
    blockByte (byteAt j c) i = if i = j then c else 0 := by
  apply BitVec.eq_of_getLsbD_eq
  intro k hk
  rw [blockByte_getLsbD, byteAt_getLsbD]
  by_cases h : i = j
  · subst h; simp [hk]; omega
  · by_cases hlt : i < j
    · have : c.getLsbD (8 * (15 - i) + k - 8 * (15 - j)) = false := BitVec.getLsbD_of_ge _ _ (by omega)
      simp [h, this]
    · have : ¬ (8 * (15 - j) ≤ 8 * (15 - i) + k) := by omega
      simp [h, this]

theorem packFrom_append (i : Nat) (l l' : List Byte) :
    packFrom i (l ++ l') = packFrom i l ^^^ packFrom (i + l.length) l' := by
  induction l generalizing i with
  | nil => simp [packFrom]
  | cons c l ih => simp [packFrom, ih, BitVec.xor_assoc, show i + 1 + l.length = i + (l.length + 1) by omega]

theorem blockByte_packFrom {i j : Nat} {l : List Byte} (hi : i < 16) (h : j + l.length ≤ 16) :
    blockByte (packFrom j l) i = if j ≤ i then l.getD (i - j) 0 else 0 := by
  induction l generalizing j with
  | nil => simp [packFrom, blockByte]
  | cons c l ih =>
    simp only [List.length_cons] at h
    rw [packFrom, blockByte_xor, blockByte_byteAt hi (by omega), ih (by omega)]
    by_cases h1 : i = j
    · subst h1; simp
    · by_cases h2 : j ≤ i
      · have : i - j = (i - (j+1)) + 1 := by omega
        simp [h1, h2, show j+1 ≤ i by omega, this]
      · simp [h1, h2, show ¬ (j+1 ≤ i) by omega]

/-- A byte of a Block built from at most 16 bytes. -/
theorem blockByte_blockOfBytes {i : Nat} {l : List Byte} (hi : i < 16) (h : l.length ≤ 16) :
    blockByte (blockOfBytes l) i = l.getD i 0 := by
  rw [blockOfBytes, blockByte_packFrom hi (by omega)]; simp

/-- Blocks with the same 16 bytes are the same. -/
theorem block_ext {a b : Block} (h : ∀ i, i < 16 → blockByte a i = blockByte b i) : a = b := by
  apply BitVec.eq_of_getLsbD_eq
  intro k hk
  have := congrArg (fun v => v.getLsbD (k % 8)) (h (15 - k / 8) (by omega))
  simp only [blockByte_getLsbD] at this
  rw [show 8 * (15 - (15 - k / 8)) + k % 8 = k by omega] at this
  simpa [Nat.mod_lt] using this

@[simp] theorem blockBytes_length (b : Block) : (blockBytes b).length = 16 := by simp [blockBytes]

theorem blockBytes_getD (b : Block) {i : Nat} (h : i < 16) : (blockBytes b).getD i 0 = blockByte b i := by
  simp [blockBytes, List.getD_eq_getElem?_getD, h]

theorem be64_length (v : BitVec 64) : (be64 v).length = 8 := by simp [be64]
theorem be32_length (v : BitVec 32) : (be32 v).length = 4 := by simp [be32]

theorem be64_getD (v : BitVec 64) {i : Nat} (h : i < 8) : (be64 v).getD i 0 = v.extractLsb' (8 * (7 - i)) 8 := by
  simp [be64, List.getD_eq_getElem?_getD, h]

@[simp] theorem lengthBlock_length (a b : Nat) : (lengthBlock a b).length = 16 := by simp [lengthBlock, be64_length]

/-- A length block as a Block: the two lengths in bits, side by side. -/
theorem blockOfBytes_lengthBlock (a b : Nat) :
    blockOfBytes (lengthBlock a b) = BitVec.ofNat 64 (a * 8) ++ BitVec.ofNat 64 (b * 8) := by
  apply block_ext
  intro i hi
  rw [blockByte_blockOfBytes hi (by simp), lengthBlock]
  apply BitVec.eq_of_getLsbD_eq
  intro k hk
  rw [blockByte_getLsbD, BitVec.getLsbD_append]
  by_cases h : i < 8
  · rw [List.getD_append _ _ _ _ (by simpa [be64_length] using h), be64_getD _ h, BitVec.getLsbD_extractLsb']
    rw [show 8 * (15 - i) + k - 64 = 8 * (7 - i) + k by omega]
    simp only [show ¬ (8 * (15 - i) + k < 64) by omega, hk]
    rfl
  · rw [List.getD_append_right _ _ _ _ (by simp [be64_length]; omega), be64_length, be64_getD _ (by omega),
      BitVec.getLsbD_extractLsb', show 8 * (7 - (i - 8)) + k = 8 * (15 - i) + k by omega]
    simp only [show 8 * (15 - i) + k < 64 by omega, hk]
    rfl

end Sys2Proof.Machine
end

