-- ==== Sys2Proof/Laws/Counter.lean ====
section
/-! SUPPORT. The counter and the keystream: what CTR_CRYPT leaves alone, its length, and one chunk after another. -/

namespace Sys2Proof.Machine

/-! ## INC32 -/

/-- All that INC32 does to the integer of a Block. -/
theorem inc32_toNat (b : Block) : (inc32 b).toNat = b.toNat / 2 ^ 32 * 2 ^ 32 + (b.toNat % 2 ^ 32 + 1) % 2 ^ 32 := by
  have hb := b.isLt
  unfold inc32
  rw [BitVec.toNat_append]
  have h1 : (b.extractLsb' 32 96).toNat = b.toNat / 2 ^ 32 := by
    rw [BitVec.extractLsb'_toNat, Nat.shiftRight_eq_div_pow, Nat.mod_eq_of_lt]
    rw [Nat.div_lt_iff_lt_mul (by norm_num)]; exact hb
  have h2 : (b.extractLsb' 0 32 + 1#32).toNat = (b.toNat % 2 ^ 32 + 1) % 2 ^ 32 := by
    rw [BitVec.toNat_add, BitVec.extractLsb'_toNat]; rfl
  rw [h1, h2, ← Nat.shiftLeft_add_eq_or_of_lt (Nat.mod_lt _ (by norm_num)), Nat.shiftLeft_eq]

/-! ## CTR_CRYPT -/

/-- CTR_CRYPT of one byte writes J0, KS and KS_OFF alone. -/
theorem ctrByte_frame (c : Context) (d : Byte) :
    ∃ j ks off, (ctrByte c d).1 = { c with j0 := j, ks := ks, ksOff := off } := by
  unfold ctrByte
  dsimp only
  split
  · exact ⟨_, _, _, rfl⟩
  · exact ⟨c.j0, _, _, rfl⟩

/-- CTR_CRYPT writes J0, KS and KS_OFF alone. -/
theorem ctrCrypt_frame (d : List Byte) (c : Context) :
    ∃ j ks off, (ctrCrypt d c).1 = { c with j0 := j, ks := ks, ksOff := off } := by
  induction d generalizing c with
  | nil => exact ⟨c.j0, c.ks, c.ksOff, rfl⟩
  | cons b d ih =>
    obtain ⟨j, k, o, h⟩ := ctrByte_frame c b
    obtain ⟨j', k', o', h'⟩ := ih (ctrByte c b).1
    refine ⟨j', k', o', ?_⟩
    show (ctrCrypt d (ctrByte c b).1).1 = _
    rw [h', h]

@[simp] theorem ctrCrypt_length (d : List Byte) (c : Context) : (ctrCrypt d c).2.length = d.length := by
  induction d generalizing c with
  | nil => rfl
  | cons b d ih => simp [ctrCrypt, ih]

/-- One chunk after another is both at once. -/
theorem ctrCrypt_append (d e : List Byte) (c : Context) :
    ctrCrypt (d ++ e) c = ((ctrCrypt e (ctrCrypt d c).1).1, (ctrCrypt d c).2 ++ (ctrCrypt e (ctrCrypt d c).1).2) := by
  induction d generalizing c with
  | nil => rfl
  | cons b d ih => simp only [List.cons_append, ctrCrypt, ih]

theorem ctrCrypt_keyInUse (d : List Byte) (c : Context) : keyInUse (ctrCrypt d c).1 = keyInUse c := by
  obtain ⟨j, k, o, h⟩ := ctrCrypt_frame d c
  rw [h]; rfl

end Sys2Proof.Machine
end

