-- ==== Sys2Proof/Laws/Galois.lean ====
section
/-! SUPPORT. The field and the tables: MULX is linear, the reference product is a sum of its iterates, a Block is a sum of powers of
x, the tables hold the nibble multiples, and one STEP is four MULX and one table entry. -/

namespace Sys2Proof.Machine

/-! ## Sums -/

/-- `b • v` for a bit `b`. -/
def bitTimes (b : Bool) (v : Block) : Block := if b then v else 0

@[simp] theorem bitTimes_true (v : Block) : bitTimes true v = v := rfl
@[simp] theorem bitTimes_false (v : Block) : bitTimes false v = 0 := rfl

theorem bitTimes_xor_bit (a b : Bool) (v : Block) : bitTimes (a ^^ b) v = bitTimes a v ^^^ bitTimes b v := by
  cases a <;> cases b <;> simp

theorem bitTimes_xor (a : Bool) (u v : Block) : bitTimes a (u ^^^ v) = bitTimes a u ^^^ bitTimes a v := by
  cases a <;> simp

theorem xor_xor_comm4 (a b c d : Block) : (a ^^^ b) ^^^ (c ^^^ d) = (a ^^^ c) ^^^ (b ^^^ d) := by
  rw [BitVec.xor_assoc, ← BitVec.xor_assoc b, BitVec.xor_comm b c, BitVec.xor_assoc c, BitVec.xor_assoc]

/-! ## MULX -/

/-- The reduction constant at the top of a Block. -/
def reductionBlock : Block := reductionConstant.setWidth 128 <<< 64

theorem mulx_getLsbD (v : Block) (i : Nat) :
    (mulx v).getLsbD i = (v.getLsbD (i + 1) ^^ (v.getLsbD 0 && reductionBlock.getLsbD i)) := by
  unfold mulx
  rw [show (reductionConstant.setWidth 128 <<< 64 : Block) = reductionBlock from rfl]
  cases h : v.getLsbD 0 <;> simp [Nat.add_comm]

theorem mulx_xor (a b : Block) : mulx (a ^^^ b) = mulx a ^^^ mulx b := by
  apply BitVec.eq_of_getLsbD_eq
  intro i hi
  simp only [mulx_getLsbD, BitVec.getLsbD_xor]
  cases a.getLsbD (i + 1) <;> cases b.getLsbD (i + 1) <;> cases a.getLsbD 0 <;> cases b.getLsbD 0 <;>
    cases reductionBlock.getLsbD i <;> rfl

@[simp] theorem mulx_zero : mulx 0 = 0 := by decide

theorem mulx_of_even {v : Block} (h : v.getLsbD 0 = false) : mulx v = v >>> 1 := by
  unfold mulx; rw [h]; rfl

/-- Multiplication by x^n. -/
def mulxIter (n : Nat) (v : Block) : Block := mulx^[n] v

@[simp] theorem mulxIter_zero_left (v : Block) : mulxIter 0 v = v := rfl

theorem mulxIter_succ (n : Nat) (v : Block) : mulxIter (n + 1) v = mulx (mulxIter n v) :=
  Function.iterate_succ_apply' _ _ _

theorem mulxIter_add (a b : Nat) (v : Block) : mulxIter (a + b) v = mulxIter a (mulxIter b v) := by
  simp [mulxIter, Function.iterate_add]

theorem mulxIter_xor (n : Nat) (a b : Block) : mulxIter n (a ^^^ b) = mulxIter n a ^^^ mulxIter n b := by
  induction n with
  | zero => rfl
  | succ n ih => rw [mulxIter_succ, ih, mulx_xor, mulxIter_succ, mulxIter_succ]

@[simp] theorem mulxIter_zero (n : Nat) : mulxIter n 0 = 0 := by
  induction n with
  | zero => rfl
  | succ n ih => rw [mulxIter_succ, ih, mulx_zero]

theorem mulxIter_bitTimes (n : Nat) (b : Bool) (v : Block) : mulxIter n (bitTimes b v) = bitTimes b (mulxIter n v) := by
  cases b
  · exact mulxIter_zero n
  · rfl

/-! ## The reference product as a sum -/

/-- The sum of the first `n` terms of the reference product: bit `127 - i` of `x` times `y • x^i`. -/
def productSum (x y : Block) : Nat → Block
  | 0 => 0
  | n + 1 => productSum x y n ^^^ bitTimes (x.getLsbD (127 - n)) (mulxIter n y)

theorem mulRefTurn_foldl (x y : Block) (n : Nat) :
    (List.range n).foldl (mulRefTurn x) (0, y) = (productSum x y n, mulxIter n y) := by
  induction n with
  | zero => rfl
  | succ n ih =>
    rw [List.range_succ, List.foldl_append, ih]
    simp only [List.foldl_cons, List.foldl_nil, mulRefTurn, productSum, mulxIter_succ, bitTimes]
    cases x.getLsbD (127 - n) <;> simp

/-- All that GF_MUL_REF does. -/
theorem gfMulRef_eq_sum (x y : Block) : gfMulRef x y = productSum x y 128 := by rw [gfMulRef, mulRefTurn_foldl]

theorem productSum_xor_right (x y z : Block) (n : Nat) :
    productSum x (y ^^^ z) n = productSum x y n ^^^ productSum x z n := by
  induction n with
  | zero => simp [productSum]
  | succ n ih => simp only [productSum, ih, mulxIter_xor, bitTimes_xor]; rw [xor_xor_comm4]

theorem productSum_xor_left (x y z : Block) (n : Nat) :
    productSum (x ^^^ y) z n = productSum x z n ^^^ productSum y z n := by
  induction n with
  | zero => simp [productSum]
  | succ n ih => simp only [productSum, ih, BitVec.getLsbD_xor, bitTimes_xor_bit]; rw [xor_xor_comm4]

theorem productSum_mulx (x y : Block) (n : Nat) : productSum x (mulx y) n = mulx (productSum x y n) := by
  induction n with
  | zero => exact mulx_zero.symm
  | succ n ih =>
    have h : mulx (bitTimes (x.getLsbD (127 - n)) (mulxIter n y)) = bitTimes (x.getLsbD (127 - n)) (mulxIter n (mulx y)) := by
      have := mulxIter_bitTimes 1 (x.getLsbD (127 - n)) (mulxIter n y)
      rw [← mulxIter_add, Nat.add_comm, mulxIter_add] at this
      exact this
    simp only [productSum, ih, mulx_xor, h]

/-! ## Powers of x -/

/-- x^i as a Block (R11). -/
def xPow (i : Nat) : Block := BitVec.ofNat 128 (2 ^ (127 - i))

theorem xPow_getLsbD (i k : Nat) : (xPow i).getLsbD k = decide (k = 127 - i) := by
  simp only [xPow, BitVec.getLsbD_ofNat, Nat.testBit_two_pow]
  by_cases h : 127 - i = k
  · subst h; simp; omega
  · simp [h, Ne.symm h]

theorem productSum_xPow {i : Nat} (hi : i < 128) (y : Block) (n : Nat) (hn : n ≤ 128) :
    productSum (xPow i) y n = bitTimes (decide (i < n)) (mulxIter i y) := by
  induction n with
  | zero => rfl
  | succ n ih =>
    rw [productSum, ih (by omega), xPow_getLsbD]
    rcases Nat.lt_trichotomy i n with h | h | h
    · rw [decide_eq_true h, decide_eq_true (by omega : i < n + 1), decide_eq_false (by omega : ¬ 127 - n = 127 - i)]
      simp
    · subst h; simp
    · rw [decide_eq_false (by omega : ¬ i < n), decide_eq_false (by omega : ¬ i < n + 1),
        decide_eq_false (by omega : ¬ 127 - n = 127 - i)]
      simp

theorem mulx_xPow {i : Nat} (hi : i < 127) : mulx (xPow i) = xPow (i + 1) := by
  have h0 : (xPow i).getLsbD 0 = false := by rw [xPow_getLsbD]; simp; omega
  rw [mulx_of_even h0]
  apply BitVec.eq_of_getLsbD_eq
  intro k hk
  rw [BitVec.getLsbD_ushiftRight, xPow_getLsbD, xPow_getLsbD]
  simp; omega

theorem mulxIter_xPow {i : Nat} (hi : i < 128) : mulxIter i (xPow 0) = xPow i := by
  induction i with
  | zero => rfl
  | succ n ih => rw [mulxIter_succ, ih (by omega), mulx_xPow (by omega)]

/-- What holds of 0, of every power of x and of sums holds of every Block. -/
theorem block_induction {P : Block → Prop} (zero : P 0) (sum : ∀ a b, P a → P b → P (a ^^^ b))
    (power : ∀ i, i < 128 → P (xPow i)) : ∀ x, P x := by
  have key : ∀ n, n ≤ 128 → ∀ m, m < 2 ^ n → P (BitVec.ofNat 128 m) := by
    intro n
    induction n with
    | zero =>
      intro _ m hm
      have : m = 0 := by simpa using hm
      subst this; exact zero
    | succ n ih =>
      intro hn m hm
      by_cases hlt : m < 2 ^ n
      · exact ih (by omega) m hlt
      · have e : BitVec.ofNat 128 m = xPow (127 - n) ^^^ BitVec.ofNat 128 (m - 2 ^ n) := by
          apply BitVec.eq_of_getLsbD_eq
          intro k hk
          have hm2 : m = 2 ^ n + (m - 2 ^ n) := by omega
          have hlt2 : m - 2 ^ n < 2 ^ n := by rw [Nat.pow_succ] at hm; omega
          rw [BitVec.getLsbD_xor, xPow_getLsbD]
          simp only [BitVec.getLsbD_ofNat, hk, decide_true, Bool.true_and]
          conv_lhs => rw [hm2]
          by_cases hkn : k = n
          · subst hkn
            rw [Nat.testBit_two_pow_add_eq]
            simp [Nat.testBit_lt_two_pow hlt2]; omega
          · rw [show decide (k = 127 - (127 - n)) = false by simp; omega]
            simp only [Bool.false_xor]
            rcases Nat.lt_or_gt_of_ne hkn with h | h
            · rw [Nat.testBit_two_pow_add_gt h]
            · rw [← hm2, Nat.testBit_lt_two_pow (lt_of_lt_of_le hm (Nat.pow_le_pow_right (by norm_num) h)),
                Nat.testBit_lt_two_pow (lt_of_lt_of_le hlt2 (Nat.pow_le_pow_right (by norm_num) h.le))]
        rw [e]
        refine sum _ _ (power _ (by omega)) (ih (by omega) _ ?_)
        rw [Nat.pow_succ] at hm; omega
  intro x
  have := key 128 le_rfl x.toNat x.isLt
  simpa using this

/-! ## The tables -/

theorem append_halves (v : Block) : (v.extractLsb' 64 64 ++ v.extractLsb' 0 64 : BitVec (64 + 64)) = v := by
  apply BitVec.eq_of_getLsbD_eq
  intro k hk
  simp only [BitVec.getLsbD_append, BitVec.getLsbD_extractLsb']
  by_cases h : k < 64
  · simp [h]
  · simp [h, show k - 64 < 64 by omega, show 64 + (k - 64) = k by omega]

theorem append_xor (a b c d : Half) :
    ((a ^^^ b) ++ (c ^^^ d) : BitVec (64 + 64)) = (a ++ c : BitVec (64 + 64)) ^^^ (b ++ d : BitVec (64 + 64)) := by
  rw [BitVec.xor_append]

theorem reductionBlock_eq : reductionBlock = (reductionConstant ++ (0 : Half) : BitVec (64 + 64)) := by decide

/-- All that MULX on the halves does. -/
theorem mulxHalves_append (vh vl : Half) :
    ((mulxHalves (vh, vl)).1 ++ (mulxHalves (vh, vl)).2 : BitVec (64 + 64)) = mulx (vh ++ vl : BitVec (64 + 64)) := by
  apply BitVec.eq_of_getLsbD_eq
  intro k hk
  rw [mulx_getLsbD, reductionBlock_eq]
  simp only [BitVec.getLsbD_append, mulxHalves, BitVec.getLsbD_xor, BitVec.getLsbD_or, BitVec.getLsbD_shiftLeft,
    BitVec.getLsbD_ushiftRight]
  by_cases h : k < 64
  · by_cases h2 : k = 63
    · subst h2; simp
    · simp [h, show k + 1 < 64 by omega, show k < 63 by omega, Nat.add_comm]
  · have e : 1 + (k - 64) = k + 1 - 64 := by omega
    simp only [h, decide_false, show ¬ (k + 1 < 64) by omega, e, Nat.zero_lt_succ]
    cases h3 : vl.getLsbD 0 <;> simp

/-- `H • n` for a nibble `n`, its highest bit being the coefficient of x^0 (R132). -/
def nibbleMultiple (h : Block) (n : Nibble) : Block :=
  bitTimes (n.getLsbD 3) h ^^^ bitTimes (n.getLsbD 2) (mulxIter 1 h) ^^^ bitTimes (n.getLsbD 1) (mulxIter 2 h) ^^^
    bitTimes (n.getLsbD 0) (mulxIter 3 h)

theorem fillTable_get (t8 t4 t2 t1 : Half) : ∀ n : Nibble,
    (fillTable t8 t4 t2 t1)[n.toNat]'n.isLt =
      (if n.getLsbD 3 then t8 else 0) ^^^ (if n.getLsbD 2 then t4 else 0) ^^^ (if n.getLsbD 1 then t2 else 0) ^^^
        (if n.getLsbD 0 then t1 else 0) := by
  have h : ∀ m (hm : m < 16), (fillTable t8 t4 t2 t1)[m] =
      (if m.testBit 3 then t8 else 0) ^^^ (if m.testBit 2 then t4 else 0) ^^^
        (if m.testBit 1 then t2 else 0) ^^^ (if m.testBit 0 then t1 else 0) := by
    intro m hm
    interval_cases m <;> simp [fillTable, Nat.testBit, BitVec.xor_assoc]
  intro n
  exact h n.toNat n.isLt

theorem ite_append (b : Bool) (p q : Half) :
    ((if b then p else 0) ++ (if b then q else 0) : BitVec (64 + 64)) = bitTimes b (p ++ q : BitVec (64 + 64)) := by
  cases b
  · simp
  · simp

/-- All that BUILD_TABLES does: entry `n` is `H • n`. -/
theorem tableEntry_buildTables (h : Block) (n : Nibble) :
    tableEntry (buildTables h).1 (buildTables h).2 n = nibbleMultiple h n := by
  have h8 : ((h.extractLsb' 64 64, h.extractLsb' 0 64).1 ++ (h.extractLsb' 64 64, h.extractLsb' 0 64).2 : BitVec (64 + 64)) = h :=
    append_halves h
  unfold tableEntry buildTables nibbleMultiple
  generalize (h.extractLsb' 64 64, h.extractLsb' 0 64) = e8 at h8 ⊢
  have h4 : mulxIter 1 h = ((mulxHalves e8).1 ++ (mulxHalves e8).2 : BitVec (64 + 64)) := by
    rw [← h8]; exact (mulxHalves_append _ _).symm
  have h2 : mulxIter 2 h = ((mulxHalves (mulxHalves e8)).1 ++ (mulxHalves (mulxHalves e8)).2 : BitVec (64 + 64)) := by
    rw [mulxIter_succ, h4]; exact (mulxHalves_append _ _).symm
  have h1 : mulxIter 3 h =
      ((mulxHalves (mulxHalves (mulxHalves e8))).1 ++ (mulxHalves (mulxHalves (mulxHalves e8))).2 : BitVec (64 + 64)) := by
    rw [mulxIter_succ, h2]; exact (mulxHalves_append _ _).symm
  rw [h4, h2, h1, fillTable_get, fillTable_get, append_xor, append_xor, append_xor, ite_append, ite_append, ite_append,
    ite_append, h8]

/-! ## One STEP -/

theorem mulxIter_four_low : ∀ n : Nibble,
    mulxIter 4 (n.setWidth 128) = ((last4[n.toNat]'n.isLt).setWidth 64 <<< 48 ++ (0 : Half) : BitVec (64 + 64)) := by
  unfold mulxIter; decide +kernel

theorem mulxIter_four_high {v : Block} (h : ∀ k, k < 4 → v.getLsbD k = false) : mulxIter 4 v = v >>> 4 := by
  have e : mulxIter 4 v = mulx (mulx (mulx (mulx v))) := rfl
  have h1 : (v >>> 1).getLsbD 0 = false := by rw [BitVec.getLsbD_ushiftRight]; exact h 1 (by omega)
  have h2 : (v >>> 1 >>> 1).getLsbD 0 = false := by
    rw [BitVec.getLsbD_ushiftRight, BitVec.getLsbD_ushiftRight]; exact h 2 (by omega)
  have h3 : (v >>> 1 >>> 1 >>> 1).getLsbD 0 = false := by
    rw [BitVec.getLsbD_ushiftRight, BitVec.getLsbD_ushiftRight, BitVec.getLsbD_ushiftRight]; exact h 3 (by omega)
  rw [e, mulx_of_even (h 0 (by omega)), mulx_of_even h1, mulx_of_even h2, mulx_of_even h3]
  rw [← BitVec.shiftRight_add, ← BitVec.shiftRight_add, ← BitVec.shiftRight_add]

theorem block_split_low (v : Block) : v = ((v >>> 4) <<< 4) ^^^ (v.setWidth 4 : Nibble).setWidth 128 := by
  apply BitVec.eq_of_getLsbD_eq
  intro k hk
  simp only [BitVec.getLsbD_xor, BitVec.getLsbD_shiftLeft, BitVec.getLsbD_ushiftRight, BitVec.getLsbD_setWidth, hk]
  by_cases h : k < 4
  · simp [h]
  · simp [h, show 4 + (k - 4) = k by omega]

theorem mulxIter_four (v : Block) :
    mulxIter 4 v = (v >>> 4) ^^^
      ((last4[(v.setWidth 4 : Nibble).toNat]'(v.setWidth 4 : Nibble).isLt).setWidth 64 <<< 48 ++ (0 : Half) : BitVec (64 + 64)) := by
  conv_lhs => rw [block_split_low v]
  rw [mulxIter_xor, mulxIter_four_low, mulxIter_four_high (fun k hk => by simp [hk])]
  congr 1
  apply BitVec.eq_of_getLsbD_eq
  intro k hk
  simp only [BitVec.getLsbD_shiftLeft, BitVec.getLsbD_ushiftRight]
  by_cases h : 4 + k < 128
  · simp [h]
  · simp [h, BitVec.getLsbD_of_ge v (4 + k) (by omega)]

theorem append_shiftRight_four (zh zl : Half) :
    ((zh ++ zl : BitVec (64 + 64)) >>> 4) = ((zh >>> 4) ++ ((zh <<< 60) ||| (zl >>> 4)) : BitVec (64 + 64)) := by
  apply BitVec.eq_of_getLsbD_eq
  intro k hk
  simp only [BitVec.getLsbD_ushiftRight, BitVec.getLsbD_append, BitVec.getLsbD_or, BitVec.getLsbD_shiftLeft]
  by_cases h : k < 64
  · by_cases h2 : k < 60
    · simp [h, h2, show 4 + k < 64 by omega]
    · simp [h, h2, show ¬ (4 + k < 64) by omega, show 4 + k - 64 = k - 60 by omega,
        BitVec.getLsbD_of_ge zl (4 + k) (by omega)]
  · simp [h, show ¬ (4 + k < 64) by omega, show 4 + k - 64 = 4 + (k - 64) by omega]

theorem append_low_nibble (zh zl : Half) : ((zh ++ zl : BitVec (64 + 64)).setWidth 4 : Nibble) = zl.setWidth 4 := by
  apply BitVec.eq_of_getLsbD_eq
  intro k hk
  rw [BitVec.getLsbD_setWidth, BitVec.getLsbD_setWidth, BitVec.getLsbD_append]
  simp [show k < 64 by omega]

/-- All that STEP does: `Z • x^4 ^ T[n]` (R134). -/
theorem gfStep_append (hh hl : Vector Half 16) (z : Half × Half) (n : Nibble) :
    ((gfStep hh hl z n).1 ++ (gfStep hh hl z n).2 : BitVec (64 + 64)) =
      mulxIter 4 (z.1 ++ z.2 : BitVec (64 + 64)) ^^^ tableEntry hh hl n := by
  obtain ⟨zh, zl⟩ := z
  have h4 := mulxIter_four (zh ++ zl : BitVec (64 + 64))
  simp only [append_low_nibble, append_shiftRight_four] at h4
  rw [h4]
  simp only [gfStep, tableEntry]
  rw [append_xor]
  congr 1
  rw [← append_xor, show ∀ v : Half, v ^^^ 0 = v from fun v => BitVec.xor_zero]

/-- Nibble `k` in GF_MULT's order is bits `4k + 3` to `4k`. -/
theorem nibbleInOrder_eq (x : Block) {k : Nat} (hk : k < 32) : nibbleInOrder x k = x.extractLsb' (4 * k) 4 := by
  unfold nibbleInOrder
  apply BitVec.eq_of_getLsbD_eq
  intro j hj
  split
  · simp only [BitVec.getLsbD_extractLsb', blockByte_getLsbD]
    simp [hj, show j < 8 by omega]
    rw [show 8 * (15 - (15 - k / 2)) + j = 4 * k + j by omega]
  · simp only [BitVec.getLsbD_extractLsb', blockByte_getLsbD]
    simp [hj, show 4 + j < 8 by omega]
    rw [show 8 * (15 - (15 - k / 2)) + (4 + j) = 4 * k + j by omega]

end Sys2Proof.Machine
end

