-- ==== Sys2Proof/Laws/Ghash.lean ====
section
/-! SUPPORT. GHASH: one block at a time, and the incremental form as a function of the two registers it writes. -/

namespace Sys2Proof.Machine

/-! ## GHASH_UPDATE -/

@[simp] theorem ghashUpdate_nil (hh hl : Vector Half 16) (a : Block) : ghashUpdate hh hl [] a = a := by
  simp [ghashUpdate, ghashBlocks]

/-- A complete block first. -/
theorem ghashUpdate_block (hh hl : Vector Half 16) {d : List Byte} (h : 16 ≤ d.length) (a : Block) :
    ghashUpdate hh hl d a = ghashUpdate hh hl (d.drop 16) (gfMult hh hl (a ^^^ blockOfBytes (d.take 16))) := by
  have h1 : d.length / 16 = (d.drop 16).length / 16 + 1 := by simp; omega
  have h2 : (d.drop 16).length % 16 = d.length % 16 := by simp; omega
  unfold ghashUpdate
  rw [h2, h1]
  generalize (d.drop 16).length / 16 = n
  have h3 : d.drop (16 * (n + 1)) = (d.drop 16).drop (16 * n) := by rw [List.drop_drop]; congr 1; omega
  dsimp only
  rw [h3]
  rfl

/-- A last partial block. -/
theorem ghashUpdate_partial (hh hl : Vector Half 16) {d : List Byte} (h0 : d ≠ []) (h : d.length < 16) (a : Block) :
    ghashUpdate hh hl d a = gfMult hh hl (a ^^^ blockOfBytes d) := by
  have h1 : d.length / 16 = 0 := by omega
  have h2 : d.length % 16 ≠ 0 := by have := List.length_pos_iff.mpr h0; omega
  simp [ghashUpdate, h1, h2, ghashBlocks]

/-- Exactly one block. -/
theorem ghashUpdate_one (hh hl : Vector Half 16) {d : List Byte} (h : d.length = 16) (a : Block) :
    ghashUpdate hh hl d a = gfMult hh hl (a ^^^ blockOfBytes d) := by
  rw [ghashUpdate_block _ _ (by omega), List.drop_of_length_le (by omega), List.take_of_length_le (by omega), ghashUpdate_nil]

/-! ## GHASH_ABSORB and GHASH_FLUSH -/

/-- GHASH_ABSORB on the pair of ACC and GH_PEND. -/
def absorbPair (hh hl : Vector Half 16) (p : Block × Nibble) (b : Byte) : Block × Nibble :=
  let acc := p.1 ^^^ byteAt p.2.toNat b
  if p.2 = 15 then (gfMult hh hl acc, 0) else (acc, p.2 + 1)

/-- All that GHASH_ABSORB writes. -/
theorem ghashAbsorb_eq (c : Context) (b : Byte) :
    ghashAbsorb c b =
      { c with acc := (absorbPair c.hh c.hl (c.acc, c.ghPend) b).1, ghPend := (absorbPair c.hh c.hl (c.acc, c.ghPend) b).2 } := by
  unfold ghashAbsorb absorbPair
  dsimp only
  split <;> rfl

/-- All that GHASH_ABSORB over a sequence writes. -/
theorem foldl_ghashAbsorb_eq (l : List Byte) (c : Context) :
    l.foldl ghashAbsorb c =
      { c with acc := (l.foldl (absorbPair c.hh c.hl) (c.acc, c.ghPend)).1
               ghPend := (l.foldl (absorbPair c.hh c.hl) (c.acc, c.ghPend)).2 } := by
  induction l generalizing c with
  | nil => rfl
  | cons b l ih => rw [List.foldl_cons, ih, ghashAbsorb_eq]; rfl

/-- Inside a block: the bytes go to their places. -/
theorem foldl_absorbPair_inside (hh hl : Vector Half 16) (l : List Byte) (a : Block) (p : Nibble) (h : p.toNat + l.length < 16) :
    l.foldl (absorbPair hh hl) (a, p) = (a ^^^ packFrom p.toNat l, p + BitVec.ofNat 4 l.length) := by
  induction l generalizing a p with
  | nil => simp [packFrom]
  | cons b l ih =>
    simp only [List.length_cons] at h
    have hp : p ≠ 15 := by rintro rfl; simp at h; omega
    have hp1 : (p + 1).toNat = p.toNat + 1 := by
      rw [BitVec.toNat_add]; simp; omega
    have e : absorbPair hh hl (a, p) b = (a ^^^ byteAt p.toNat b, p + 1) := by
      unfold absorbPair; rw [if_neg hp]
    rw [List.foldl_cons, e, ih _ _ (by omega), hp1, packFrom, BitVec.xor_assoc, List.length_cons, BitVec.add_assoc]
    congr 2
    rw [Nat.add_comm l.length 1, BitVec.ofNat_add]; rfl

/-- To the end of a block: the product is taken. -/
theorem foldl_absorbPair_block (hh hl : Vector Half 16) (l : List Byte) (a : Block) (p : Nibble) (h : p.toNat + l.length = 16) :
    l.foldl (absorbPair hh hl) (a, p) = (gfMult hh hl (a ^^^ packFrom p.toNat l), 0) := by
  have hne : l ≠ [] := by rintro rfl; have := p.isLt; simp at h; omega
  obtain ⟨l', b, rfl⟩ : ∃ l' b, l = l' ++ [b] := ⟨_, _, (List.dropLast_append_getLast hne).symm⟩
  simp only [List.length_append, List.length_singleton] at h
  rw [List.foldl_append, foldl_absorbPair_inside hh hl l' a p (by omega)]
  have hq : p + BitVec.ofNat 4 l'.length = 15 := by
    apply BitVec.eq_of_toNat_eq
    rw [BitVec.toNat_add, BitVec.toNat_ofNat]
    show _ = 15
    omega
  have h15 : p.toNat + l'.length = 15 := by omega
  rw [List.foldl_cons, List.foldl_nil, absorbPair, if_pos hq, hq, packFrom_append, h15, BitVec.xor_assoc]
  simp [packFrom]

/-- All that GHASH_FLUSH writes. -/
theorem ghashFlush_eq (c : Context) :
    ghashFlush c = { c with acc := if c.ghPend = 0 then c.acc else gfMult c.hh c.hl c.acc, ghPend := 0 } := by
  unfold ghashFlush
  split
  · rename_i h; cases c; simp_all
  · rfl

/-- The chunking law on the pair: absorbing `l` from an open block position 0, then closing the block. -/
theorem foldl_absorbPair_flush (hh hl : Vector Half 16) (l : List Byte) (a : Block) :
    (let q := l.foldl (absorbPair hh hl) (a, 0); if q.2 = 0 then q.1 else gfMult hh hl q.1) = ghashUpdate hh hl l a := by
  induction hn : l.length using Nat.strong_induction_on generalizing l a with
  | _ n ih =>
    by_cases hlt : l.length < 16
    · by_cases h0 : l = []
      · subst h0; simp
      · rw [ghashUpdate_partial _ _ h0 hlt, foldl_absorbPair_inside _ _ _ _ _ (by simpa using hlt)]
        have : (0 : Nibble) + BitVec.ofNat 4 l.length ≠ 0 := by
          intro h
          have := congrArg BitVec.toNat h
          have h1 := List.length_pos_iff.mpr h0
          rw [BitVec.toNat_add, BitVec.toNat_ofNat] at this
          change (0 + _) % 16 = 0 at this
          omega
        simp only [this, if_false]; rfl
    · have h16 : 16 ≤ l.length := by omega
      rw [ghashUpdate_block _ _ h16, ← ih _ (by simp; omega) (l.drop 16) _ rfl]
      conv_lhs => rw [← List.take_append_drop 16 l]
      rw [List.foldl_append, foldl_absorbPair_block hh hl (l.take 16) a 0 (by simp; omega)]
      rfl

end Sys2Proof.Machine
end

