-- ==== Sys2Proof/Laws/Keystream.lean ====
section
/-! SUPPORT. CTR_CRYPT in closed form, from any registers. -/

namespace Sys2Proof.Machine

theorem inc32Iter_succ (n : Nat) (b : Block) : inc32Iter (n + 1) b = inc32 (inc32Iter n b) := by
  induction n generalizing b with
  | zero => rfl
  | succ n ih =>
    show inc32Iter (n + 1) (inc32 b) = _
    rw [ih]; rfl

theorem inc32Iter_add (m n : Nat) (b : Block) : inc32Iter (m + n) b = inc32Iter m (inc32Iter n b) := by
  induction n generalizing b with
  | zero => rfl
  | succ n ih => exact ih (inc32 b)

/-- All that INC32 applied `n` times does to the integer of a Block. -/
theorem inc32Iter_toNat (n : Nat) (b : Block) :
    (inc32Iter n b).toNat = b.toNat / 2 ^ 32 * 2 ^ 32 + (b.toNat % 2 ^ 32 + n) % 2 ^ 32 := by
  induction n with
  | zero => simp [inc32Iter]; omega
  | succ n ih => rw [inc32Iter_succ, inc32_toNat, ih]; omega

/-- Keystream block `n` from here on: block 0 of an open block is KS, every other is the cipher of a counter. -/
def ctrStream (c : Context) (n : Nat) : Block :=
  if n = 0 ∧ c.ksOff ≠ 0 then c.ks else Config.blockCipher (keyInUse c) (inc32Iter n c.j0)

theorem ctrStream_open {c : Context} (h : c.ksOff ≠ 0) : ctrStream c 0 = c.ks := if_pos ⟨rfl, h⟩

theorem ctrStream_closed {c : Context} (h : c.ksOff = 0) (n : Nat) :
    ctrStream c n = Config.blockCipher (keyInUse c) (inc32Iter n c.j0) := if_neg fun e => e.2 h

theorem ctrStream_later (c : Context) {n : Nat} (h : n ≠ 0) :
    ctrStream c n = Config.blockCipher (keyInUse c) (inc32Iter n c.j0) := if_neg fun e => h e.1

theorem ctrByte_eq (c : Context) (d : Byte) :
    ctrByte c d =
      ({ c with
          j0 := inc32Iter ((c.ksOff.toNat + 1) / 16) c.j0
          ksOff := BitVec.ofNat 4 ((c.ksOff.toNat + 1) % 16)
          ks := ctrStream c 0 },
        d ^^^ blockByte (ctrStream c 0) c.ksOff.toNat) := by
  have hs : (if c.ksOff = 0 then Config.blockCipher (keyInUse c) c.j0 else c.ks) = ctrStream c 0 := by
    by_cases h : c.ksOff = 0
    · rw [if_pos h, ctrStream_closed h]; rfl
    · rw [if_neg h, ctrStream_open h]
  unfold ctrByte
  rw [hs]
  dsimp only
  by_cases h : c.ksOff = 15
  · rw [if_pos h, h]; rfl
  · have hlt := c.ksOff.isLt
    have hne : c.ksOff.toNat ≠ 15 := fun e => h (BitVec.eq_of_toNat_eq e)
    have h0 : (c.ksOff.toNat + 1) / 16 = 0 := by omega
    have h1 : c.ksOff + 1 = BitVec.ofNat 4 ((c.ksOff.toNat + 1) % 16) := by
      apply BitVec.eq_of_toNat_eq
      rw [BitVec.toNat_add, BitVec.toNat_ofNat]
      show (_ + 1) % 16 = _ % 16
      omega
    rw [if_neg h, h0, h1]
    rfl

/-- The keystream seen after one byte is the keystream seen before, one byte on. -/
theorem ctrStream_ctrByte (c : Context) (d : Byte) (j : Nat) :
    ctrStream (ctrByte c d).1 (((ctrByte c d).1.ksOff.toNat + j) / 16) = ctrStream c ((c.ksOff.toNat + (j + 1)) / 16) := by
  have hlt := c.ksOff.isLt
  rw [ctrByte_eq]
  dsimp only
  by_cases h : c.ksOff.toNat = 15
  · rw [h]
    show ctrStream _ ((0 + j) / 16) = _
    rw [Nat.zero_add, show (15 + (j + 1)) / 16 = j / 16 + 1 by omega]
    rw [ctrStream_closed (by rfl), ctrStream_later _ (Nat.succ_ne_zero _)]
    rfl
  · have e : (BitVec.ofNat 4 ((c.ksOff.toNat + 1) % 16)).toNat = c.ksOff.toNat + 1 := by
      rw [BitVec.toNat_ofNat]; omega
    rw [e, show c.ksOff.toNat + 1 + j = c.ksOff.toNat + (j + 1) by omega, show (c.ksOff.toNat + 1) / 16 = 0 by omega]
    generalize (c.ksOff.toNat + (j + 1)) / 16 = n
    have hne : BitVec.ofNat 4 ((c.ksOff.toNat + 1) % 16) ≠ 0 := by
      intro h0; rw [h0] at e; simp at e
    by_cases hn : n = 0
    · subst hn
      exact ctrStream_open hne
    · rw [ctrStream_later _ hn, ctrStream_later _ hn]
      rfl

/-- All that CTR_CRYPT does. -/
theorem ctrCrypt_eq (d : List Byte) (c : Context) :
    ctrCrypt d c =
      ({ c with
          j0 := inc32Iter ((c.ksOff.toNat + d.length) / 16) c.j0
          ksOff := BitVec.ofNat 4 ((c.ksOff.toNat + d.length) % 16)
          ks := if d = [] then c.ks else ctrStream c ((c.ksOff.toNat + d.length - 1) / 16) },
        d.mapIdx fun j b => b ^^^ blockByte (ctrStream c ((c.ksOff.toNat + j) / 16)) ((c.ksOff.toNat + j) % 16)) := by
  induction d generalizing c with
  | nil =>
    have hlt := c.ksOff.isLt
    have h0 : (c.ksOff.toNat + 0) / 16 = 0 := by omega
    have h1 : BitVec.ofNat 4 ((c.ksOff.toNat + 0) % 16) = c.ksOff := by
      apply BitVec.eq_of_toNat_eq
      rw [BitVec.toNat_ofNat]; omega
    rw [List.length_nil, h0, h1]
    rfl
  | cons b d ih =>
    have hlt := c.ksOff.isLt
    have hj : (ctrByte c b).1.j0 = inc32Iter ((c.ksOff.toNat + 1) / 16) c.j0 := by rw [ctrByte_eq]
    have ho : (ctrByte c b).1.ksOff.toNat = (c.ksOff.toNat + 1) % 16 := by
      rw [ctrByte_eq]; dsimp only; rw [BitVec.toNat_ofNat]; omega
    have hk : (ctrByte c b).1.ks = ctrStream c 0 := by rw [ctrByte_eq]
    obtain ⟨x, y, z, hf⟩ := ctrByte_frame c b
    show ((ctrCrypt d (ctrByte c b).1).1, (ctrByte c b).2 :: (ctrCrypt d (ctrByte c b).1).2) = _
    rw [ih]
    refine Prod.ext ?_ ?_
    · have e1 : inc32Iter (((ctrByte c b).1.ksOff.toNat + d.length) / 16) (ctrByte c b).1.j0 =
          inc32Iter ((c.ksOff.toNat + (b :: d).length) / 16) c.j0 := by
        rw [hj, ho, ← inc32Iter_add, List.length_cons]; congr 1; omega
      have e2 : ((ctrByte c b).1.ksOff.toNat + d.length) % 16 = (c.ksOff.toNat + (b :: d).length) % 16 := by
        rw [ho, List.length_cons]; omega
      have e3 : (if d = [] then (ctrByte c b).1.ks else ctrStream (ctrByte c b).1 (((ctrByte c b).1.ksOff.toNat + d.length - 1) / 16)) =
          ctrStream c ((c.ksOff.toNat + (b :: d).length - 1) / 16) := by
        split
        · rename_i h; subst h; rw [hk]; congr 1; simp; omega
        · rename_i h
          have := List.length_pos_iff.mpr h
          rw [Nat.add_sub_assoc (by omega), ctrStream_ctrByte, List.length_cons]
          congr 2; omega
      dsimp only
      rw [e1, e2, e3, if_neg (by simp), hf]
    · dsimp only
      rw [List.mapIdx_cons]
      congr 1
      · rw [ctrByte_eq]
        dsimp only
        rw [Nat.add_zero, Nat.mod_eq_of_lt hlt, show c.ksOff.toNat / 16 = 0 by omega]
      · congr 1
        funext j x
        rw [ctrStream_ctrByte, ho]
        congr 2; omega

end Sys2Proof.Machine
end

