-- ==== Sys2Proof/Laws/State.lean ====
section
/-! SUPPORT. What each named update of the state does to each field, one lemma a field. -/

namespace Sys2Proof.Machine

/-! ## The state -/

@[simp] theorem State_respond_stream (s : State) (c : Context) (r : Response) : (s.respond c r).stream = s.stream := rfl
@[simp] theorem State_respond_active (s : State) (c : Context) (r : Response) : (s.respond c r).active = s.active := rfl
@[simp] theorem State_respond_response (s : State) (c : Context) (r : Response) : (s.respond c r).response = some r := rfl
@[simp] theorem State_respond_result (s : State) (c : Context) (r : Response) : (s.respond c r).result = s.result := rfl
@[simp] theorem State_respond_contexts (s : State) (c : Context) (r : Response) :
    (s.respond c r).contexts = storeSlot s.contexts s.active (some c) := rfl

@[simp] theorem State_deliver_stream (s : State) (c : Context) (v : Result) : (s.deliver c v).stream = s.stream := rfl
@[simp] theorem State_deliver_active (s : State) (c : Context) (v : Result) : (s.deliver c v).active = s.active := rfl
@[simp] theorem State_deliver_response (s : State) (c : Context) (v : Result) : (s.deliver c v).response = s.response := rfl
@[simp] theorem State_deliver_result (s : State) (c : Context) (v : Result) : (s.deliver c v).result = some v := rfl
@[simp] theorem State_deliver_contexts (s : State) (c : Context) (v : Result) :
    (s.deliver c v).contexts = storeSlot s.contexts s.active (some c) := rfl

/-! ## The bodies of the commands -/

@[simp] theorem rebuildKey_msgState (keyBits : BitVec 32) (key : List Byte) (c : Context) : (rebuildKey keyBits key c).msgState = c.msgState := rfl
@[simp] theorem rebuildKey_mode (keyBits : BitVec 32) (key : List Byte) (c : Context) : (rebuildKey keyBits key c).mode = c.mode := rfl
@[simp] theorem rebuildKey_key (keyBits : BitVec 32) (key : List Byte) (c : Context) : (rebuildKey keyBits key c).key = padKey key := rfl
@[simp] theorem rebuildKey_keyBits (keyBits : BitVec 32) (key : List Byte) (c : Context) : (rebuildKey keyBits key c).keyBits = keyBits.setWidth 16 := rfl
@[simp] theorem rebuildKey_keyValid (keyBits : BitVec 32) (key : List Byte) (c : Context) : (rebuildKey keyBits key c).keyValid = true := rfl
@[simp] theorem rebuildKey_hh (keyBits : BitVec 32) (key : List Byte) (c : Context) : (rebuildKey keyBits key c).hh = (buildTables (Config.blockCipher key 0)).1 := rfl
@[simp] theorem rebuildKey_hl (keyBits : BitVec 32) (key : List Byte) (c : Context) : (rebuildKey keyBits key c).hl = (buildTables (Config.blockCipher key 0)).2 := rfl
@[simp] theorem rebuildKey_acc (keyBits : BitVec 32) (key : List Byte) (c : Context) : (rebuildKey keyBits key c).acc = c.acc := rfl
@[simp] theorem rebuildKey_j0 (keyBits : BitVec 32) (key : List Byte) (c : Context) : (rebuildKey keyBits key c).j0 = c.j0 := rfl
@[simp] theorem rebuildKey_j0Orig (keyBits : BitVec 32) (key : List Byte) (c : Context) : (rebuildKey keyBits key c).j0Orig = c.j0Orig := rfl
@[simp] theorem rebuildKey_aadLen (keyBits : BitVec 32) (key : List Byte) (c : Context) : (rebuildKey keyBits key c).aadLen = c.aadLen := rfl
@[simp] theorem rebuildKey_dataLen (keyBits : BitVec 32) (key : List Byte) (c : Context) : (rebuildKey keyBits key c).dataLen = c.dataLen := rfl
@[simp] theorem rebuildKey_adDone (keyBits : BitVec 32) (key : List Byte) (c : Context) : (rebuildKey keyBits key c).adDone = c.adDone := rfl
@[simp] theorem rebuildKey_ks (keyBits : BitVec 32) (key : List Byte) (c : Context) : (rebuildKey keyBits key c).ks = c.ks := rfl
@[simp] theorem rebuildKey_ksOff (keyBits : BitVec 32) (key : List Byte) (c : Context) : (rebuildKey keyBits key c).ksOff = c.ksOff := rfl
@[simp] theorem rebuildKey_ghPend (keyBits : BitVec 32) (key : List Byte) (c : Context) : (rebuildKey keyBits key c).ghPend = c.ghPend := rfl

@[simp] theorem startBody_msgState (mode : Mode) (iv : List Byte) (c : Context) : (startBody mode iv c).msgState = .started := rfl
@[simp] theorem startBody_mode (mode : Mode) (iv : List Byte) (c : Context) : (startBody mode iv c).mode = mode := rfl
@[simp] theorem startBody_key (mode : Mode) (iv : List Byte) (c : Context) : (startBody mode iv c).key = c.key := rfl
@[simp] theorem startBody_keyBits (mode : Mode) (iv : List Byte) (c : Context) : (startBody mode iv c).keyBits = c.keyBits := rfl
@[simp] theorem startBody_keyValid (mode : Mode) (iv : List Byte) (c : Context) : (startBody mode iv c).keyValid = c.keyValid := rfl
@[simp] theorem startBody_hh (mode : Mode) (iv : List Byte) (c : Context) : (startBody mode iv c).hh = c.hh := rfl
@[simp] theorem startBody_hl (mode : Mode) (iv : List Byte) (c : Context) : (startBody mode iv c).hl = c.hl := rfl
@[simp] theorem startBody_acc (mode : Mode) (iv : List Byte) (c : Context) : (startBody mode iv c).acc = 0 := rfl
@[simp] theorem startBody_j0 (mode : Mode) (iv : List Byte) (c : Context) : (startBody mode iv c).j0 = deriveJ0 c.hh c.hl iv := rfl
@[simp] theorem startBody_j0Orig (mode : Mode) (iv : List Byte) (c : Context) : (startBody mode iv c).j0Orig = deriveJ0 c.hh c.hl iv := rfl
@[simp] theorem startBody_aadLen (mode : Mode) (iv : List Byte) (c : Context) : (startBody mode iv c).aadLen = 0 := rfl
@[simp] theorem startBody_dataLen (mode : Mode) (iv : List Byte) (c : Context) : (startBody mode iv c).dataLen = 0 := rfl
@[simp] theorem startBody_adDone (mode : Mode) (iv : List Byte) (c : Context) : (startBody mode iv c).adDone = false := rfl
@[simp] theorem startBody_ks (mode : Mode) (iv : List Byte) (c : Context) : (startBody mode iv c).ks = 0 := rfl
@[simp] theorem startBody_ksOff (mode : Mode) (iv : List Byte) (c : Context) : (startBody mode iv c).ksOff = 0 := rfl
@[simp] theorem startBody_ghPend (mode : Mode) (iv : List Byte) (c : Context) : (startBody mode iv c).ghPend = 0 := rfl

@[simp] theorem updateAdBody_msgState (aadLen : BitVec 64) (aad : List Byte) (c : Context) : (updateAdBody aadLen aad c).msgState = c.msgState := rfl
@[simp] theorem updateAdBody_mode (aadLen : BitVec 64) (aad : List Byte) (c : Context) : (updateAdBody aadLen aad c).mode = c.mode := rfl
@[simp] theorem updateAdBody_key (aadLen : BitVec 64) (aad : List Byte) (c : Context) : (updateAdBody aadLen aad c).key = c.key := rfl
@[simp] theorem updateAdBody_keyBits (aadLen : BitVec 64) (aad : List Byte) (c : Context) : (updateAdBody aadLen aad c).keyBits = c.keyBits := rfl
@[simp] theorem updateAdBody_keyValid (aadLen : BitVec 64) (aad : List Byte) (c : Context) : (updateAdBody aadLen aad c).keyValid = c.keyValid := rfl
@[simp] theorem updateAdBody_hh (aadLen : BitVec 64) (aad : List Byte) (c : Context) : (updateAdBody aadLen aad c).hh = c.hh := rfl
@[simp] theorem updateAdBody_hl (aadLen : BitVec 64) (aad : List Byte) (c : Context) : (updateAdBody aadLen aad c).hl = c.hl := rfl
@[simp] theorem updateAdBody_acc (aadLen : BitVec 64) (aad : List Byte) (c : Context) : (updateAdBody aadLen aad c).acc = ghashUpdate c.hh c.hl aad c.acc := rfl
@[simp] theorem updateAdBody_j0 (aadLen : BitVec 64) (aad : List Byte) (c : Context) : (updateAdBody aadLen aad c).j0 = c.j0 := rfl
@[simp] theorem updateAdBody_j0Orig (aadLen : BitVec 64) (aad : List Byte) (c : Context) : (updateAdBody aadLen aad c).j0Orig = c.j0Orig := rfl
@[simp] theorem updateAdBody_aadLen (aadLen : BitVec 64) (aad : List Byte) (c : Context) : (updateAdBody aadLen aad c).aadLen = aadLen := rfl
@[simp] theorem updateAdBody_dataLen (aadLen : BitVec 64) (aad : List Byte) (c : Context) : (updateAdBody aadLen aad c).dataLen = c.dataLen := rfl
@[simp] theorem updateAdBody_adDone (aadLen : BitVec 64) (aad : List Byte) (c : Context) : (updateAdBody aadLen aad c).adDone = true := rfl
@[simp] theorem updateAdBody_ks (aadLen : BitVec 64) (aad : List Byte) (c : Context) : (updateAdBody aadLen aad c).ks = c.ks := rfl
@[simp] theorem updateAdBody_ksOff (aadLen : BitVec 64) (aad : List Byte) (c : Context) : (updateAdBody aadLen aad c).ksOff = c.ksOff := rfl
@[simp] theorem updateAdBody_ghPend (aadLen : BitVec 64) (aad : List Byte) (c : Context) : (updateAdBody aadLen aad c).ghPend = c.ghPend := rfl

@[simp] theorem foldLengths_msgState (c : Context) : (foldLengths c).msgState = c.msgState := rfl
@[simp] theorem foldLengths_mode (c : Context) : (foldLengths c).mode = c.mode := rfl
@[simp] theorem foldLengths_key (c : Context) : (foldLengths c).key = c.key := rfl
@[simp] theorem foldLengths_keyBits (c : Context) : (foldLengths c).keyBits = c.keyBits := rfl
@[simp] theorem foldLengths_keyValid (c : Context) : (foldLengths c).keyValid = c.keyValid := rfl
@[simp] theorem foldLengths_hh (c : Context) : (foldLengths c).hh = c.hh := rfl
@[simp] theorem foldLengths_hl (c : Context) : (foldLengths c).hl = c.hl := rfl
@[simp] theorem foldLengths_acc (c : Context) : (foldLengths c).acc = ghashUpdate c.hh c.hl (lengthBlock c.aadLen.toNat c.dataLen.toNat) c.acc := rfl
@[simp] theorem foldLengths_j0 (c : Context) : (foldLengths c).j0 = c.j0 := rfl
@[simp] theorem foldLengths_j0Orig (c : Context) : (foldLengths c).j0Orig = c.j0Orig := rfl
@[simp] theorem foldLengths_aadLen (c : Context) : (foldLengths c).aadLen = c.aadLen := rfl
@[simp] theorem foldLengths_dataLen (c : Context) : (foldLengths c).dataLen = c.dataLen := rfl
@[simp] theorem foldLengths_adDone (c : Context) : (foldLengths c).adDone = c.adDone := rfl
@[simp] theorem foldLengths_ks (c : Context) : (foldLengths c).ks = c.ks := rfl
@[simp] theorem foldLengths_ksOff (c : Context) : (foldLengths c).ksOff = c.ksOff := rfl
@[simp] theorem foldLengths_ghPend (c : Context) : (foldLengths c).ghPend = c.ghPend := rfl

end Sys2Proof.Machine
end

