-- ==== Sys2Proof/Laws/Ops.lean ====
section
/-! SUPPORT. The contexts by number, and one lemma for each shared operation saying all that it can do. -/

namespace Sys2Proof.Machine

/-! ## The contexts by number -/

theorem lookupSlot_removeSlot_same (m : List (Nat × Option Context)) (id : Nat) :
    lookupSlot (removeSlot m id) id = some Context.reset := by
  induction m with
  | nil => rfl
  | cons e rest ih =>
    obtain ⟨k, slot⟩ := e
    by_cases h : k = id
    · simpa [removeSlot, h] using ih
    · simpa [removeSlot, h, lookupSlot] using ih

theorem lookupSlot_removeSlot_other (m : List (Nat × Option Context)) {id other : Nat} (h : other ≠ id) :
    lookupSlot (removeSlot m id) other = lookupSlot m other := by
  induction m with
  | nil => rfl
  | cons e rest ih =>
    obtain ⟨k, slot⟩ := e
    by_cases hk : k = id
    · have : k ≠ other := by omega
      simpa [removeSlot, hk, lookupSlot, this, Ne.symm h] using ih
    · have ih' : lookupSlot (List.filter (fun e => e.1 != id) rest) other = lookupSlot rest other := ih
      simp [removeSlot, hk, lookupSlot, ih']

/-- No entry of the list has the number `id`. -/
theorem removeSlot_lacks (m : List (Nat × Option Context)) (id : Nat) : ∀ e ∈ removeSlot m id, e.1 ≠ id := by
  intro e he
  simpa using (List.mem_filter.mp he).2

theorem lookupSlot_insertSlot_same (m : List (Nat × Option Context)) (id : Nat) (slot : Option Context)
    (h : ∀ e ∈ m, e.1 ≠ id) : lookupSlot (insertSlot id slot m) id = slot := by
  induction m with
  | nil => simp [insertSlot, lookupSlot]
  | cons e rest ih =>
    obtain ⟨k, v⟩ := e
    have hk : k ≠ id := h (k, v) (by simp)
    by_cases hlt : id < k
    · simp [insertSlot, hlt, lookupSlot]
    · simp [insertSlot, hlt, lookupSlot, hk, ih fun e he => h e (by simp [he])]

theorem lookupSlot_insertSlot_other (m : List (Nat × Option Context)) {id other : Nat} (slot : Option Context)
    (h : other ≠ id) : lookupSlot (insertSlot id slot m) other = lookupSlot m other := by
  induction m with
  | nil => simp [insertSlot, lookupSlot, Ne.symm h]
  | cons e rest ih =>
    obtain ⟨k, v⟩ := e
    by_cases hlt : id < k
    · simp [insertSlot, hlt, lookupSlot, Ne.symm h]
    · simp [insertSlot, hlt, lookupSlot, ih]

/-- A read after a write of the same number gives what was written. -/
@[simp] theorem lookupSlot_storeSlot_same (m : List (Nat × Option Context)) (id : Nat) (slot : Option Context) :
    lookupSlot (storeSlot m id slot) id = slot := by
  unfold storeSlot
  split
  · simp [lookupSlot_removeSlot_same, *]
  · exact lookupSlot_insertSlot_same _ _ _ (removeSlot_lacks m id)

/-- A write leaves every other number alone. -/
theorem lookupSlot_storeSlot_other (m : List (Nat × Option Context)) {id other : Nat} (slot : Option Context)
    (h : other ≠ id) : lookupSlot (storeSlot m id slot) other = lookupSlot m other := by
  unfold storeSlot
  split
  · exact lookupSlot_removeSlot_other m h
  · rw [lookupSlot_insertSlot_other _ _ h, lookupSlot_removeSlot_other m h]

theorem removeSlot_of_lacks (m : List (Nat × Option Context)) (id : Nat) (h : ∀ e ∈ m, e.1 ≠ id) :
    removeSlot m id = m := by
  simpa [removeSlot] using h

theorem removeSlot_insertSlot (m : List (Nat × Option Context)) (id : Nat) (slot : Option Context) :
    removeSlot (insertSlot id slot m) id = removeSlot m id := by
  induction m with
  | nil => simp [insertSlot, removeSlot]
  | cons e rest ih =>
    by_cases hlt : id < e.1
    · simp [insertSlot, hlt, removeSlot]
    · simp only [insertSlot, hlt, if_false]
      simpa [removeSlot, List.filter_cons] using by rw [show List.filter (fun e => e.1 != id) (insertSlot id slot rest)
        = List.filter (fun e => e.1 != id) rest from ih]

theorem removeSlot_storeSlot (m : List (Nat × Option Context)) (id : Nat) (slot : Option Context) :
    removeSlot (storeSlot m id slot) id = removeSlot m id := by
  unfold storeSlot
  split
  · exact removeSlot_of_lacks _ _ (removeSlot_lacks m id)
  · rw [removeSlot_insertSlot, removeSlot_of_lacks _ _ (removeSlot_lacks m id)]

/-- The last of two writes of the same number counts. -/
@[simp] theorem storeSlot_storeSlot (m : List (Nat × Option Context)) (id : Nat) (slot slot' : Option Context) :
    storeSlot (storeSlot m id slot) id slot' = storeSlot m id slot' := by
  simp [storeSlot.eq_1 (storeSlot m id slot), removeSlot_storeSlot, storeSlot.eq_1 m id slot']

/-! ## The canonical form -/

theorem mem_insertSlot {m : List (Nat × Option Context)} {id : Nat} {slot : Option Context} {e : Nat × Option Context}
    (h : e ∈ insertSlot id slot m) : e = (id, slot) ∨ e ∈ m := by
  induction m with
  | nil => simpa [insertSlot] using h
  | cons f rest ih =>
    by_cases hlt : id < f.1
    · simpa [insertSlot, hlt] using h
    · simp only [insertSlot, hlt, if_false, List.mem_cons] at h ⊢
      rcases h with rfl | h
      · simp
      · rcases ih h with h | h <;> simp [h]

theorem insertSlot_rising {m : List (Nat × Option Context)} {id : Nat} {slot : Option Context}
    (hm : m.Pairwise fun a b => a.1 < b.1) (h : ∀ e ∈ m, e.1 ≠ id) :
    (insertSlot id slot m).Pairwise fun a b => a.1 < b.1 := by
  induction m with
  | nil => simp [insertSlot]
  | cons f rest ih =>
    rw [List.pairwise_cons] at hm
    by_cases hlt : id < f.1
    · simp only [insertSlot, hlt, if_true, List.pairwise_cons]
      refine ⟨fun e he => ?_, hm⟩
      rcases List.mem_cons.mp he with rfl | he
      · exact hlt
      · exact lt_trans hlt (hm.1 e he)
    · have hne : f.1 ≠ id := h f (by simp)
      simp only [insertSlot, hlt, if_false, List.pairwise_cons]
      refine ⟨fun e he => ?_, ih hm.2 fun e he => h e (by simp [he])⟩
      rcases mem_insertSlot he with rfl | he
      · simp; omega
      · exact hm.1 e he

/-- A write keeps the canonical form. -/
theorem contextsWf_storeSlot {m : List (Nat × Option Context)} (h : contextsWf m) (id : Nat) (slot : Option Context) :
    contextsWf (storeSlot m id slot) := by
  have hr : (removeSlot m id).Pairwise fun a b => a.1 < b.1 := h.1.filter _
  have hd : ∀ e ∈ removeSlot m id, e.2 ≠ some Context.reset := fun e he => h.2 e (List.mem_filter.mp he).1
  unfold storeSlot
  split
  · exact ⟨hr, hd⟩
  · refine ⟨insertSlot_rising hr (removeSlot_lacks m id), fun e he => ?_⟩
    rcases mem_insertSlot he with rfl | he
    · assumption
    · exact hd e he

theorem contextsWf_reset : contextsWf State.reset.contexts := by decide

/-! ## Contexts of a state -/

theorem numContexts_pos : 0 < Config.numContexts := Nat.succ_pos _

theorem contextAt_eq_some {s : State} {id : Nat} {c : Context} :
    s.contextAt id = some c ↔ id < Config.numContexts ∧ lookupSlot s.contexts id = some c := by
  unfold State.contextAt
  split <;> simp [*]

theorem current_eq_some {s : State} {c : Context} :
    s.current = some c ↔ s.active < Config.numContexts ∧ lookupSlot s.contexts s.active = some c :=
  contextAt_eq_some

/-- The addressed context after a command. -/
theorem current_respond {s : State} {c : Context} (h : s.current = some c) (c' : Context) (r : Response) :
    (s.respond c' r).current = some c' := by
  rw [current_eq_some] at h ⊢
  simp [h.1]

theorem contextAt_respond_same {s : State} {c : Context} (h : s.current = some c) (c' : Context) (r : Response) :
    (s.respond c' r).contextAt s.active = some c' := current_respond h c' r

/-- The other contexts after a command. -/
theorem contextAt_respond_other (s : State) (c' : Context) (r : Response) {id : Nat} (h : id ≠ s.active) :
    (s.respond c' r).contextAt id = s.contextAt id := by
  simp [State.contextAt, lookupSlot_storeSlot_other _ _ h]

/-- The addressed context after a datapath operation. -/
theorem current_deliver {s : State} {c : Context} (h : s.current = some c) (c' : Context) (v : Result) :
    (s.deliver c' v).current = some c' := by
  rw [current_eq_some] at h ⊢
  simp [h.1]

/-- The other contexts after a datapath operation. -/
theorem contextAt_deliver_other (s : State) (c' : Context) (v : Result) {id : Nat} (h : id ≠ s.active) :
    (s.deliver c' v).contextAt id = s.contextAt id := by
  simp [State.contextAt, lookupSlot_storeSlot_other _ _ h]

/-- A command that keeps the registers changes no context. -/
theorem contextAt_respond_keep {s : State} {c : Context} (h : s.current = some c) (r : Response) (id : Nat) :
    (s.respond c r).contextAt id = s.contextAt id := by
  by_cases hid : id = s.active
  · subst hid
    rw [contextAt_respond_same h]
    exact h.symm
  · exact contextAt_respond_other s c r hid

/-- The last of two commands on one context leaves the contexts and the response. -/
@[simp] theorem respond_respond (s : State) (c c' : Context) (r r' : Response) :
    (s.respond c r).respond c' r' = s.respond c' r' := by
  simp [State.respond]

/-- Two states that answer are equal only where the registers and the responses are. -/
theorem respond_inj {s : State} {c c' : Context} {r r' : Response} (h : s.respond c r = s.respond c' r') :
    c = c' ∧ r = r' := by
  have hc := congrArg (fun t => lookupSlot t.contexts s.active) h
  have hr := congrArg State.response h
  simpa using And.intro hc hr

/-! ## Running a command or a datapath operation -/

/-- What a command does where its context is there. -/
theorem runCommand_eq {f : Context → Except Refusal (Context × Response)} {s : State} {c : Context} (h : s.current = some c) :
    runCommand f s =
      match f c with
      | .error why => .refused why
      | .ok done => .next (s.respond done.1 done.2) := by
  cases hf : f c <;> simp [runCommand, h, hf]

/-- What a datapath operation does where its context is there. -/
theorem runDatapath_eq {f : Context → Except Refusal (Context × Result)} {s : State} {c : Context} (h : s.current = some c) :
    runDatapath f s =
      match f c with
      | .error why => .refused why
      | .ok done => .next (s.deliver done.1 done.2) := by
  cases hf : f c <;> simp [runDatapath, h, hf]

theorem runCommand_ok {f : Context → Except Refusal (Context × Response)} {s : State} {c c' : Context} {r : Response}
    (h : s.current = some c) (hf : f c = .ok (c', r)) : runCommand f s = .next (s.respond c' r) := by
  simp [runCommand, h, hf]

theorem runCommand_error {f : Context → Except Refusal (Context × Response)} {s : State} {c : Context} {why : Refusal}
    (h : s.current = some c) (hf : f c = .error why) : runCommand f s = .refused why := by
  simp [runCommand, h, hf]

/-- All that a command can do when it answers. -/
theorem runCommand_next {f : Context → Except Refusal (Context × Response)} {s t : State}
    (h : runCommand f s = .next t) : ∃ c c' r, s.current = some c ∧ f c = .ok (c', r) ∧ t = s.respond c' r := by
  unfold runCommand at h
  split at h
  · cases h
  · rename_i c hc
    split at h
    · cases h
    · rename_i done hd
      cases h
      exact ⟨c, done.1, done.2, hc, hd, rfl⟩

/-- All that a datapath operation can do when it completes. -/
theorem runDatapath_next {f : Context → Except Refusal (Context × Result)} {s t : State}
    (h : runDatapath f s = .next t) : ∃ c c' v, s.current = some c ∧ f c = .ok (c', v) ∧ t = s.deliver c' v := by
  unfold runDatapath at h
  split at h
  · cases h
  · rename_i c hc
    split at h
    · cases h
    · rename_i done hd
      cases h
      exact ⟨c, done.1, done.2, hc, hd, rfl⟩

theorem runDatapath_ok {f : Context → Except Refusal (Context × Result)} {s : State} {c c' : Context} {v : Result}
    (h : s.current = some c) (hf : f c = .ok (c', v)) : runDatapath f s = .next (s.deliver c' v) := by
  simp [runDatapath, h, hf]

theorem runDatapath_error {f : Context → Except Refusal (Context × Result)} {s : State} {c : Context} {why : Refusal}
    (h : s.current = some c) (hf : f c = .error why) : runDatapath f s = .refused why := by
  simp [runDatapath, h, hf]

/-! ## The skeleton of a command -/

theorem firstFailing_eq_none {checks : List (Bool × Status)} :
    firstFailing checks = none ↔ ∀ x ∈ checks, x.1 = false := by
  induction checks with
  | nil => simp [firstFailing]
  | cons x rest ih =>
    obtain ⟨b, st⟩ := x
    cases b <;> simp [firstFailing, ih]

theorem firstFailing_mem {checks : List (Bool × Status)} {st : Status} (h : firstFailing checks = some st) :
    (true, st) ∈ checks := by
  induction checks with
  | nil => cases h
  | cons x rest ih =>
    obtain ⟨b, st'⟩ := x
    cases b
    · simpa using ih (by simpa [firstFailing] using h)
    · simp_all [firstFailing]

/-- All that a command can do: have no step where the host's duty is broken; else fail a check with nothing written, or run its
effect. -/
theorem command_cases (checks : List (Bool × Status)) (duty : Bool) (effect : Context × Response) (c : Context) :
    (duty = true ∧ ∃ st, firstFailing checks = some st ∧ (true, st) ∈ checks ∧
      command checks duty effect c = .ok (c, failed st)) ∨
    (duty = true ∧ firstFailing checks = none ∧ command checks duty effect c = .ok effect) ∨
    (duty = false ∧ command checks duty effect c = .error .operandLength) := by
  cases duty with
  | false => exact .inr (.inr ⟨rfl, rfl⟩)
  | true =>
    cases h : firstFailing checks with
    | some st => exact .inl ⟨rfl, st, rfl, firstFailing_mem h, by simp [command, h]⟩
    | none => exact .inr (.inl ⟨rfl, rfl, by simp [command, h]⟩)

/-- A broken duty comes before every check. -/
theorem command_refuses (checks : List (Bool × Status)) (effect : Context × Response) (c : Context) :
    command checks false effect c = .error .operandLength := rfl

theorem command_fails {checks : List (Bool × Status)} {duty : Bool} {st : Status} (hd : duty = true)
    (h : firstFailing checks = some st) (effect : Context × Response) (c : Context) :
    command checks duty effect c = .ok (c, failed st) := by
  simp [command, h, hd]

/-- A command that answers has met the host's duty. -/
theorem duty_of_command_ok {checks : List (Bool × Status)} {duty : Bool} {effect done : Context × Response} {c : Context}
    (h : command checks duty effect c = .ok done) : duty = true := by
  cases duty
  · cases h
  · rfl

theorem command_runs {checks : List (Bool × Status)} (h : firstFailing checks = none) (effect : Context × Response)
    (c : Context) : command checks true effect c = .ok effect := by
  simp [command, h]

end Sys2Proof.Machine
end

