-- ==== Sys2Proof/Laws/Engine.lean ====
section
/-! SUPPORT. The bodies of UPDATE, FINISH and the one-shots: every register they write, in one record each; and what every
instruction can do when it completes. -/

namespace Sys2Proof.Machine

/-! ## UPDATE and FINISH -/

theorem firstIncrement_eq (c : Context) :
    firstIncrement c = { c with j0 := if c.msgState = .started then inc32 c.j0 else c.j0 } := by
  unfold firstIncrement
  split <;> rfl

/-- The ciphertext of an UPDATE (R225). -/
def updateCiphertext (input : List Byte) (c : Context) : List Byte :=
  if c.mode = .encrypt then (ctrCrypt input (firstIncrement c)).2 else input

/-- All that the body of UPDATE does. -/
theorem updateBody_eq (len : BitVec 64) (input : List Byte) (c : Context) :
    updateBody len input c =
      ({ c with
          j0 := (ctrCrypt input (firstIncrement c)).1.j0
          ks := (ctrCrypt input (firstIncrement c)).1.ks
          ksOff := (ctrCrypt input (firstIncrement c)).1.ksOff
          acc := ((updateCiphertext input c).foldl (absorbPair c.hh c.hl) (c.acc, c.ghPend)).1
          ghPend := ((updateCiphertext input c).foldl (absorbPair c.hh c.hl) (c.acc, c.ghPend)).2
          dataLen := c.dataLen + len
          msgState := .updating },
        (ctrCrypt input (firstIncrement c)).2) := by
  have hf := firstIncrement_eq c
  obtain ⟨j, k, o, h⟩ := ctrCrypt_frame input (firstIncrement c)
  unfold updateBody updateCiphertext
  dsimp only
  rw [foldl_ghashAbsorb_eq]
  generalize ctrCrypt input (firstIncrement c) = out at h ⊢
  obtain ⟨c', bytes⟩ := out
  dsimp only at h
  subst h
  rw [hf]

@[simp] theorem updateBody_length (len : BitVec 64) (input : List Byte) (c : Context) :
    (updateBody len input c).2.length = input.length := by
  rw [updateBody_eq]; exact ctrCrypt_length _ _

/-- One UPDATE after another is one UPDATE of both chunks. -/
theorem updateBody_append (m n : BitVec 64) (d e : List Byte) (c : Context) :
    updateBody n e (updateBody m d c).1 =
      ((updateBody (m + n) (d ++ e) c).1, (updateBody n e (updateBody m d c).1).2) ∧
    (updateBody (m + n) (d ++ e) c).2 = (updateBody m d c).2 ++ (updateBody n e (updateBody m d c).1).2 := by
  have hi : firstIncrement (updateBody m d c).1 = (updateBody m d c).1 := by
    rw [firstIncrement, if_neg]; rw [updateBody_eq]; simp
  obtain ⟨j, k, o, hf⟩ := ctrCrypt_frame d (firstIncrement c)
  have hx : ctrCrypt (d ++ e) (firstIncrement c) =
      ((ctrCrypt e (ctrCrypt d (firstIncrement c)).1).1,
        (ctrCrypt d (firstIncrement c)).2 ++ (ctrCrypt e (ctrCrypt d (firstIncrement c)).1).2) := ctrCrypt_append _ _ _
  -- CTR_CRYPT reads J0, KS, KS_OFF and the key alone
  have hr : ∀ c₁ c₂ : Context, c₁.j0 = c₂.j0 → c₁.ks = c₂.ks → c₁.ksOff = c₂.ksOff → keyInUse c₁ = keyInUse c₂ →
      (ctrCrypt e c₁).2 = (ctrCrypt e c₂).2 ∧ (ctrCrypt e c₁).1.j0 = (ctrCrypt e c₂).1.j0 ∧
        (ctrCrypt e c₁).1.ks = (ctrCrypt e c₂).1.ks ∧ (ctrCrypt e c₁).1.ksOff = (ctrCrypt e c₂).1.ksOff := by
    intro c₁ c₂ h1 h2 h3 h4
    have hs : ctrStream c₁ = ctrStream c₂ := by funext n; unfold ctrStream; rw [h1, h2, h3, h4]
    rw [ctrCrypt_eq, ctrCrypt_eq, hs]
    dsimp only
    rw [h1, h2, h3]
    exact ⟨rfl, rfl, rfl, rfl⟩
  have hu : (updateBody m d c).1.j0 = (ctrCrypt d (firstIncrement c)).1.j0 ∧
      (updateBody m d c).1.ks = (ctrCrypt d (firstIncrement c)).1.ks ∧
      (updateBody m d c).1.ksOff = (ctrCrypt d (firstIncrement c)).1.ksOff ∧
      keyInUse (updateBody m d c).1 = keyInUse (ctrCrypt d (firstIncrement c)).1 := by
    rw [updateBody_eq]
    refine ⟨rfl, rfl, rfl, ?_⟩
    rw [ctrCrypt_keyInUse, firstIncrement_eq]
    rfl
  obtain ⟨e1, e2, e3, e4⟩ := hr _ _ hu.1 hu.2.1 hu.2.2.1 hu.2.2.2
  have hc : updateCiphertext (d ++ e) c = updateCiphertext d c ++ updateCiphertext e (updateBody m d c).1 := by
    have hm : (updateBody m d c).1.mode = c.mode := by rw [updateBody_eq]
    unfold updateCiphertext
    rw [hm, hi, e1, hx]
    split <;> rfl
  refine ⟨Prod.ext ?_ rfl, ?_⟩
  · dsimp only
    rw [updateBody_eq n e, hi, e2, e3, e4, updateBody_eq (m + n), hc, hx, List.foldl_append]
    rw [updateBody_eq m d]
    dsimp only
    rw [BitVec.add_assoc]
  · rw [updateBody_eq (m + n), hx, updateBody_eq n e, hi, e1, updateBody_eq m d]

/-- All that the body of FINISH does. -/
theorem finishBody_eq (tagLen : BitVec 32) (c : Context) :
    finishBody tagLen c =
      ({ c with
          acc := gfMult c.hh c.hl ((if c.ghPend = 0 then c.acc else gfMult c.hh c.hl c.acc) ^^^
            (BitVec.ofNat 64 (c.aadLen.toNat * 8) ++ BitVec.ofNat 64 (c.dataLen.toNat * 8) : BitVec (64 + 64)))
          ghPend := 0
          msgState := .finished },
        (blockBytes (Config.blockCipher (keyInUse c) c.j0Orig ^^^
          gfMult c.hh c.hl ((if c.ghPend = 0 then c.acc else gfMult c.hh c.hl c.acc) ^^^
            (BitVec.ofNat 64 (c.aadLen.toNat * 8) ++ BitVec.ofNat 64 (c.dataLen.toNat * 8) : BitVec (64 + 64))))).take
          tagLen.toNat) := by
  unfold finishBody foldLengths ctrSingleBlock
  dsimp only
  rw [ghashFlush_eq]
  dsimp only
  rw [ghashUpdate_one _ _ (by simp), blockOfBytes_lengthBlock]
  rfl

/-! ## Every instruction -/

/-- All that an instruction can do when it completes: it changes the addressed context and nothing else, but for the response of
a command or the value of a datapath operation. -/
theorem exec_next_shape {i : Instr} {s t : State} (h : exec i s = .next t) :
    ∃ c c', s.current = some c ∧
      ((i.isCommand = true ∧ ∃ r, t = s.respond c' r) ∨ (i.isCommand = false ∧ ∃ v, t = s.deliver c' v)) := by
  cases i
  all_goals
    simp only [exec, execSetKey, execStart, execUpdateAd, execUpdate, execFinish, execCryptAndTag, execAuthDecrypt,
      execBuildTables, execGfMult, execGhashUpdate, execGhashAbsorb, execGhashFlush, execDeriveJ0, execInc32, execCtrCrypt,
      execCtrSingleBlock, execTagCompare] at h
  all_goals first
    | (obtain ⟨c, c', r, hc, _, rfl⟩ := runCommand_next h; exact ⟨c, c', hc, .inl ⟨rfl, r, rfl⟩⟩)
    | (obtain ⟨c, c', v, hc, _, rfl⟩ := runDatapath_next h; exact ⟨c, c', hc, .inr ⟨rfl, v, rfl⟩⟩)

/-- An instruction has no step where its context is not there. -/
theorem exec_absent {s : State} (h : s.current = none) (i : Instr) : exec i s = .refused .noSuchContext := by
  cases i <;> simp only [exec, execSetKey, execStart, execUpdateAd, execUpdate, execFinish, execCryptAndTag, execAuthDecrypt,
    execBuildTables, execGfMult, execGhashUpdate, execGhashAbsorb, execGhashFlush, execDeriveJ0, execInc32, execCtrCrypt,
    execCtrSingleBlock, execTagCompare, runCommand, runDatapath, h]

/-- A status that ends a command by `fail` (R281). -/
def Status.fails (st : Status) : Prop := st = .badInput ∨ st = .invalidState ∨ st = .unsupportedKeyLength

theorem command_outcome {checks : List (Bool × Status)} (hs : ∀ x ∈ checks, x.2.fails) (duty : Bool)
    {effect : Context × Response} (he : effect.2.status = .ok ∨ effect.2.status = .authenticationFailed) {s : State}
    {c : Context} (hc : s.current = some c) {f : Context → Except Refusal (Context × Response)}
    (hf : f c = command checks duty effect c) :
    (duty = true ∧ ∃ st, st.fails ∧ runCommand f s = .next (s.respond c (failed st))) ∨
    (duty = true ∧ ∃ c' r, runCommand f s = .next (s.respond c' r) ∧ (r.status = .ok ∨ r.status = .authenticationFailed)) ∨
    (duty = false ∧ runCommand f s = .refused .operandLength) := by
  rcases command_cases checks duty effect c with ⟨hd, st, _, hm, h⟩ | ⟨hd, _, h⟩ | ⟨hd, h⟩
  · exact .inl ⟨hd, st, hs _ hm, runCommand_ok hc (hf.trans h)⟩
  · exact .inr (.inl ⟨hd, effect.1, effect.2, runCommand_ok hc (hf.trans h), he⟩)
  · exact .inr (.inr ⟨hd, runCommand_error hc (hf.trans h)⟩)

theorem verdict_status (plain check tag : List Byte) (len : BitVec 64) (tagLen : BitVec 32) :
    (verdict plain check tag len tagLen).status = .ok ∨ (verdict plain check tag len tagLen).status = .authenticationFailed := by
  unfold verdict
  split
  · exact .inl rfl
  · exact .inr rfl

/-- All that a command can do: where its buffers meet the host's duty, end by `fail` with the registers as they were, or run its
effect; where one breaks it, have no step. -/
theorem exec_command_cases {i : Instr} (hi : i.isCommand = true) {s : State} {c : Context} (hc : s.current = some c) :
    (i.wf = true ∧ ∃ st, Status.fails st ∧ exec i s = .next (s.respond c (failed st))) ∨
    (i.wf = true ∧ ∃ c' r, exec i s = .next (s.respond c' r) ∧ (r.status = .ok ∨ r.status = .authenticationFailed)) ∨
    (i.wf = false ∧ exec i s = .refused .operandLength) := by
  cases i <;> simp only [Instr.isCommand, Bool.false_eq_true] at hi
  case setKey keyBits key =>
    exact command_outcome (by simp [keyChecks, Status.fails]) _ (.inl rfl) hc rfl
  case start m n iv =>
    exact command_outcome (by simp [keyedCheck, ivChecks, Status.fails]) _ (.inl rfl) hc rfl
  case updateAd n aad =>
    exact command_outcome (by simp [beforeAadCheck, aadChecks, Status.fails]) _ (.inl rfl) hc rfl
  case update n input =>
    exact command_outcome (by simp [inMessageCheck, inputChecks, Status.fails]) _ (.inl rfl) hc rfl
  case finish n =>
    exact command_outcome (by simp [inMessageCheck, tagLenChecks, Status.fails]) _ (.inl rfl) hc rfl
  case cryptAndTag m ivLen iv aadLen aad len input tagLen =>
    exact command_outcome
      (by simp [oneShotChecks, keyedCheck, ivChecks, aadChecks, inputChecks, tagLenChecks, Status.fails]) _ (.inl rfl) hc rfl
  case authDecrypt ivLen iv aadLen aad len input tagLen tag =>
    exact command_outcome
      (by simp [oneShotChecks, keyedCheck, ivChecks, aadChecks, inputChecks, tagLenChecks, tagChecks, Status.fails]) _
      (verdict_status _ _ _ _ _) hc rfl

/-- A command whose buffers break the host's duty has no step, whatever its checks would say (20_memory.md R81). -/
theorem exec_refuses {i : Instr} (hi : i.isCommand = true) (hw : i.wf = false) {s : State} {c : Context} (hc : s.current = some c) :
    exec i s = .refused .operandLength := by
  rcases exec_command_cases hi hc with ⟨h, _⟩ | ⟨h, _⟩ | ⟨_, he⟩
  · rw [hw] at h; cases h
  · rw [hw] at h; cases h
  · exact he

end Sys2Proof.Machine
end

