-- ==== Sys2Proof/Laws/Operands.lean ====
section
/-! SUPPORT. The checks of a command: which status each list of checks answers with, and the key of SET_KEY. -/

namespace Sys2Proof.Machine

/-! ## Lists of checks -/

@[simp] theorem firstFailing_nil : firstFailing [] = none := rfl

@[simp] theorem firstFailing_true (st : Status) (rest : List (Bool × Status)) :
    firstFailing ((true, st) :: rest) = some st := rfl

@[simp] theorem firstFailing_false (st : Status) (rest : List (Bool × Status)) :
    firstFailing ((false, st) :: rest) = firstFailing rest := rfl

theorem firstFailing_append (a b : List (Bool × Status)) :
    firstFailing (a ++ b) = (firstFailing a).or (firstFailing b) := by
  induction a with
  | nil => rfl
  | cons x a ih => obtain ⟨v, st⟩ := x; cases v <;> simp [ih]

theorem firstFailing_ivChecks (ivLen : BitVec 64) (iv : Buffer) :
    firstFailing (ivChecks ivLen iv) =
      if iv = none ∨ ivLen.toNat = 0 ∨ ivLimit ≤ ivLen.toNat then some .badInput else none := by
  simp only [ivChecks, firstFailing]
  cases iv with
  | none => by_cases h : ivLen.toNat = 0 <;> simp [h, Nat.pos_iff_ne_zero]
  | some l => by_cases h : ivLen.toNat = 0 <;> by_cases h' : ivLimit ≤ ivLen.toNat <;> simp [h, h']

theorem firstFailing_aadChecks (n : BitVec 64) (b : Buffer) :
    firstFailing (aadChecks n b) = if (b = none ∧ 0 < n.toNat) ∨ aadLimit ≤ n.toNat then some .badInput else none := by
  simp only [aadChecks, firstFailing]
  cases b <;> by_cases h : 0 < n.toNat <;> by_cases h' : aadLimit ≤ n.toNat <;> simp [h, h']

theorem firstFailing_inputChecks (already : Nat) (n : BitVec 64) (b : Buffer) :
    firstFailing (inputChecks already n b) =
      if (b = none ∧ 0 < n.toNat) ∨ maxDataBytes < already + n.toNat then some .badInput else none := by
  simp only [inputChecks, firstFailing]
  cases b <;> by_cases h : 0 < n.toNat <;> by_cases h' : maxDataBytes < already + n.toNat <;> simp [h, h']

theorem firstFailing_tagLenChecks (n : BitVec 32) :
    firstFailing (tagLenChecks n) = if n.toNat < tagMin ∨ tagMax < n.toNat then some .badInput else none := by
  simp only [tagLenChecks, firstFailing]
  by_cases h : n.toNat < tagMin <;> by_cases h' : tagMax < n.toNat <;> simp [h, h']

theorem firstFailing_tagChecks (tag : Buffer) :
    firstFailing (tagChecks tag) = if tag = none then some .badInput else none := by
  cases tag <;> rfl

theorem keyBitsSupported_iff (k : BitVec 32) : keyBitsSupported k = true ↔ k = 128 ∨ k = 192 ∨ k = 256 := by
  simp [keyBitsSupported, or_assoc]

/-! ## The state checks -/

theorem keyedCheck_pass {c : Context} (h : c.msgState ≠ .init) : keyedCheck c = (false, .invalidState) := by
  simp [keyedCheck, h]

theorem keyedCheck_fail {c : Context} (h : c.msgState = .init) : keyedCheck c = (true, .invalidState) := by
  simp [keyedCheck, h]

theorem beforeAadCheck_pass {c : Context} (h : c.msgState = .started) (h' : c.adDone = false) :
    beforeAadCheck c = (false, .invalidState) := by
  simp [beforeAadCheck, h, h']

theorem beforeAadCheck_fail {c : Context} (h : c.msgState ≠ .started ∨ c.adDone = true) :
    beforeAadCheck c = (true, .invalidState) := by
  rcases h with h | h <;> simp [beforeAadCheck, h]

theorem inMessageCheck_pass {c : Context} (h : c.msgState = .started ∨ c.msgState = .updating) :
    inMessageCheck c = (false, .invalidState) := by
  rcases h with h | h <;> simp [inMessageCheck, h]

theorem inMessageCheck_fail {c : Context} (h : c.msgState ≠ .started) (h' : c.msgState ≠ .updating) :
    inMessageCheck c = (true, .invalidState) := by
  simp [inMessageCheck, h, h']

/-! ## Buffers and the key -/

/-- The duty that a command asks is the one of a well-formed instruction. -/
theorem holds_eq_carries (b : Buffer) (n : Nat) : holds b n = Buffer.carries b n := rfl

/-- A buffer that stands for `d`: the bytes themselves, or NULL for none. -/
theorem buffer_of_bytes {b : Buffer} {d : List Byte} {n : Nat} (h : b = none ∧ d = [] ∨ b = some d) (hl : d.length = n) :
    bufferBytes b = d ∧ holds b n = true ∧ (b = none → n = 0) := by
  rcases h with ⟨rfl, rfl⟩ | rfl
  · simp at hl; subst hl; simp [bufferBytes, holds]
  · simp [bufferBytes, holds, hl]

theorem sameKey_iff (keyBits : BitVec 32) (key : List Byte) (c : Context) :
    sameKey keyBits key c = true ↔
      c.keyValid = true ∧ c.keyBits.toNat = keyBits.toNat ∧ c.key.toList.take (keyBits.toNat / 8) = key := by
  simp only [sameKey, Bool.and_eq_true, beq_iff_eq]
  exact and_assoc

theorem padKey_getElem {key : List Byte} {i : Nat} (hi : i < 32) : (padKey key)[i] = key.getD i 0 := by
  show ((key ++ zeroBytes 32).take 32)[i]'(by simp [zeroBytes]; omega) = _
  rw [List.getElem_take, List.getElem_append]
  split
  · rename_i h2; simp [List.getD_eq_getElem?_getD, h2]
  · rename_i h2
    simp only [zeroBytes, List.getElem_replicate, List.getD_eq_getElem?_getD]
    rw [List.getElem?_eq_none (by omega)]; rfl

/-- The bytes of a key that is in KEY. -/
theorem padKey_take {key : List Byte} (h : key.length ≤ 32) : (padKey key).toList.take key.length = key := by
  show ((key ++ zeroBytes 32).take 32).take key.length = key
  rw [List.take_take, Nat.min_eq_left h, List.take_left]

end Sys2Proof.Machine
end

