-- ==== Sys2Proof/Laws/OneShot.lean ====
section
/-! SUPPORT. The checks of the one-shots, and the comparison of tags. -/

namespace Sys2Proof.Machine

theorem ite_or_ite (p q : Prop) [Decidable p] [Decidable q] (x : Status) :
    (if p then some x else none).or (if q then some x else none) = if p ∨ q then some x else none := by
  by_cases hp : p <;> by_cases hq : q <;> simp [hp, hq]

/-- The first check of a one-shot that fails, once the state check has passed: they all have one status. -/
theorem firstFailing_oneShotChecks {c : Context} (h : c.msgState ≠ .init) (ivLen : BitVec 64) (iv : Buffer) (aadLen : BitVec 64)
    (aad : Buffer) (len : BitVec 64) (input : Buffer) (tagLen : BitVec 32) :
    firstFailing (oneShotChecks ivLen iv aadLen aad len input tagLen c) =
      if (iv = none ∨ ivLen.toNat = 0 ∨ ivLimit ≤ ivLen.toNat) ∨ ((aad = none ∧ 0 < aadLen.toNat) ∨ aadLimit ≤ aadLen.toNat) ∨
          ((input = none ∧ 0 < len.toNat) ∨ maxDataBytes < len.toNat) ∨ (tagLen.toNat < tagMin ∨ tagMax < tagLen.toNat)
      then some .badInput else none := by
  rw [oneShotChecks, keyedCheck_pass h, firstFailing_false, firstFailing_append, firstFailing_append, firstFailing_append,
    firstFailing_ivChecks, firstFailing_aadChecks, firstFailing_inputChecks, firstFailing_tagLenChecks, Nat.zero_add]
  simp only [ite_or_ite, or_assoc]

/-- All that the accumulated difference says. -/
theorem tagDifference_eq_zero (check tag : List Byte) (t : Nat) :
    tagDifference check tag t = 0 ↔ ∀ i, i < t → check.getD i 0 = tag.getD i 0 := by
  unfold tagDifference
  induction t with
  | zero => simp
  | succ t ih =>
    have hor : ∀ a b : Byte, a ||| b = 0 ↔ a = 0 ∧ b = 0 := fun a b => BitVec.or_eq_zero_iff
    have hxor : ∀ a b : Byte, a ^^^ b = 0 ↔ a = b := fun a b => BitVec.xor_eq_zero_iff
    rw [List.range_succ, List.foldl_append, List.foldl_cons, List.foldl_nil, hor, ih, hxor]
    constructor
    · rintro ⟨h, h'⟩ i hi
      by_cases e : i = t
      · subst e; exact h'
      · exact h i (by omega)
    · intro h; exact ⟨fun i hi => h i (by omega), h t (by omega)⟩

end Sys2Proof.Machine
end

