-- ==== Sys2Proof/Laws/PerInstr.lean ====
section
/-! SUPPORT. Statements for all instructions, one lemma per constructor. -/

namespace Sys2Proof.Laws.EncodedWord

/-- Commands have a command word and datapath operations have none (30_encoding.md R110); a command word has RSV = 0, an opcode in
0x01..0x07, and MODE = 0 but for the opcodes 0x02 and 0x06 (R101, R105). -/
def Statement (i : Instr) : Prop :=
  (encode i).isSome = i.isCommand ∧
  ∀ w r, encode i = some (w, r) →
    reservedField w = 0 ∧ 1 ≤ (opcodeField w).toNat ∧ (opcodeField w).toNat ≤ 7 ∧
      (modeField w = true → opcodeField w = 0x02 ∨ opcodeField w = 0x06)

theorem of_word {i : Instr} {w : BitVec 32} {r : OperandRecord} (hi : i.isCommand = true) (h : encode i = some (w, r))
    (hw : reservedField w = 0 ∧ 1 ≤ (opcodeField w).toNat ∧ (opcodeField w).toNat ≤ 7 ∧
      (modeField w = true → opcodeField w = 0x02 ∨ opcodeField w = 0x06)) : Statement i := by
  refine ⟨by rw [h, hi]; rfl, fun w' r' h' => ?_⟩
  rw [h] at h'
  cases h'
  exact hw

theorem of_none {i : Instr} (hi : i.isCommand = false) (h : encode i = none) : Statement i :=
  ⟨by rw [h, hi]; rfl, fun w r h' => by rw [h] at h'; cases h'⟩

theorem setKey (keyBits : BitVec 32) (key : Buffer) : Statement (.setKey keyBits key) := of_word rfl rfl (by decide)

theorem start (mode : Mode) (ivLen : BitVec 64) (iv : Buffer) : Statement (.start mode ivLen iv) :=
  of_word rfl rfl (by cases mode <;> decide)

theorem updateAd (aadLen : BitVec 64) (aad : Buffer) : Statement (.updateAd aadLen aad) := of_word rfl rfl (by decide)

theorem update (len : BitVec 64) (input : Buffer) : Statement (.update len input) := of_word rfl rfl (by decide)

theorem finish (tagLen : BitVec 32) : Statement (.finish tagLen) := of_word rfl rfl (by decide)

theorem cryptAndTag (mode : Mode) (ivLen : BitVec 64) (iv : Buffer) (aadLen : BitVec 64) (aad : Buffer) (len : BitVec 64)
    (input : Buffer) (tagLen : BitVec 32) : Statement (.cryptAndTag mode ivLen iv aadLen aad len input tagLen) :=
  of_word rfl rfl (by cases mode <;> decide)

theorem authDecrypt (ivLen : BitVec 64) (iv : Buffer) (aadLen : BitVec 64) (aad : Buffer) (len : BitVec 64) (input : Buffer)
    (tagLen : BitVec 32) (tag : Buffer) : Statement (.authDecrypt ivLen iv aadLen aad len input tagLen tag) :=
  of_word rfl rfl (by decide)

theorem buildTables (h : Block) : Statement (.buildTables h) := of_none rfl rfl

theorem gfMult (x : Block) : Statement (.gfMult x) := of_none rfl rfl

theorem ghashUpdate (d : List Byte) (a : Block) : Statement (.ghashUpdate d a) := of_none rfl rfl

theorem ghashAbsorb (c : Byte) : Statement (.ghashAbsorb c) := of_none rfl rfl

theorem ghashFlush : Statement .ghashFlush := of_none rfl rfl

theorem deriveJ0 (iv : List Byte) : Statement (.deriveJ0 iv) := of_none rfl rfl

theorem inc32 (c : Block) : Statement (.inc32 c) := of_none rfl rfl

theorem ctrCrypt (d : List Byte) : Statement (.ctrCrypt d) := of_none rfl rfl

theorem ctrSingleBlock (j x : Block) : Statement (.ctrSingleBlock j x) := of_none rfl rfl

theorem tagCompare (check tag : List Byte) (t : BitVec 32) : Statement (.tagCompare check tag t) := of_none rfl rfl

end Sys2Proof.Laws.EncodedWord
end

