-- ==== Sys2Proof/Laws/Port.lean ====
section
/-! SUPPORT. The port: all that DECODE accepts, and all that a step can be. -/

namespace Sys2Proof.Machine

/-- DECODE gives commands only. -/
theorem decode_isCommand {w : BitVec 32} {r : OperandRecord} {i : Instr} (h : decode w r = .ok i) : i.isCommand = true := by
  unfold decode at h
  split_ifs at h <;> cases h <;> rfl

/-- The state in which a transaction on the port is taken. -/
def State.taking (s : State) (t : Transaction) (ts : List Transaction) (rest : List PortEvent) : State :=
  { s with stream := afterFirst ts rest, active := t.context }

theorem fetch_issue {s : State} {t : Transaction} {ts : List Transaction} {rest : List PortEvent}
    (h : s.stream = .issue (t :: ts) :: rest) (hd : distinctContexts (t :: ts) = true) :
    fetch s = (s.taking t ts rest).take t := by
  simp [fetch, h, hd, State.taking]

/-- All that a step can be: nothing on the port; a context created or dropped; an empty batch; an illegal word answered; a command run. -/
theorem step_next_cases {s t : State} (h : step s = .next t) :
    (s.stream = [] ∧ t = s) ∨
    (∃ id slot rest, id < Config.numContexts ∧ (slot = none ∨ slot = some Context.reset) ∧
      (s.stream = .create id :: rest ∨ s.stream = .drop id :: rest) ∧
      t = { s with contexts := storeSlot s.contexts id slot, stream := rest, response := none }) ∨
    (∃ rest, s.stream = .issue [] :: rest ∧ t = { s with stream := rest, response := none }) ∨
    (∃ x ts rest, s.stream = .issue (x :: ts) :: rest ∧ distinctContexts (x :: ts) = true ∧
      ((∃ e c, decode x.cmd x.operands = .error e ∧ (s.taking x ts rest).current = some c ∧
          t = (s.taking x ts rest).respond c (failed .illegalCommand)) ∨
        (∃ i, decode x.cmd x.operands = .ok i ∧ i.isCommand = true ∧ exec i (s.taking x ts rest) = .next t))) := by
  have hrep : ∀ {id slot rest}, s.replaceContext id slot rest = .over t → id < Config.numContexts ∧
      t = { s with contexts := storeSlot s.contexts id slot, stream := rest, response := none } := by
    intro id slot rest hx
    unfold State.replaceContext at hx
    split at hx
    · rename_i hid; cases hx; exact ⟨hid, rfl⟩
    · cases hx
  have hrep' : ∀ {id slot rest i u}, s.replaceContext id slot rest ≠ .run i u := by
    intro id slot rest i u hx
    unfold State.replaceContext at hx
    split at hx <;> cases hx
  have hrep'' : ∀ {id slot rest}, s.replaceContext id slot rest ≠ .idle := by
    intro id slot rest hx
    unfold State.replaceContext at hx
    split at hx <;> cases hx
  unfold step at h
  cases hs : s.stream with
  | nil =>
    have hf : fetch s = .idle := by simp [fetch, hs]
    rw [hf] at h; cases h
    exact .inl ⟨rfl, rfl⟩
  | cons e rest =>
    cases e with
    | create id =>
      have hf : fetch s = s.replaceContext id (some Context.reset) rest := by simp [fetch, hs]
      rw [hf] at h
      split at h
      · rename_i hx; exact absurd hx hrep''
      · rename_i u hx; cases h
        obtain ⟨hid, ht⟩ := hrep hx
        exact .inr (.inl ⟨id, _, rest, hid, .inr rfl, .inl rfl, ht⟩)
      · rename_i i u hx; exact absurd hx hrep'
      · cases h
    | drop id =>
      have hf : fetch s = s.replaceContext id none rest := by simp [fetch, hs]
      rw [hf] at h
      split at h
      · rename_i hx; exact absurd hx hrep''
      · rename_i u hx; cases h
        obtain ⟨hid, ht⟩ := hrep hx
        exact .inr (.inl ⟨id, _, rest, hid, .inl rfl, .inr rfl, ht⟩)
      · rename_i i u hx; exact absurd hx hrep'
      · cases h
    | issue ts =>
      cases ts with
      | nil =>
        have hf : fetch s = .over { s with stream := rest, response := none } := by simp [fetch, hs]
        rw [hf] at h; cases h
        exact .inr (.inr (.inl ⟨rest, rfl, rfl⟩))
      | cons x ts =>
        by_cases hd : distinctContexts (x :: ts) = true
        · rw [fetch_issue hs hd] at h
          refine .inr (.inr (.inr ⟨x, ts, rest, rfl, hd, ?_⟩))
          unfold State.take at h
          cases hdec : decode x.cmd x.operands with
          | ok i =>
            rw [hdec] at h
            exact .inr ⟨i, rfl, decode_isCommand hdec, h⟩
          | error e =>
            rw [hdec] at h
            cases hc : (s.taking x ts rest).current with
            | none => rw [hc] at h; cases h
            | some c => rw [hc] at h; cases h; exact .inl ⟨e, c, rfl, rfl, rfl⟩
        · have hf : fetch s = .refuse .overlappingCommands := by simp [fetch, hs, hd]
          rw [hf] at h; cases h

end Sys2Proof.Machine
end

