-- ==== Sys2Proof/Tests/Slice0.lean ====
section
/-! SUPPORT. Tests: ill-formed terms, command words written out from 30_encoding.md, vectors of 95_test_vectors.md that hold for every
block cipher, and a witness for the hypotheses of every statement. -/

namespace Sys2Proof.Tests

open Sys2Proof Sys2Proof.Machine

/-! ## Helpers -/

/-- The `n` bytes of a number written in hex as the vectors write them, byte 0 first. -/
def hexBytes (n v : Nat) : List Byte := (List.range n).map fun i => BitVec.ofNat 8 (v / 256 ^ (n - 1 - i))

/-- The machine with one context, number 0, at `c`. -/
def stateWith (c : Context) : State := { State.reset with contexts := [(0, some c)] }

/-- The machine with a stream. -/
def stateOn (stream : List PortEvent) : State := { State.reset with stream := stream }

/-- The status an outcome shows. -/
def statusOf : Host.Outcome State Fault Refusal → Option Status
  | .next t => t.response.map (·.status)
  | _ => none

/-- The registers of context 0 in an outcome. -/
def contextOf : Host.Outcome State Fault Refusal → Option Context
  | .next t => lookupSlot t.contexts 0
  | _ => none

/-- OUT in an outcome. -/
def outOf : Host.Outcome State Fault Refusal → Option (List Byte)
  | .next t => t.response.map (·.out)
  | _ => none

/-- What a datapath operation handed back. -/
def resultOf : Host.Outcome State Fault Refusal → Option Result
  | .next t => t.result
  | _ => none

def h0 : Block := 0x66e94bd4ef8a2c3b884cfa59ca342b2e
def hKT : Block := 0xb83b533708bf535d0aa6e52980d53b78
def keyKT : List Byte := hexBytes 16 0xfeffe9928665731c6d6a8f9467308308
def iv3 : List Byte := hexBytes 12 0xcafebabefacedbaddecaf888
def iv5 : List Byte := hexBytes 8 0xcafebabefacedbad
def a4 : List Byte := hexBytes 20 0xfeedfacedeadbeeffeedfacedeadbeefabaddad2
def c4 : List Byte :=
  hexBytes 60 0x42831ec2217774244b7221b784d0d49ce3aa212f2c02a4e035c17e2329aca12e21d514b25466931c7d8f6a5aac84aa051ba30b396a0aac973d58e091
def t4 : List Byte := hexBytes 16 0x5bc94fbc3221a5db94fae95ae7121a47
def t4Flipped : List Byte := hexBytes 16 0x5bc94fbc3221a5db94fae95ae7121a46

/-- A context in KEYED with the tables of `h`. -/
def keyed (h : Block) : Context :=
  { Context.reset with
    msgState := .keyed, keyBits := 128, keyValid := true, hh := (buildTables h).1, hl := (buildTables h).2 }

/-- A context in STARTED with the tables of `h`, as START with IV3 leaves it. -/
def started (h : Block) : Context :=
  { keyed h with
    msgState := .started, mode := .encrypt
    j0 := 0xcafebabefacedbaddecaf88800000001, j0Orig := 0xcafebabefacedbaddecaf88800000001 }

/-- The context of program P2 after its step 4. -/
def afterSeven : Context :=
  { started hKT with
    msgState := .updating, acc := 0x8fc43cdeef87214ee4bb044c88150352, ghPend := 7
    j0 := 0xcafebabefacedbaddecaf88800000002, ks := 0x9bb22ce7d9f372c1ee2b28722b25f206, ksOff := 7
    aadLen := 20, adDone := true, dataLen := 7 }

/-! ## WellFormed: an ill-formed term for each check -/

theorem test_wf_set_key : (Instr.setKey 128 (some (zeroBytes 15))).wf = false ∧ (Instr.setKey 128 (some (zeroBytes 16))).wf = true := by
  decide
theorem test_wf_start : (Instr.start .encrypt 12 (some (zeroBytes 11))).wf = false ∧ (Instr.start .encrypt 12 none).wf = true := by
  decide
theorem test_wf_update_ad : (Instr.updateAd 1 (some [])).wf = false ∧ (Instr.updateAd 1 (some [7])).wf = true := by decide
theorem test_wf_update : (Instr.update 0 (some [1])).wf = false ∧ (Instr.update 1 (some [1])).wf = true := by decide
theorem test_wf_crypt_and_tag :
    (Instr.cryptAndTag .encrypt 1 (some []) 0 none 0 none 16).wf = false ∧
    (Instr.cryptAndTag .encrypt 1 (some [1]) 1 (some []) 0 none 16).wf = false ∧
    (Instr.cryptAndTag .encrypt 1 (some [1]) 1 (some [2]) 1 (some []) 16).wf = false ∧
    (Instr.cryptAndTag .encrypt 1 (some [1]) 1 (some [2]) 1 (some [3]) 16).wf = true := by
  decide
theorem test_wf_auth_decrypt :
    (Instr.authDecrypt 1 (some []) 0 none 0 none 4 none).wf = false ∧
    (Instr.authDecrypt 1 none 1 (some []) 0 none 4 none).wf = false ∧
    (Instr.authDecrypt 1 none 1 none 1 (some []) 4 none).wf = false ∧
    (Instr.authDecrypt 1 none 1 none 1 none 4 (some [1])).wf = false ∧
    (Instr.authDecrypt 1 none 1 none 1 none 4 (some [1, 2, 3, 4])).wf = true := by
  decide
theorem test_wf_derive_j0 :
    (Instr.deriveJ0 []).wf = false ∧ (Instr.deriveJ0 [1]).wf = true ∧
    (Instr.deriveJ0 (List.replicate (2 ^ 29) 0)).wf = false := by
  refine ⟨by decide, by decide, ?_⟩
  simp only [Instr.wf, List.length_replicate]
  decide
theorem test_wf_tag_compare :
    (Instr.tagCompare (zeroBytes 16) (zeroBytes 16) 3).wf = false ∧ (Instr.tagCompare (zeroBytes 17) (zeroBytes 17) 17).wf = false ∧
    (Instr.tagCompare (zeroBytes 4) (zeroBytes 16) 5).wf = false ∧ (Instr.tagCompare (zeroBytes 16) (zeroBytes 4) 5).wf = false ∧
    (Instr.tagCompare (zeroBytes 4) (zeroBytes 4) 4).wf = true := by
  decide

/-! ## Command words (30_encoding.md R101, R105): bits 7..0 the opcode, bit 8 MODE, bits 31..9 zero -/

theorem test_decode_set_key (r : OperandRecord) : decode 0b00000000000000000000000000000001#32 r = .ok (.setKey r.keyBits r.key) := rfl
theorem test_decode_start_dec (r : OperandRecord) : decode 0b00000000000000000000000000000010#32 r = .ok (.start .decrypt r.ivLen r.iv) := rfl
theorem test_decode_start_enc (r : OperandRecord) : decode 0b00000000000000000000000100000010#32 r = .ok (.start .encrypt r.ivLen r.iv) := rfl
theorem test_decode_update_ad (r : OperandRecord) : decode 0b00000000000000000000000000000011#32 r = .ok (.updateAd r.aadLen r.aad) := rfl
theorem test_decode_update (r : OperandRecord) : decode 0b00000000000000000000000000000100#32 r = .ok (.update r.len r.input) := rfl
theorem test_decode_finish (r : OperandRecord) : decode 0b00000000000000000000000000000101#32 r = .ok (.finish r.tagLen) := rfl
theorem test_decode_crypt_and_tag_dec (r : OperandRecord) : decode 0b00000000000000000000000000000110#32 r =
    .ok (.cryptAndTag .decrypt r.ivLen r.iv r.aadLen r.aad r.len r.input r.tagLen) := rfl
theorem test_decode_crypt_and_tag_enc (r : OperandRecord) : decode 0b00000000000000000000000100000110#32 r =
    .ok (.cryptAndTag .encrypt r.ivLen r.iv r.aadLen r.aad r.len r.input r.tagLen) := rfl
theorem test_decode_auth_decrypt (r : OperandRecord) : decode 0b00000000000000000000000000000111#32 r =
    .ok (.authDecrypt r.ivLen r.iv r.aadLen r.aad r.len r.input r.tagLen r.tag) := rfl
/-- The illegal rows of L2.6: opcode 0, above 7, MODE on SET_KEY, UPDATE and AUTH_DECRYPT, bits 9 and 31. -/
theorem test_decode_illegal (r : OperandRecord) :
    decode 0x00000000 r = .error .unknownOpcode ∧ decode 0x00000008 r = .error .unknownOpcode ∧
    decode 0x000000ff r = .error .unknownOpcode ∧ decode 0x00000101 r = .error .modeBit ∧ decode 0x00000104 r = .error .modeBit ∧
    decode 0x00000107 r = .error .modeBit ∧ decode 0x00000206 r = .error .reservedBits ∧
    decode 0x80000001 r = .error .reservedBits := ⟨rfl, rfl, rfl, rfl, rfl, rfl, rfl, rfl⟩
theorem test_encode_auth_decrypt :
    (encode (.authDecrypt 12 (some iv3) 0 none 1 (some [9]) 4 (some [1, 2, 3, 4]))).map (·.1) = some 0x00000007 := by decide
/-- The table numbers bit 0 as the least significant bit of the word. -/
theorem test_table_word :
    decodeTableWord 32 0x00000102 = some (.start .encrypt 0 none) ∧ decodeTableWord 32 0x00000005 = some (.finish 0) ∧
    decodeTableWord 32 0x00000104 = none := by decide

/-! ## Vectors -/

/-- L2.4: SET_KEY 64, NULL gives 3, since KEY_BITS is checked first; SET_KEY 128, NULL gives 1. -/
theorem test_set_key_statuses :
    statusOf (exec (.setKey 64 none) State.reset) = some .unsupportedKeyLength ∧
    statusOf (exec (.setKey 128 none) State.reset) = some .badInput := by decide
/-- L2.4: SET_KEY 128, KT from reset gives 0, STATE 1, KEY = KT followed by 0^16. -/
theorem test_set_key_writes :
    statusOf (exec (.setKey 128 (some keyKT)) State.reset) = some .ok ∧
    (contextOf (exec (.setKey 128 (some keyKT)) State.reset)).map (fun c => (c.msgState, c.keyBits, c.keyValid, c.key.toList)) =
      some (.keyed, 128, true, keyKT ++ zeroBytes 16) := by decide +kernel
/-- L2.4: START.ENC 12, IV3 from KEYED. -/
theorem test_start_writes :
    (contextOf (exec (.start .encrypt 12 (some iv3)) (stateWith { keyed hKT with acc := 7, ghPend := 3, ksOff := 5 }))) =
      some (started hKT) := by decide +kernel
/-- L2.7: START.ENC 0, NULL in INIT gives 2; L2.2: START 5, NULL in KEYED gives 1. -/
theorem test_start_statuses :
    statusOf (exec (.start .encrypt 0 none) State.reset) = some .invalidState ∧
    statusOf (exec (.start .encrypt 5 none) (stateWith (keyed hKT))) = some .badInput := by decide +kernel
/-- L2.4: UPDATE_AD 20, A4 after START.ENC 12, IV3. -/
theorem test_update_ad_hashes :
    contextOf (exec (.updateAd 20 (some a4)) (stateWith (started hKT))) =
      some { started hKT with acc := 0xcd47221ccef0554ee4bb044c88150352, aadLen := 20, adDone := true } := by decide +kernel
/-- L2.4: UPDATE_AD 5, NULL gives 1; L2.7: with AD_DONE it gives 2. -/
theorem test_update_ad_statuses :
    statusOf (exec (.updateAd 5 none) (stateWith (started hKT))) = some .badInput ∧
    statusOf (exec (.updateAd 5 none) (stateWith { started hKT with adDone := true })) = some .invalidState := by decide +kernel
/-- L2.3, P2 step 5: the first five bytes of the second UPDATE. -/
theorem test_update_goes_on :
    outOf (exec (.update 5 (some (hexBytes 5 0xe5a55909c5))) (stateWith afterSeven)) = some (hexBytes 5 0x244b7221b7) ∧
    (contextOf (exec (.update 5 (some (hexBytes 5 0xe5a55909c5))) (stateWith afterSeven))).map
      (fun c => (c.ksOff, c.ghPend, c.dataLen, c.j0)) = some (12, 12, 12, 0xcafebabefacedbaddecaf88800000002) := by decide +kernel
/-- L2.4: UPDATE 3, NULL in STARTED gives 1; UPDATE 0, NULL gives 0, J0 ..00000002, STATE 3, and ACC stays 0^16. -/
theorem test_update_empty :
    statusOf (exec (.update 3 none) (stateWith (started hKT))) = some .badInput ∧
    contextOf (exec (.update 0 none) (stateWith (started hKT))) =
      some { started hKT with msgState := .updating, j0 := 0xcafebabefacedbaddecaf88800000002 } := by decide +kernel
/-- L2.4, P2 step 7: FINISH after 20 bytes of AAD and 60 bytes of payload leaves ACC 698e57f7.., GH_PEND 0. -/
theorem test_finish_hashes :
    (contextOf (exec (.finish 16)
      (stateWith { afterSeven with acc := 0xd1dedf7fc5400b9bfe982dcbbba6aa1c, ghPend := 12, dataLen := 60 }))).map
      (fun c => (c.msgState, c.acc, c.ghPend)) = some (.finished, 0x698e57f70e6ecc7fd9463b7260a9ae5f, 0) := by decide +kernel
/-- L2.4: FINISH 3 and FINISH 17 in STARTED give 1, FINISH 3 in KEYED gives 2. -/
theorem test_finish_statuses :
    statusOf (exec (.finish 3) (stateWith (started hKT))) = some .badInput ∧
    statusOf (exec (.finish 17) (stateWith (started hKT))) = some .badInput ∧
    statusOf (exec (.finish 3) (stateWith (keyed hKT))) = some .invalidState := by decide +kernel
/-- L2.5 and L2.7: with TAG_LEN 3, from INIT 2; R250: from KEYED with IV_LEN 0 and no IV too, 1. -/
theorem test_crypt_and_tag_statuses :
    statusOf (exec (.cryptAndTag .encrypt 12 (some iv3) 20 (some a4) 60 (some c4) 3) State.reset) = some .invalidState ∧
    statusOf (exec (.cryptAndTag .encrypt 0 none 20 (some a4) 60 (some c4) 3) (stateWith (keyed hKT))) = some .badInput := by
  decide +kernel
/-- R81, D7: a buffer of the wrong length is refused also where a check would fail, as UPDATE does in KEYED and SET_KEY 64 on its
KEY_BITS; and where none would, as a TAG of 15 bytes. -/
theorem test_broken_duty :
    exec (.update 5 (some [1, 2, 3])) (stateWith (keyed hKT)) = .refused .operandLength ∧
    exec (.setKey 64 (some keyKT)) State.reset = .refused .operandLength ∧
    exec (.authDecrypt 12 (some iv3) 0 none 0 none 16 (some (zeroBytes 15))) (stateWith (keyed hKT)) = .refused .operandLength := by
  exact ⟨rfl, rfl, rfl⟩
/-- L2.4 with R251: the message with AAD alone leaves ACC 06232cb6... -/
theorem test_crypt_and_tag_hashes :
    contextOf (exec (.cryptAndTag .encrypt 12 (some iv3) 20 (some a4) 0 none 16) (stateWith (keyed hKT))) =
      some { started hKT with
        msgState := .finished, acc := 0x06232cb66d9aa4a8153b3e4b64202462, aadLen := 20, adDone := true
        j0 := 0xcafebabefacedbaddecaf88800000002 } := by decide +kernel
/-- L2.5: TAG NULL gives 1 in KEYED and 2 in INIT. -/
theorem test_auth_decrypt_statuses :
    statusOf (exec (.authDecrypt 12 (some iv3) 20 (some a4) 60 (some c4) 16 none) (stateWith (keyed hKT))) = some .badInput ∧
    statusOf (exec (.authDecrypt 12 (some iv3) 20 (some a4) 60 (some c4) 16 none) State.reset) = some .invalidState := by
  decide +kernel
/-- L2.5: after AUTH_DECRYPT of TC4 the context holds STATE 4, MODE 0, ACC 698e57f7.., J0 IV3 00000005, KS_OFF 12, the lengths 20 and 60. -/
theorem test_auth_decrypt_writes :
    (contextOf (exec (.authDecrypt 12 (some iv3) 20 (some a4) 60 (some c4) 16 (some t4Flipped)) (stateWith (keyed hKT)))).map
      (fun c => ((c.msgState, c.mode, c.acc), (c.j0, c.ksOff), (c.aadLen, c.dataLen))) =
      some ((.finished, .decrypt, 0x698e57f70e6ecc7fd9463b7260a9ae5f), (0xcafebabefacedbaddecaf88800000005, 12), (20, 60)) := by
  decide +kernel

/-- L2.1: BUILD_TABLES(H0). -/
theorem test_build_tables :
    resultOf (exec (.buildTables h0) State.reset) = some (.tables
      #v[0x0000000000000000, 0x9d5d297a9df14587, 0xf8ba52f53be28b0e, 0x65e77b8fa613ce89,
         0x3374a5ea77c5161d, 0xae298c90ea34539a, 0xcbcef71f4c279d13, 0x5693de65d1d6d894,
         0x66e94bd4ef8a2c3b, 0xfbb462ae727b69bc, 0x9e531921d468a735, 0x030e305b4999e2b2,
         0x559dee3e984f3a26, 0xc8c0c74405be7fa1, 0xad27bccba3adb128, 0x307a95b13e5cf4af]
      #v[0x0000000000000000, 0x71099f4b39468565, 0xe2133e96728d0acb, 0x931aa1dd4bcb8fae,
         0xc4267d2ce51a1597, 0xb52fe267dc5c90f2, 0x263543ba97971f5c, 0x573cdcf1aed19a39,
         0x884cfa59ca342b2e, 0xf9456512f372ae4b, 0x6a5fc4cfb8b921e5, 0x1b565b8481ffa480,
         0x4c6a87752f2e3eb9, 0x3d63183e1668bbdc, 0xae79b9e35da33472, 0xdf7026a864e5b117]) := by
  decide +kernel
/-- L2.1: the ciphertext block of TC2 under H0, and every nibble 15. -/
theorem test_gf_mult :
    resultOf (exec (.gfMult 0x0388dace60b6a392f328c2b971b2fe78) (stateWith (keyed h0))) =
      some (.block 0x5e2ec746917062882c85b0685353deb7) ∧
    resultOf (exec (.gfMult 0xffffffffffffffffffffffffffffffff) (stateWith (keyed h0))) =
      some (.block 0xcb2dc6f0b950f18d9e396c7438025a0c) := by decide +kernel
/-- L2.1: x^127 squared, by the reference product. -/
theorem test_gf_mul_ref : gfMulRef 1 1 = 0xe6080000000000000000000000000003 := by decide +kernel
/-- L2.1: one full block and a partial block; and empty data. -/
theorem test_ghash_update :
    resultOf (exec (.ghashUpdate (hexBytes 17 1) 0) (stateWith (keyed h0))) = some (.block 0x6575d297a9df1458771099f4b3946856) ∧
    resultOf (exec (.ghashUpdate [] 0xffffffffffffffffffffffffffffffff) (stateWith (keyed h0))) =
      some (.block 0xffffffffffffffffffffffffffffffff) := by decide +kernel
/-- L2.1: the first byte of C4 changes byte 0 of ACC alone. -/
theorem test_ghash_absorb_inside :
    contextOf (exec (.ghashAbsorb 0x42) (stateWith { started hKT with acc := 0xcd47221ccef0554ee4bb044c88150352 })) =
      some { started hKT with acc := 0x8f47221ccef0554ee4bb044c88150352, ghPend := 1 } := by decide +kernel
/-- L2.1: from 80 0^15, a block of zeros whose last byte is taken gives H0. -/
theorem test_ghash_absorb_block :
    contextOf (exec (.ghashAbsorb 0) (stateWith { started h0 with acc := 0x80000000000000000000000000000000, ghPend := 15 })) =
      some { started h0 with acc := h0, ghPend := 0 } := by decide +kernel
/-- L2.1: a partial block 80 is multiplied once; with GH_PEND = 0 nothing is written. -/
theorem test_ghash_flush :
    contextOf (exec .ghashFlush (stateWith { started h0 with acc := 0x80000000000000000000000000000000, ghPend := 1 })) =
      some { started h0 with acc := h0, ghPend := 0 } ∧
    contextOf (exec .ghashFlush (stateWith { started h0 with acc := 5 })) = some { started h0 with acc := 5 } := by decide +kernel
/-- L2.2: the fast path, and IV5 under KT. -/
theorem test_derive_j0 :
    resultOf (exec (.deriveJ0 iv3) State.reset) = some (.block 0xcafebabefacedbaddecaf88800000001) ∧
    resultOf (exec (.deriveJ0 iv5) (stateWith (keyed hKT))) = some (.block 0xc43a83c4c4badec4354ca984db252f7d) := by decide +kernel
/-- L2.2: IVW, whose J0 makes the counter wrap, and 13 bytes of zeros under K0. -/
theorem test_derive_j0_general :
    resultOf (exec (.deriveJ0 (hexBytes 16 0x1f33f5b2a5cf30900d18d1c0444a7ec7)) (stateWith (keyed hKT))) = some (.block 0xfffffffe) ∧
    resultOf (exec (.deriveJ0 (zeroBytes 13)) (stateWith (keyed h0))) = some (.block 0x488a5cc702d1b357784a0f72750cd938) := by
  decide +kernel
/-- L2.3: the wrap stays in the last four bytes. -/
theorem test_inc32 :
    resultOf (exec (.inc32 0xcafebabefacedbaddecaf888ffffffff) State.reset) = some (.block 0xcafebabefacedbaddecaf88800000000) ∧
    resultOf (exec (.inc32 0xffffffffffffffffffffffff7fffffff) State.reset) = some (.block 0xffffffffffffffffffffffff80000000) := by
  decide +kernel
/-- L2.3: the keystream left in KS goes on. -/
theorem test_ctr_crypt :
    resultOf (exec (.ctrCrypt (hexBytes 5 0xe5a55909c5)) (stateWith afterSeven)) = some (.bytes (hexBytes 5 0x244b7221b7)) ∧
    contextOf (exec (.ctrCrypt (hexBytes 5 0xe5a55909c5)) (stateWith afterSeven)) = some { afterSeven with ksOff := 12 } := by
  decide +kernel
/-- L2.3, R181: a block ends with the 16th byte, and the counter goes on. -/
theorem test_ctr_crypt_ends_block :
    (contextOf (exec (.ctrCrypt (zeroBytes 9)) (stateWith afterSeven))).map (fun c => (c.ksOff, c.j0, c.ks)) =
      some (0, 0xcafebabefacedbaddecaf88800000003, 0x9bb22ce7d9f372c1ee2b28722b25f206) := by decide +kernel
/-- R183, L2.3 (TC1): with S = 0^16 the block is E(K, J0_ORIG). -/
theorem test_ctr_single_block :
    resultOf (exec (.ctrSingleBlock 1 0) (stateWith (keyed h0))) =
      some (.block (Config.blockCipher (zeroBytes 16) 1 ^^^ 0)) := rfl
/-- L2.5: the last byte differs, so 16 bytes do and 15 do not. -/
theorem test_tag_compare :
    resultOf (exec (.tagCompare t4 t4Flipped 16) State.reset) = some (.truth false) ∧
    resultOf (exec (.tagCompare t4 t4Flipped 15) State.reset) = some (.truth true) := by decide +kernel
/-- R160, R256: operands outside the rules. -/
theorem test_operand_domains :
    exec (.deriveJ0 []) State.reset = .refused .operandDomain ∧ exec (.tagCompare t4 t4 3) State.reset = .refused .operandDomain := by
  exact ⟨rfl, rfl⟩

/-! ## Steps -/

/-- L2.7: 0x00000104 gives 5 with any operands and writes nothing. -/
theorem test_step_illegal :
    statusOf (step { stateWith afterSeven with stream := [.issue [⟨0, 0x00000104, OperandRecord.zero⟩]] }) = some .illegalCommand ∧
    contextOf (step { stateWith afterSeven with stream := [.issue [⟨0, 0x00000104, OperandRecord.zero⟩]] }) = some afterSeven := by
  decide +kernel
/-- L2.8: from reset START, UPDATE_AD, UPDATE, FINISH, CRYPT_AND_TAG and AUTH_DECRYPT give 2; operands of zeros. -/
theorem test_step_from_reset :
    [0x002, 0x102, 0x003, 0x004, 0x005, 0x006, 0x106, 0x007].map (fun w => statusOf (step (State.reset.withFetchWord 32 w))) =
      List.replicate 8 (some .invalidState) ∧
    statusOf (step (State.reset.withFetchWord 32 0x001)) = some .unsupportedKeyLength := by decide +kernel
/-- With nothing on the port the machine stays. -/
theorem test_step_idle : step State.reset = .next State.reset := rfl
/-- R320, R323: a context created again is reset, a dropped one is not there. -/
theorem test_step_contexts :
    contextOf (step { stateWith afterSeven with stream := [.create 0] }) = some Context.reset ∧
    contextOf (step { stateWith afterSeven with stream := [.drop 0] }) = none := by decide +kernel
/-- Log 6: dropping a context that is dropped already is a step that leaves it dropped. -/
theorem test_step_drop_again :
    step { State.reset with contexts := [(0, none)], stream := [.drop 0] } = .next { State.reset with contexts := [(0, none)] } := rfl

/-! ## Witnesses: for each statement with hypotheses, a state and operands that meet them, clause by clause at the ends of its ranges -/

/-- A context that keeps the invariants, in STARTED under the all-zero key, whatever the cipher. -/
def startedInv : Context :=
  { Context.reset with
    msgState := .started, keyBits := 128, keyValid := true
    hh := (buildTables (Config.blockCipher (zeroBytes 16) 0)).1, hl := (buildTables (Config.blockCipher (zeroBytes 16) 0)).2 }

theorem current_stateWith (c : Context) : (stateWith c).current = some c := rfl

theorem reset_current : State.reset.current = some Context.reset := rfl

theorem startedInv_inv : startedInv.Inv := by
  constructor <;> simp [startedInv, Context.reset]
  · rfl
  · intro i hi _
    have : ∀ i, (h : i < 32) → (Vector.mk (List.replicate 32 0#8).toArray (by rfl) : Vector Byte 32)[i] = 0#8 := by decide
    exact this i hi

/-- Byte sequences of every length; a long one is never written out. -/
theorem bytes_of_length (n : Nat) : ∃ l : List Byte, l.length = n := ⟨zeroBytes n, List.length_replicate⟩

/-- A buffer that meets the host's duty, for every length. -/
theorem carried_of_length (n : Nat) : ∃ l : List Byte, Buffer.carries (some l) n = true :=
  (bytes_of_length n).imp fun _ h => beq_iff_eq.mpr h

theorem resetContext_inv : Context.reset.Inv := by
  constructor <;> simp [Context.reset]

theorem witness_DecodeInvertsEncode : (Instr.setKey 7 none).isCommand = true ∧ (Instr.finish 0).isCommand = true := ⟨rfl, rfl⟩

theorem witness_AcceptedWordIsTheCommandsWord :
    decode 0x00000106 OperandRecord.zero = .ok (.cryptAndTag .encrypt 0 none 0 none 0 none 0) := rfl

theorem witness_IllegalWordsAreAnswered :
    (stateOn [.issue [⟨0, 0x00000104, OperandRecord.zero⟩, ⟨1, 5, OperandRecord.zero⟩], .create 0]).stream =
      .issue (⟨0, 0x00000104, OperandRecord.zero⟩ :: [⟨1, 5, OperandRecord.zero⟩]) :: [.create 0] ∧
    distinctContexts [⟨0, 0x00000104, OperandRecord.zero⟩, ⟨1, 5, OperandRecord.zero⟩] = true ∧
    (stateOn [.issue [⟨0, 0x00000104, OperandRecord.zero⟩, ⟨1, 5, OperandRecord.zero⟩], .create 0]).contextAt 0 = some Context.reset ∧
    decode 0x00000104 OperandRecord.zero = .error .modeBit := ⟨rfl, by decide, rfl, rfl⟩

theorem witness_BlocksAreTheirBytesBigEndian :
    (zeroBytes 16).length ≤ 16 ∧ ([] : List Byte).length ≤ 16 ∧ 0 < 16 ∧ 15 < 16 := by decide

theorem witness_StepRunsTheDecodedCommand :
    (stateOn [.issue [⟨0, 5, OperandRecord.zero⟩, ⟨1, 5, OperandRecord.zero⟩]]).stream =
      .issue (⟨0, 5, OperandRecord.zero⟩ :: [⟨1, 5, OperandRecord.zero⟩]) :: [] ∧
    distinctContexts [⟨0, 5, OperandRecord.zero⟩, ⟨1, 5, OperandRecord.zero⟩] = true ∧
    decode 5 OperandRecord.zero = .ok (.finish 0) := ⟨rfl, by decide, rfl⟩

theorem witness_OverlappingCommandsHaveNoStep :
    (stateOn [.issue [⟨0, 5, OperandRecord.zero⟩, ⟨1, 5, OperandRecord.zero⟩, ⟨0, 4, OperandRecord.zero⟩]]).stream =
      .issue ([] ++ ⟨0, 5, OperandRecord.zero⟩ :: [⟨1, 5, OperandRecord.zero⟩] ++ ⟨0, 4, OperandRecord.zero⟩ :: []) :: [] := rfl

theorem witness_ContextsAreCreatedAndDropped :
    0 < Config.numContexts ∧ (stateOn [.create 0]).stream = .create 0 :: [] ∧ (stateOn [.drop 0]).stream = .drop 0 :: [] :=
  ⟨numContexts_pos, rfl, rfl⟩

theorem witness_StepTouchesOneContext :
    (∃ t, step (stateOn [.create 0]) = .next t) ∧ eventContext (stateOn [.create 0]).stream ≠ some 1 ∧
    (∃ t, step (stateOn [.issue [⟨0, 5, OperandRecord.zero⟩]]) = .next t) ∧
    eventContext (stateOn [.issue [⟨0, 5, OperandRecord.zero⟩]]).stream ≠ some 1 :=
  ⟨⟨_, rfl⟩, by decide, ⟨_, rfl⟩, by decide⟩

theorem witness_InterleavingsOfContextsAgree :
    (∀ id, [⟨0, 5, OperandRecord.zero⟩, ⟨0, 4, OperandRecord.zero⟩].filter (fun x : Transaction => x.context == id) =
      [⟨0, 5, OperandRecord.zero⟩, ⟨0, 4, OperandRecord.zero⟩].filter (fun x : Transaction => x.context == id)) ∧
    ∃ p, runSteps 2 { State.reset with stream := issued [⟨0, 5, OperandRecord.zero⟩, ⟨0, 4, OperandRecord.zero⟩] } = some p :=
  ⟨fun _ => rfl, ⟨_, rfl⟩⟩

theorem witness_ResetValues : 0 < Config.numContexts := numContexts_pos

theorem witness_StepKeepsTheInvariants : (stateWith startedInv).Inv ∧ ∃ t, step (stateWith startedInv) = .next t := by
  refine ⟨⟨?_, fun id c h => ?_⟩, ⟨_, rfl⟩⟩
  · refine ⟨by simp [stateWith], fun e he => ?_⟩
    simp only [stateWith, List.mem_singleton] at he
    subst he
    intro h
    have := congrArg (fun c : Option Context => c.map (·.msgState)) h
    simp [startedInv, Context.reset] at this
  · by_cases hid : 0 = id
    · have hc : startedInv = c := by simpa [stateWith, lookupSlot, hid] using h
      exact hc ▸ startedInv_inv
    · have hc : Context.reset = c := by simpa [stateWith, lookupSlot, hid] using h
      exact hc ▸ resetContext_inv

theorem witness_CommandsFromReset :
    State.reset.current = some Context.reset ∧
    (zeroBytes 16).length = (128 : BitVec 32).toNat / 8 ∧ (zeroBytes 24).length = (192 : BitVec 32).toNat / 8 ∧
    (zeroBytes 32).length = (256 : BitVec 32).toNat / 8 ∧
    ((127 : BitVec 32) ≠ 128 ∧ (127 : BitVec 32) ≠ 192 ∧ (127 : BitVec 32) ≠ 256 ∧ (Instr.setKey 127 (some (zeroBytes 15))).wf = true) ∧
    ((Instr.finish 16).isCommand = true ∧ (Instr.finish 16).wf = true ∧ ∀ keyBits key, Instr.finish 16 ≠ .setKey keyBits key) :=
  ⟨rfl, by decide, by decide, by decide, by decide, rfl, rfl, fun _ _ h => by cases h⟩

theorem witness_TablesAreNibbleMultiples : (stateWith (keyed h0)).current = some (keyed h0) := rfl
theorem witness_GfMultIsHornersRule : (stateWith (keyed h0)).current = some (keyed h0) := rfl
theorem witness_GhashUpdateTakesPaddedBlocks : (stateWith (keyed h0)).current = some (keyed h0) := rfl
theorem witness_Inc32WrapsInTheLastFourBytes : State.reset.current = some Context.reset := rfl
theorem witness_CtrCryptClosedForm : (stateWith afterSeven).current = some afterSeven := rfl
theorem witness_CtrSingleBlockIsOneBlock : (stateWith (keyed h0)).current = some (keyed h0) := rfl

theorem witness_GhashAbsorbTakesOneByte :
    (stateWith { started h0 with ghPend := 15 }).current = some { started h0 with ghPend := 15 } ∧
    (stateWith { started h0 with ghPend := 14 }).current = some { started h0 with ghPend := 14 } ∧ (14 : Nibble) ≠ 15 :=
  ⟨rfl, rfl, by decide⟩

theorem witness_GhashFlushClosesTheBlock :
    (stateWith (started h0)).current = some (started h0) ∧ (started h0).ghPend = 0 ∧
    (stateWith { started h0 with ghPend := 1 }).current = some { started h0 with ghPend := 1 } ∧ (1 : Nibble) ≠ 0 :=
  ⟨rfl, rfl, rfl, by decide⟩

theorem witness_AbsorbThenFlushIsGhashUpdate : (started h0).ghPend = 0 := rfl

theorem witness_DeriveJ0ByIvLength :
    State.reset.current = some Context.reset ∧ (1 ≤ iv3.length ∧ iv3.length ≤ 2 ^ 29 - 1 ∧ iv3.length = 12) ∧
    (1 ≤ (zeroBytes 1).length ∧ (zeroBytes 1).length ≤ 2 ^ 29 - 1 ∧ (zeroBytes 1).length ≠ 12) ∧
    ∃ iv : List Byte, 1 ≤ iv.length ∧ iv.length ≤ 2 ^ 29 - 1 ∧ iv.length ≠ 12 := by
  obtain ⟨iv, h⟩ := bytes_of_length (2 ^ 29 - 1)
  exact ⟨rfl, by decide, by decide, iv, by omega, by omega, by omega⟩

theorem witness_KeystreamOfAMessage :
    (stateWith (started h0)).current = some (started h0) ∧ (started h0).msgState = .started ∧ (started h0).ksOff = 0 ∧
    (started h0).dataLen = 0 ∧ [hexBytes 7 1, [], hexBytes 25 2].flatten.length ≤ maxDataBytes := ⟨rfl, rfl, rfl, rfl, by decide⟩

theorem witness_PayloadCountersAreDistinct :
    maxDataBytes ≤ maxDataBytes ∧ 1 ≤ 1 ∧ 1 < 2 ^ 32 - 2 ∧ 2 ^ 32 - 2 ≤ 2 ^ 32 - 2 := by decide

theorem witness_SetKeyRule :
    (stateWith (keyed hKT)).current = some (keyed hKT) ∧
    ((129 : BitVec 32) ≠ 128 ∧ (129 : BitVec 32) ≠ 192 ∧ (129 : BitVec 32) ≠ 256 ∧ (Instr.setKey 129 (some (zeroBytes 16))).wf = true) ∧
    ((zeroBytes 16).length = (128 : BitVec 32).toNat / 8 ∧ (keyed hKT).keyValid = true ∧
      (keyed hKT).keyBits.toNat = (128 : BitVec 32).toNat ∧ (keyed hKT).key.toList.take ((128 : BitVec 32).toNat / 8) = zeroBytes 16) ∧
    ((zeroBytes 24).length = (192 : BitVec 32).toNat / 8 ∧ (keyed hKT).keyBits.toNat ≠ (192 : BitVec 32).toNat) ∧
    ((zeroBytes 32).length = (256 : BitVec 32).toNat / 8 ∧ (keyed hKT).keyBits.toNat ≠ (256 : BitVec 32).toNat) :=
  ⟨rfl, by decide, by decide, by decide, by decide⟩

theorem witness_StartRule :
    (State.reset.current = some Context.reset ∧ Context.reset.msgState = .init ∧ (Instr.start .encrypt 12 (some iv3)).wf = true) ∧
    ((stateWith (keyed hKT)).current = some (keyed hKT) ∧ (keyed hKT).msgState ≠ .init) ∧
    (Instr.start .encrypt 5 none).wf = true ∧ ((0 : BitVec 64).toNat = 0 ∧ (Instr.start .encrypt 0 (some [])).wf = true) ∧
    (2 ^ 29 ≤ (536870912 : BitVec 64).toNat ∧ ∃ iv, (Instr.start .encrypt 536870912 (some iv)).wf = true) ∧
    (1 ≤ (1 : BitVec 64).toNat ∧ (1 : BitVec 64).toNat < 2 ^ 29 ∧ (zeroBytes 1).length = (1 : BitVec 64).toNat) ∧
    (1 ≤ (536870911 : BitVec 64).toNat ∧ (536870911 : BitVec 64).toNat < 2 ^ 29 ∧
      ∃ iv : List Byte, iv.length = (536870911 : BitVec 64).toNat) :=
  ⟨⟨rfl, rfl, by decide⟩, ⟨rfl, by decide⟩, rfl, ⟨rfl, rfl⟩, ⟨by decide, carried_of_length _⟩, by decide, by decide, by decide,
    bytes_of_length _⟩

theorem witness_UpdateAdRule :
    ((stateWith (keyed hKT)).current = some (keyed hKT) ∧ (keyed hKT).msgState ≠ .started ∧
      (Instr.updateAd 20 (some a4)).wf = true) ∧
    ((stateWith { started hKT with adDone := true }).current = some { started hKT with adDone := true } ∧
      (Instr.updateAd 5 none).wf = true) ∧
    ((stateWith (started hKT)).current = some (started hKT) ∧ (started hKT).msgState = .started ∧ (started hKT).adDone = false) ∧
    (0 < (1 : BitVec 64).toNat ∧ (Instr.updateAd 1 none).wf = true) ∧
    (2 ^ 61 ≤ (2305843009213693952 : BitVec 64).toNat ∧ ∃ aad, (Instr.updateAd 2305843009213693952 (some aad)).wf = true) ∧
    (0 : BitVec 64).toNat = 0 ∧ ((0 : BitVec 64).toNat < 2 ^ 61 ∧ ([] : List Byte).length = (0 : BitVec 64).toNat) ∧
    ((2305843009213693951 : BitVec 64).toNat < 2 ^ 61 ∧
      ∃ aad : List Byte, aad.length = (2305843009213693951 : BitVec 64).toNat) :=
  ⟨⟨rfl, by decide, by decide⟩, ⟨rfl, rfl⟩, ⟨rfl, rfl, rfl⟩, ⟨by decide, rfl⟩, ⟨by decide, carried_of_length _⟩, rfl, ⟨by decide, rfl⟩,
    by decide, bytes_of_length _⟩

theorem witness_UpdateRule :
    ((stateWith (keyed hKT)).current = some (keyed hKT) ∧ (keyed hKT).msgState ≠ .started ∧ (keyed hKT).msgState ≠ .updating ∧
      (Instr.update 3 (some [1, 2, 3])).wf = true) ∧
    ((stateWith (started hKT)).current = some (started hKT) ∧ (started hKT).msgState = .started) ∧
    ((stateWith afterSeven).current = some afterSeven ∧ afterSeven.msgState = .updating) ∧
    (0 < (1 : BitVec 64).toNat ∧ (Instr.update 1 none).wf = true) ∧
    (2 ^ 36 - 32 < (started hKT).dataLen.toNat + (68719476705 : BitVec 64).toNat ∧
      ∃ d, (Instr.update 68719476705 (some d)).wf = true) ∧
    (([] : List Byte).length = (0 : BitVec 64).toNat ∧ (started hKT).dataLen.toNat + (0 : BitVec 64).toNat ≤ 2 ^ 36 - 32) ∧
    ((∃ d : List Byte, d.length = (68719476704 : BitVec 64).toNat) ∧
      (started hKT).dataLen.toNat + (68719476704 : BitVec 64).toNat ≤ 2 ^ 36 - 32) :=
  ⟨⟨rfl, by decide, by decide, rfl⟩, ⟨rfl, rfl⟩, ⟨rfl, rfl⟩, ⟨by decide, rfl⟩, ⟨by decide, carried_of_length _⟩, ⟨rfl, by decide⟩,
    bytes_of_length _, by decide⟩

theorem witness_FinishRule :
    ((stateWith (keyed hKT)).current = some (keyed hKT) ∧ (keyed hKT).msgState ≠ .started ∧ (keyed hKT).msgState ≠ .updating) ∧
    ((stateWith (started hKT)).current = some (started hKT) ∧ (started hKT).msgState = .started) ∧
    ((3 : BitVec 32).toNat < 4 ∧ 16 < (17 : BitVec 32).toNat) ∧
    (4 ≤ (4 : BitVec 32).toNat ∧ (4 : BitVec 32).toNat ≤ 16) ∧ (4 ≤ (16 : BitVec 32).toNat ∧ (16 : BitVec 32).toNat ≤ 16) :=
  ⟨⟨rfl, by decide, by decide⟩, ⟨rfl, rfl⟩, by decide, by decide, by decide⟩

theorem witness_TransitionTable :
    (Instr.finish 16).isCommand = true ∧ (Instr.finish 16).wf = true ∧ (Instr.start .decrypt 12 (some iv3)).wf = true ∧
    (stateWith (started hKT)).current = some (started hKT) := ⟨rfl, rfl, by decide, rfl⟩

theorem witness_FailingCommandWritesNothing :
    exec (.finish 3) (stateWith (started hKT)) = .next ((stateWith (started hKT)).respond (started hKT) (failed .badInput)) ∧
    (failed .badInput).status ≠ .ok ∧ (failed .badInput).status ≠ .authenticationFailed := ⟨rfl, by decide, by decide⟩

/-- Whatever the cipher, one of two tags of four bytes is not the computed tag. -/
theorem mismatch_exists :
    ∃ tag t r, exec (.authDecrypt 1 (some [0]) 0 none 0 none 4 (some tag)) (stateWith (keyed hKT)) = .next t ∧
      t.response = some r ∧ r.status = .authenticationFailed := by
  have run : ∀ tag : List Byte, tag.length = 4 →
      ∃ t check, exec (.authDecrypt 1 (some [0]) 0 none 0 none 4 (some tag)) (stateWith (keyed hKT)) = .next t ∧
        t.response = some (verdict [] check tag 0 4) ∧ check = (oneShotBody .decrypt [0] 0 [] 0 [] 4 (keyed hKT)).tag := by
    intro tag h
    have hd : holds (some tag) (4 : BitVec 32).toNat = true := by simp [holds, h]
    have hc : authDecrypt 1 (some [0]) 0 none 0 none 4 (some tag) (keyed hKT) =
        .ok ((oneShotBody .decrypt [0] 0 [] 0 [] 4 (keyed hKT)).context,
          verdict [] (oneShotBody .decrypt [0] 0 [] 0 [] 4 (keyed hKT)).tag tag 0 4) := by
      unfold authDecrypt
      rw [hd]
      exact command_runs (by rfl) _ _
    exact ⟨_, _, runCommand_ok (current_stateWith _) hc, rfl, rfl⟩
  obtain ⟨t, check, he, hr, hcheck⟩ := run (zeroBytes 4) rfl
  obtain ⟨t', check', he', hr', hcheck'⟩ := run [1, 1, 1, 1] rfl
  by_cases h : tagCompare check (zeroBytes 4) (4 : BitVec 32).toNat = true
  · by_cases h' : tagCompare check [1, 1, 1, 1] (4 : BitVec 32).toNat = true
    · have e := (tagDifference_eq_zero _ _ _).mp (beq_iff_eq.mp h) 0 (by decide)
      have e' := (tagDifference_eq_zero _ _ _).mp (beq_iff_eq.mp h') 0 (by decide)
      exact absurd (e.symm.trans e') (by decide)
    · refine ⟨_, t', _, he', hr', ?_⟩
      rw [hcheck', ← hcheck, verdict, if_neg h']
  · refine ⟨_, t, _, he, hr, ?_⟩
    rw [verdict, if_neg h]

theorem witness_ResponsesHaveTheirShape :
    (∃ t r, exec (.setKey 1 none) State.reset = .next t ∧ t.response = some r ∧ r.status = .unsupportedKeyLength) ∧
    (∃ t r, exec (.finish 16) State.reset = .next t ∧ t.response = some r ∧ r.status = .invalidState) ∧
    (∃ tag t r, exec (.authDecrypt 1 (some [0]) 0 none 0 none 4 (some tag)) (stateWith (keyed hKT)) = .next t ∧
      t.response = some r ∧ r.status = .authenticationFailed) ∧
    (∃ t r, exec (.update 1 (some [0])) (stateWith (started hKT)) = .next t ∧ t.response = some r ∧ r.status = .ok ∧ r.out ≠ []) ∧
    (∃ t r, exec (.cryptAndTag .encrypt 1 (some [0]) 0 none 1 (some [0]) 4) (stateWith (keyed hKT)) = .next t ∧ t.response = some r ∧
      r.status = .ok ∧ r.tag ≠ []) ∧
    (∃ t r, exec (.finish 4) (stateWith (started hKT)) = .next t ∧ t.response = some r ∧ r.status = .ok ∧ r.tag ≠ []) :=
  ⟨⟨_, _, rfl, rfl, rfl⟩, ⟨_, _, rfl, rfl, rfl⟩, mismatch_exists, ⟨_, _, rfl, rfl, rfl, List.cons_ne_nil _ _⟩,
    ⟨_, _, rfl, rfl, rfl, List.cons_ne_nil _ _⟩, ⟨_, _, rfl, rfl, rfl, List.cons_ne_nil _ _⟩⟩

theorem witness_EveryTransactionIsAnswered :
    (stateOn [.issue [⟨0, 2, { OperandRecord.zero with ivLen := 12, iv := some iv3 }⟩]]).stream =
      .issue [⟨0, 2, { OperandRecord.zero with ivLen := 12, iv := some iv3 }⟩] :: [] ∧
    (stateOn [.issue [⟨0, 2, { OperandRecord.zero with ivLen := 12, iv := some iv3 }⟩]]).contextAt 0 = some Context.reset ∧
    ∀ i, decode 2 { OperandRecord.zero with ivLen := 12, iv := some iv3 } = .ok i → i.wf = true :=
  ⟨rfl, rfl, fun i h => by cases h; decide⟩

theorem witness_ExecLeavesTheRestOfTheMachine :
    (∃ t, exec (.finish 4) (stateWith (started hKT)) = .next t ∧ (Instr.finish 4).isCommand = true) ∧
    (∃ t, exec .ghashFlush (stateWith (started hKT)) = .next t ∧ Instr.ghashFlush.isCommand = false) := ⟨⟨_, rfl, rfl⟩, ⟨_, rfl, rfl⟩⟩

/-- Each length is one off the operand; the step is one of UPDATE in INIT, which a check would fail. -/
theorem witness_BrokenBufferDutyNeverRuns :
    (stateWith (started hKT)).current = some (started hKT) ∧ (zeroBytes 15).length ≠ (128 : BitVec 32).toNat / 8 ∧
    iv3.length ≠ (13 : BitVec 64).toNat ∧ a4.length ≠ (19 : BitVec 64).toNat ∧ c4.length ≠ (61 : BitVec 64).toNat ∧
    t4.length ≠ (15 : BitVec 32).toNat ∧
    (stateOn [.issue [⟨0, 4, { OperandRecord.zero with len := 2, input := some [1] }⟩]]).stream =
      .issue (⟨0, 4, { OperandRecord.zero with len := 2, input := some [1] }⟩ :: []) :: [] ∧
    distinctContexts [⟨0, 4, { OperandRecord.zero with len := 2, input := some [1] }⟩] = true ∧
    (stateOn [.issue [⟨0, 4, { OperandRecord.zero with len := 2, input := some [1] }⟩]]).contextAt 0 = some Context.reset ∧
    decode 4 { OperandRecord.zero with len := 2, input := some [1] } = .ok (.update 2 (some [1])) ∧
    (Instr.update 2 (some [1])).wf = false :=
  ⟨rfl, by decide, by decide, by decide, by decide, by decide, rfl, by decide, rfl, rfl, rfl⟩

theorem witness_DatapathOperandDomains :
    State.reset.current = some Context.reset ∧ ([] : List Byte).length = 0 ∧ (∃ iv : List Byte, 2 ^ 29 ≤ iv.length) ∧
    (3 : BitVec 32).toNat < 4 ∧ 16 < (17 : BitVec 32).toNat ∧ (zeroBytes 15).length < (16 : BitVec 32).toNat := by
  obtain ⟨iv, h⟩ := bytes_of_length (2 ^ 29)
  exact ⟨rfl, rfl, ⟨iv, h.ge⟩, by decide, by decide, by decide⟩

theorem witness_RegistersHaveTheirWriters :
    exec (.finish 3) (stateWith (started hKT)) = .next ((stateWith (started hKT)).respond (started hKT) (failed .badInput)) ∧
    (∃ c' r, exec (.start .decrypt 12 (some iv3)) (stateWith (keyed hKT)) = .next ((stateWith (keyed hKT)).respond c' r)) ∧
    (∃ c' r, exec (.setKey 128 (some keyKT)) (stateWith (keyed hKT)) = .next ((stateWith (keyed hKT)).respond c' r)) :=
  ⟨rfl, ⟨_, _, rfl⟩, ⟨_, _, rfl⟩⟩

theorem witness_IdempotentCommands :
    (∃ t, exec (.setKey 128 (some keyKT)) State.reset = .next t) ∧
    (∃ t, exec (.start .encrypt 12 (some iv3)) (stateWith (keyed hKT)) = .next t) ∧
    (∃ t, exec (.updateAd 0 none) (stateWith (started hKT)) = .next t ∧ t.response = some okOnly ∧
      (Instr.updateAd 20 (some a4)).wf = true) ∧
    (∃ t tag, exec (.finish 16) (stateWith (started hKT)) = .next t ∧ t.response = some { status := .ok, out := [], tag := tag }) :=
  ⟨⟨_, rfl⟩, ⟨_, rfl⟩, ⟨_, rfl, rfl, by decide⟩, ⟨_, _, rfl, rfl⟩⟩

theorem witness_AbandonedMessages :
    (∃ t, exec (.setKey 128 (some keyKT)) (stateWith afterSeven) = .next t ∧ t.response = some okOnly) ∧
    (Instr.updateAd 20 (some a4)).wf = true ∧ (Instr.update 60 (some c4)).wf = true ∧
    (∃ t, exec (.start .encrypt 12 (some iv3)) (stateWith afterSeven) = .next t ∧ t.response = some okOnly) :=
  ⟨⟨_, rfl, rfl⟩, by decide, by decide, ⟨_, rfl, rfl⟩⟩

theorem witness_MessageClosedForm :
    State.reset.current = some Context.reset ∧ Context.reset.Inv ∧ keyKT.length = (128 : BitVec 32).toNat / 8 ∧
    1 ≤ iv3.length ∧ iv3.length < ivLimit ∧ ((some a4).getD []).length < aadLimit ∧
    [hexBytes 7 1, [], hexBytes 25 2].flatten.length ≤ maxDataBytes ∧ 4 ≤ (16 : BitVec 32).toNat ∧ (16 : BitVec 32).toNat ≤ 16 :=
  ⟨rfl, resetContext_inv, by decide, by decide, by decide, by decide, by decide, by decide, by decide⟩

theorem witness_ChunkSizeIndependence :
    (stateWith startedInv).current = some startedInv ∧ startedInv.Inv ∧ startedInv.msgState = .started ∧
    [[1], [], [2, 3]].flatten = ([[1, 2], [3]] : List (List Byte)).flatten ∧ ([] : List (List Byte)).flatten = [[]].flatten ∧
    ([[1], [], [2, 3]] : List (List Byte)).flatten.length ≤ maxDataBytes ∧ 4 ≤ (4 : BitVec 32).toNat ∧ (4 : BitVec 32).toNat ≤ 16 :=
  ⟨rfl, startedInv_inv, rfl, rfl, rfl, by decide, by decide, by decide⟩

theorem witness_OmittedAadIsEmptyAad :
    (stateWith (started hKT)).current = some (started hKT) ∧ (started hKT).msgState = .started ∧ (started hKT).adDone = false ∧
    (started hKT).aadLen = 0 ∧ (started hKT).dataLen.toNat + ([[1], [2]] : List (List Byte)).flatten.length ≤ maxDataBytes ∧
    4 ≤ (16 : BitVec 32).toNat ∧ (16 : BitVec 32).toNat ≤ 16 := ⟨rfl, rfl, rfl, rfl, by decide, by decide, by decide⟩

theorem witness_DecryptInvertsEncrypt :
    (stateWith (keyed hKT)).current = some (keyed hKT) ∧ (keyed hKT).msgState ≠ .init ∧ 1 ≤ iv5.length ∧ iv5.length < ivLimit ∧
    ((none : Option (List Byte)).getD []).length < aadLimit ∧ ([[1, 2]] : List (List Byte)).flatten.length ≤ maxDataBytes ∧
    4 ≤ (16 : BitVec 32).toNat ∧ (16 : BitVec 32).toNat ≤ 16 :=
  ⟨rfl, by decide, by decide, by decide, by decide, by decide, by decide, by decide⟩

theorem witness_CryptAndTagRule :
    (State.reset.current = some Context.reset ∧ Context.reset.msgState = .init) ∧
    ((stateWith (keyed hKT)).current = some (keyed hKT) ∧ (keyed hKT).msgState ≠ .init) ∧
    (2 ^ 29 ≤ (536870912 : BitVec 64).toNat ∧ 2 ^ 61 ≤ (2305843009213693952 : BitVec 64).toNat ∧
      2 ^ 36 - 32 < (68719476705 : BitVec 64).toNat ∧
      (Instr.cryptAndTag .decrypt 536870912 none 2305843009213693952 none 68719476705 none 16).wf = true) ∧
    ((3 : BitVec 32).toNat < 4 ∧ 16 < (17 : BitVec 32).toNat ∧
      ∀ tagLen, (Instr.cryptAndTag .decrypt 12 (some iv3) 20 (some a4) 60 (some c4) tagLen).wf = true) ∧
    (iv3.length = (12 : BitVec 64).toNat ∧ 1 ≤ (12 : BitVec 64).toNat ∧ (12 : BitVec 64).toNat < 2 ^ 29) ∧
    (a4.length = (20 : BitVec 64).toNat ∧ (20 : BitVec 64).toNat < 2 ^ 61) ∧
    ((none : Buffer) = none ∧ ([] : List Byte).length = (0 : BitVec 64).toNat) ∧
    (c4.length = (60 : BitVec 64).toNat ∧ (60 : BitVec 64).toNat ≤ 2 ^ 36 - 32) ∧
    ((∃ d : List Byte, d.length = (68719476704 : BitVec 64).toNat) ∧ (68719476704 : BitVec 64).toNat ≤ 2 ^ 36 - 32) ∧
    4 ≤ (4 : BitVec 32).toNat ∧ (16 : BitVec 32).toNat ≤ 16 :=
  ⟨⟨rfl, rfl⟩, ⟨rfl, by decide⟩, by decide, ⟨by decide, by decide, fun _ => rfl⟩, by decide, by decide, ⟨rfl, rfl⟩,
    by decide, ⟨bytes_of_length _, by decide⟩, by decide, by decide⟩

theorem witness_OneShotEqualsTheSequence :
    (∃ t r, exec (.cryptAndTag .encrypt 12 (some iv3) 0 none 1 (some [5]) 16) (stateWith (keyed hKT)) = .next t ∧
      t.response = some r ∧ r.status = .ok) ∧
    (∃ t r, exec (.cryptAndTag .encrypt 12 (some iv3) 0 none 1 (some [5]) 17) (stateWith (keyed hKT)) = .next t ∧
      t.response = some r ∧ r.status ≠ .ok) := by
  exact ⟨⟨_, _, rfl, rfl, rfl⟩, ⟨_, failed .badInput, rfl, rfl, by decide⟩⟩

theorem witness_AuthDecryptRule :
    (State.reset.current = some Context.reset ∧ Context.reset.msgState = .init) ∧
    ((stateWith (keyed hKT)).current = some (keyed hKT) ∧ (keyed hKT).msgState ≠ .init) ∧
    (2 ^ 29 ≤ (536870912 : BitVec 64).toNat ∧ 2 ^ 61 ≤ (2305843009213693952 : BitVec 64).toNat ∧
      2 ^ 36 - 32 < (68719476705 : BitVec 64).toNat ∧
      (Instr.authDecrypt 536870912 none 2305843009213693952 none 68719476705 none 16 (some t4)).wf = true) ∧
    ((3 : BitVec 32).toNat < 4 ∧ 16 < (17 : BitVec 32).toNat ∧
      ∀ tagLen, (Instr.authDecrypt 12 (some iv3) 20 (some a4) 60 (some c4) tagLen none).wf = true) ∧
    (iv3.length = (12 : BitVec 64).toNat ∧ 1 ≤ (12 : BitVec 64).toNat ∧ (12 : BitVec 64).toNat < 2 ^ 29) ∧
    (a4.length = (20 : BitVec 64).toNat ∧ (20 : BitVec 64).toNat < 2 ^ 61) ∧
    (c4.length = (60 : BitVec 64).toNat ∧ (60 : BitVec 64).toNat ≤ 2 ^ 36 - 32) ∧
    (4 ≤ (16 : BitVec 32).toNat ∧ (16 : BitVec 32).toNat ≤ 16 ∧ t4.length = (16 : BitVec 32).toNat) ∧
    (4 ≤ (4 : BitVec 32).toNat ∧ (4 : BitVec 32).toNat ≤ 16 ∧ (zeroBytes 4).length = (4 : BitVec 32).toNat) :=
  ⟨⟨rfl, rfl⟩, ⟨rfl, by decide⟩, by decide, ⟨by decide, by decide, fun _ => rfl⟩, by decide, by decide, by decide, by decide, by decide⟩

theorem witness_TagCompareIsEqualityOfPrefixes :
    State.reset.current = some Context.reset ∧
    (4 ≤ (4 : BitVec 32).toNat ∧ (4 : BitVec 32).toNat ≤ 16 ∧ (4 : BitVec 32).toNat ≤ (zeroBytes 4).length) ∧
    (4 ≤ (16 : BitVec 32).toNat ∧ (16 : BitVec 32).toNat ≤ 16 ∧ (16 : BitVec 32).toNat ≤ t4.length) :=
  ⟨rfl, by decide, by decide⟩

theorem witness_MismatchShowsNoPlaintext :
    ∃ tag t r, exec (.authDecrypt 1 (some [0]) 0 none 0 none 4 (some tag)) (stateWith (keyed hKT)) = .next t ∧
      t.response = some r ∧ r.status = .authenticationFailed := mismatch_exists

theorem witness_AuthDecryptUndoesCryptAndTag :
    (stateWith (keyed hKT)).current = some (keyed hKT) ∧ (keyed hKT).msgState ≠ .init ∧ iv3.length = (12 : BitVec 64).toNat ∧
    1 ≤ (12 : BitVec 64).toNat ∧ (12 : BitVec 64).toNat < 2 ^ 29 ∧ a4.length = (20 : BitVec 64).toNat ∧
    (20 : BitVec 64).toNat < 2 ^ 61 ∧ (hexBytes 60 1).length = (60 : BitVec 64).toNat ∧ (60 : BitVec 64).toNat ≤ 2 ^ 36 - 32 ∧
    4 ≤ (16 : BitVec 32).toNat ∧ (16 : BitVec 32).toNat ≤ 16 :=
  ⟨rfl, by decide, by decide, by decide, by decide, by decide, by decide, by decide, by decide, by decide, by decide⟩

/-- Both modes; the changed tag adds 1 to each byte of the right one. -/
theorem witness_ChangedTagIsDetected :
    ∀ m : Mode, ∃ t out b0 b1 b2 b3,
      exec (.cryptAndTag m 1 (some [0]) 0 none 1 (some [5]) 4) (stateWith (keyed hKT)) = .next t ∧
      t.response = some { status := .ok, out := out, tag := [b0, b1, b2, b3] } ∧
      [b0 + 1, b1 + 1, b2 + 1, b3 + 1].length = [b0, b1, b2, b3].length ∧ [b0 + 1, b1 + 1, b2 + 1, b3 + 1] ≠ [b0, b1, b2, b3] := by
  intro m
  refine ⟨_, _, _, _, _, _, rfl, rfl, rfl, fun h => ?_⟩
  have hb : ∀ b : Byte, b + 1 ≠ b := by decide
  exact hb _ (List.cons.inj h).1

theorem witness_ChangedCiphertextIsDetected :
    (stateWith (keyed hKT)).current = some (keyed hKT) ∧ (keyed hKT).msgState ≠ .init ∧
    ((keyed hKT).hh, (keyed hKT).hl) = buildTables hKT ∧ iv3.length = (12 : BitVec 64).toNat ∧ a4.length = (20 : BitVec 64).toNat ∧
    c4.length = (60 : BitVec 64).toNat ∧ 4 ≤ (16 : BitVec 32).toNat ∧ (16 : BitVec 32).toNat ≤ 16 ∧ 0 < c4.length ∧ 59 < c4.length :=
  ⟨rfl, by decide, rfl, by decide, by decide, by decide, by decide, by decide, by decide, by decide⟩

theorem witness_ChangedAadIsDetected :
    (stateWith (keyed hKT)).current = some (keyed hKT) ∧ (keyed hKT).msgState ≠ .init ∧
    ((keyed hKT).hh, (keyed hKT).hl) = buildTables hKT ∧ iv3.length = (12 : BitVec 64).toNat ∧ a4.length = (20 : BitVec 64).toNat ∧
    c4.length = (60 : BitVec 64).toNat ∧ 4 ≤ (4 : BitVec 32).toNat ∧ (4 : BitVec 32).toNat ≤ 16 ∧ 0 < a4.length ∧ 19 < a4.length :=
  ⟨rfl, by decide, rfl, by decide, by decide, by decide, by decide, by decide, by decide, by decide⟩

theorem witness_OneBitTimesPowersOfHVanishesOnlyForZeroH : 127 < 128 ∧ 0 < 128 ∧ 2 ≤ 2 ∧ hKT ≠ 0 := by decide

theorem witness_MessageRegistersAreNotObservableBetweenMessages :
    (∀ i ∈ [Instr.start .encrypt 12 (some iv3), .finish 16], i.isCommand = true) ∧
    (stateWith (keyed hKT)).current = some (keyed hKT) ∧
    (stateWith { keyed hKT with acc := 7, j0 := 9, aadLen := 3 }).current = some { keyed hKT with acc := 7, j0 := 9, aadLen := 3 } ∧
    (keyed hKT).SameBetweenMessages { keyed hKT with acc := 7, j0 := 9, aadLen := 3 } ∧ (keyed hKT).msgState ≠ .started ∧
    (keyed hKT).msgState ≠ .updating ∧
    ∃ p, execAll [Instr.start .encrypt 12 (some iv3), .finish 16] (stateWith (keyed hKT)) = some p :=
  ⟨by decide, rfl, rfl, ⟨rfl, rfl, rfl, rfl, rfl, rfl⟩, by decide, by decide, ⟨_, rfl⟩⟩

end Sys2Proof.Tests
end

section
/-! PROOFS. Blocks and their bytes: the round trip from a Block to its bytes and back, and a Block as the big-endian integer of its
bytes (00_scope.md R10, 20_memory.md R75). -/

namespace Sys2Proof.Machine

theorem blockOfBytes_blockBytes (b : Block) : blockOfBytes (blockBytes b) = b :=
  block_ext fun i hi => by rw [blockByte_blockOfBytes hi (by simp), blockBytes_getD b hi]

theorem blockByte_toNat (b : Block) (i : Nat) : (blockByte b i).toNat = b.toNat / 2 ^ (8 * (15 - i)) % 2 ^ 8 := by
  simp [blockByte, BitVec.extractLsb'_toNat, Nat.shiftRight_eq_div_pow]

/-- The first `n` bytes of a Block, each at its place, sum up to the Block with its other bytes cleared. -/
theorem sum_leading_blockBytes (b : Block) {n : Nat} (hn : n ≤ 16) :
    ((List.range n).map fun i => (blockByte b i).toNat * 2 ^ (8 * (15 - i))).sum =
      b.toNat / 2 ^ (8 * (16 - n)) * 2 ^ (8 * (16 - n)) := by
  induction n with
  | zero => simp [Nat.div_eq_of_lt b.isLt]
  | succ n ih =>
    have hpow : 2 ^ (8 * (16 - n)) = 2 ^ (8 * (15 - n)) * 2 ^ 8 := by rw [← Nat.pow_add]; congr 1; omega
    rw [List.range_succ, List.map_append, List.sum_append, ih (by omega), List.map_singleton, List.sum_singleton,
      blockByte_toNat, show 16 - (n + 1) = 15 - n by omega, hpow, ← Nat.div_div_eq_div_mul]
    generalize 2 ^ (8 * (15 - n)) = p
    generalize b.toNat / p = q
    calc q / 2 ^ 8 * (p * 2 ^ 8) + q % 2 ^ 8 * p = (2 ^ 8 * (q / 2 ^ 8) + q % 2 ^ 8) * p := by ring
      _ = q * p := by rw [Nat.div_add_mod]

theorem block_toNat_eq_sum (b : Block) :
    b.toNat = ((List.range 16).map fun i => (blockByte b i).toNat * 2 ^ (8 * (15 - i))).sum := by
  simpa using (sum_leading_blockBytes b le_rfl).symm

/-- Settles O5: a byte read back is the byte packed, the bytes fix the Block, and the sum of the leading bytes is taken at 16. -/
theorem blocksAreTheirBytesBigEndian : Obligations.BlocksAreTheirBytesBigEndian :=
  ⟨fun _ _ hl hi => blockByte_blockOfBytes hi hl, blockOfBytes_blockBytes, block_toNat_eq_sum⟩

end Sys2Proof.Machine
end

section
/-! PROOFS. The reference product is linear in both operands and moves past MULX; so its laws hold of all Blocks once they hold of the
powers of x, of which a Block is a sum (41_galois_multiplier.md R130). -/

namespace Sys2Proof.Machine

theorem gfMulRef_xor_right (x y z : Block) : gfMulRef x (y ^^^ z) = gfMulRef x y ^^^ gfMulRef x z := by
  simp only [gfMulRef_eq_sum, productSum_xor_right]

theorem gfMulRef_xor_left (x y z : Block) : gfMulRef (x ^^^ y) z = gfMulRef x z ^^^ gfMulRef y z := by
  simp only [gfMulRef_eq_sum, productSum_xor_left]

@[simp] theorem gfMulRef_zero_left (x : Block) : gfMulRef 0 x = 0 := by
  simpa using gfMulRef_xor_left 0 0 x

@[simp] theorem gfMulRef_zero_right (x : Block) : gfMulRef x 0 = 0 := by
  simpa using gfMulRef_xor_right x 0 0

/-- x^i times a Block is MULX, `i` times. -/
theorem gfMulRef_xPow_left {i : Nat} (hi : i < 128) (y : Block) : gfMulRef (xPow i) y = mulxIter i y := by
  rw [gfMulRef_eq_sum, productSum_xPow hi y 128 le_rfl, decide_eq_true hi, bitTimes_true]

theorem gfMulRef_mulxIter_right (n : Nat) (x y : Block) : gfMulRef x (mulxIter n y) = mulxIter n (gfMulRef x y) := by
  induction n with
  | zero => rfl
  | succ n ih => rw [mulxIter_succ, gfMulRef_eq_sum, productSum_mulx, ← gfMulRef_eq_sum, ih, mulxIter_succ]

theorem gfMulRef_one_left (x : Block) : gfMulRef (xPow 0) x = x := gfMulRef_xPow_left (by omega) x

theorem gfMulRef_one_right (x : Block) : gfMulRef x (xPow 0) = x := by
  induction x using block_induction with
  | zero => exact gfMulRef_zero_left _
  | sum a b iha ihb => rw [gfMulRef_xor_left, iha, ihb]
  | power i hi => rw [gfMulRef_xPow_left hi, mulxIter_xPow hi]

/-- A Block times x^i is MULX, `i` times. -/
theorem gfMulRef_xPow_right {i : Nat} (hi : i < 128) (y : Block) : gfMulRef y (xPow i) = mulxIter i y := by
  rw [← mulxIter_xPow hi, gfMulRef_mulxIter_right, gfMulRef_one_right]

theorem gfMulRef_comm (x y : Block) : gfMulRef x y = gfMulRef y x := by
  induction x using block_induction with
  | zero => rw [gfMulRef_zero_left, gfMulRef_zero_right]
  | sum a b iha ihb => rw [gfMulRef_xor_left, gfMulRef_xor_right, iha, ihb]
  | power i hi => rw [gfMulRef_xPow_left hi, gfMulRef_xPow_right hi]

theorem gfMulRef_mulxIter_left (n : Nat) (x y : Block) : gfMulRef (mulxIter n x) y = mulxIter n (gfMulRef x y) := by
  rw [gfMulRef_comm, gfMulRef_mulxIter_right, gfMulRef_comm]

theorem gfMulRef_assoc (x y z : Block) : gfMulRef (gfMulRef x y) z = gfMulRef x (gfMulRef y z) := by
  induction x using block_induction with
  | zero => simp only [gfMulRef_zero_left]
  | sum a b iha ihb => simp only [gfMulRef_xor_left, iha, ihb]
  | power i hi => rw [gfMulRef_xPow_left hi, gfMulRef_xPow_left hi, gfMulRef_mulxIter_left]

/-- Settles O15: each law by linearity from the powers of x, where the product is an iterate of MULX. -/
theorem productIsACommutativeRing : Obligations.ProductIsACommutativeRing :=
  ⟨gfMulRef_comm, gfMulRef_assoc, gfMulRef_xor_right, gfMulRef_one_left, gfMulRef_zero_left⟩

end Sys2Proof.Machine
end

section
/-! PROOFS. The context of a command as a function of its operands: its checks and the registers its effect leaves, tied to `exec` by one
inversion (44_gcm_engine.md R202, 60_exceptions.md R282); and the checks of a command that runs, as facts about its operands. -/

namespace Sys2Proof.Machine

/-! ## One inversion for all commands -/

/-- The checks of a command, in order; a datapath operation has none. -/
def commandChecks (i : Instr) (c : Context) : List (Bool × Status) :=
  match i with
  | .setKey keyBits key => keyChecks keyBits key
  | .start _ ivLen iv => keyedCheck c :: ivChecks ivLen iv
  | .updateAd aadLen aad => beforeAadCheck c :: aadChecks aadLen aad
  | .update len input => inMessageCheck c :: inputChecks c.dataLen.toNat len input
  | .finish tagLen => inMessageCheck c :: tagLenChecks tagLen
  | .cryptAndTag _ ivLen iv aadLen aad len input tagLen => oneShotChecks ivLen iv aadLen aad len input tagLen c
  | .authDecrypt ivLen iv aadLen aad len input tagLen tag =>
    oneShotChecks ivLen iv aadLen aad len input tagLen c ++ tagChecks tag
  | _ => []

/-- The registers that the effect of a command leaves, once its checks have passed; those of a datapath operation are not spoken of. -/
def commandEffect (i : Instr) (c : Context) : Context :=
  match i with
  | .setKey keyBits key => setKeyBody keyBits (bufferBytes key) c
  | .start mode _ iv => startBody mode (bufferBytes iv) c
  | .updateAd aadLen aad => updateAdBody aadLen (bufferBytes aad) c
  | .update len input => (updateBody len (bufferBytes input) c).1
  | .finish tagLen => (finishBody tagLen c).1
  | .cryptAndTag mode _ iv aadLen aad len input tagLen =>
    (oneShotBody mode (bufferBytes iv) aadLen (bufferBytes aad) len (bufferBytes input) tagLen c).context
  | .authDecrypt _ iv aadLen aad len input tagLen _ =>
    (oneShotBody .decrypt (bufferBytes iv) aadLen (bufferBytes aad) len (bufferBytes input) tagLen c).context
  | _ => c

/-- What `runCommand_next` says of a command that has the skeleton of R202. -/
theorem runCommand_command_next {f : Context → Except Refusal (Context × Response)} {checks : Context → List (Bool × Status)}
    {duty : Bool} {effect : Context → Context × Response} (hf : ∀ c, f c = command (checks c) duty (effect c) c) {s t : State}
    (h : runCommand f s = .next t) :
    ∃ c c' r, s.current = some c ∧ t = s.respond c' r ∧
      (c' = c ∨ (duty = true ∧ firstFailing (checks c) = none ∧ c' = (effect c).1)) := by
  obtain ⟨c, c', r, hc, hr, rfl⟩ := runCommand_next h
  refine ⟨c, c', r, hc, rfl, ?_⟩
  rw [hf] at hr
  rcases command_cases (checks c) duty (effect c) c with ⟨-, st, -, -, he⟩ | ⟨hd, hn, he⟩ | ⟨-, he⟩ <;> rw [he] at hr
  · cases hr
    exact .inl rfl
  · exact .inr ⟨hd, hn, congrArg Prod.fst (Except.ok.inj hr).symm⟩
  · cases hr

/-- All that a command can leave in the registers: what was there, or, where its buffers meet the host's duty and its checks pass, its
effect. -/
theorem exec_command_next {i : Instr} (hi : i.isCommand = true) {s t : State} (h : exec i s = .next t) :
    ∃ c c' r, s.current = some c ∧ t = s.respond c' r ∧
      (c' = c ∨ (i.wf = true ∧ firstFailing (commandChecks i c) = none ∧ c' = commandEffect i c)) := by
  cases i <;> simp only [Instr.isCommand, Bool.false_eq_true] at hi
  all_goals exact runCommand_command_next (fun _ => rfl) h

/-! ## The passed checks of a command -/

/-- A buffer that meets the host's duty, and is not NULL for a length above 0, has the bytes its length names. -/
theorem bufferBytes_length {b : Buffer} {n : Nat} (h : holds b n = true) (h0 : b = none → n = 0) : (bufferBytes b).length = n := by
  cases b with
  | none => simp [bufferBytes, h0 rfl]
  | some l => simpa [bufferBytes, holds] using h

theorem ne_init_of_keyedCheck {c : Context} (h : (keyedCheck c).1 = false) : c.msgState ≠ .init := by
  simpa [keyedCheck] using h

theorem inMessage_of_inMessageCheck {c : Context} (h : (inMessageCheck c).1 = false) :
    c.msgState = .started ∨ c.msgState = .updating := by
  by_contra hn
  rw [not_or] at hn
  rw [inMessageCheck_fail hn.1 hn.2] at h
  cases h

theorem firstFailing_cons_eq_none {x : Bool × Status} {rest : List (Bool × Status)} :
    firstFailing (x :: rest) = none ↔ x.1 = false ∧ firstFailing rest = none := by
  simp [firstFailing_eq_none]

theorem aad_of_aadChecks {n : BitVec 64} {b : Buffer} (h : firstFailing (aadChecks n b) = none) : n.toNat < aadLimit := by
  rw [firstFailing_aadChecks] at h
  by_contra hn
  rw [if_pos (.inr (not_lt.mp hn))] at h
  cases h

/-- IN of an UPDATE whose checks pass has LEN bytes, and the payload stays within its limit. -/
theorem input_of_inputChecks {already : Nat} {n : BitVec 64} {b : Buffer} (hb : holds b n.toNat = true)
    (h : firstFailing (inputChecks already n b) = none) :
    (bufferBytes b).length = n.toNat ∧ already + n.toNat ≤ maxDataBytes := by
  rw [firstFailing_inputChecks] at h
  by_cases hn : (b = none ∧ 0 < n.toNat) ∨ maxDataBytes < already + n.toNat
  · rw [if_pos hn] at h
    cases h
  · rw [not_or, not_and, not_lt, not_lt] at hn
    exact ⟨bufferBytes_length hb fun e => Nat.le_zero.mp (hn.1 e), hn.2⟩

/-- What the checks of a one-shot ask, once they pass. -/
theorem oneShot_of_oneShotChecks {c : Context} {ivLen aadLen len : BitVec 64} {iv aad input : Buffer} {tagLen : BitVec 32}
    (hb : holds input len.toNat = true) (h : firstFailing (oneShotChecks ivLen iv aadLen aad len input tagLen c) = none) :
    c.msgState ≠ .init ∧ aadLen.toNat < aadLimit ∧ (bufferBytes input).length = len.toNat ∧ len.toNat ≤ maxDataBytes := by
  rw [oneShotChecks, firstFailing_cons_eq_none] at h
  simp only [firstFailing_append, Option.or_eq_none_iff] at h
  obtain ⟨hk, ⟨⟨-, haad⟩, hinput⟩, -⟩ := h
  obtain ⟨hl, hmax⟩ := input_of_inputChecks hb hinput
  exact ⟨ne_init_of_keyedCheck hk, aad_of_aadChecks haad, hl, by rwa [Nat.zero_add] at hmax⟩

end Sys2Proof.Machine
end

section
/-! PROOFS. The invariants of a context (10_state.md R50) under the body of each command. -/

namespace Sys2Proof.Machine

/-! ## The key -/

theorem Context.Inv.keyValid_of_ne_init {c : Context} (h : c.Inv) (hs : c.msgState ≠ .init) : c.keyValid = true := by
  simpa using mt h.initIff.mpr hs

theorem Context.Inv.keyValid_of_inMessage {c : Context} (h : c.Inv) (hm : c.msgState = .started ∨ c.msgState = .updating) :
    c.keyValid = true :=
  h.keyValid_of_ne_init (by rcases hm with hs | hs <;> simp [hs])

theorem setKeyBody_cached {keyBits : BitVec 32} {key : List Byte} {c : Context} (h : sameKey keyBits key c = true) :
    setKeyBody keyBits key c = { c with msgState := .keyed } := by
  rw [setKeyBody, if_pos h]

theorem setKeyBody_rebuilt {keyBits : BitVec 32} {key : List Byte} {c : Context} (h : ¬ sameKey keyBits key c = true) :
    setKeyBody keyBits key c = { rebuildKey keyBits key c with msgState := .keyed } := by
  rw [setKeyBody, if_neg h]

/-- The bits of a supported key fit KEY_BITS, and its bytes fit KEY. -/
theorem setWidth_keyBits {keyBits : BitVec 32} (hs : keyBitsSupported keyBits = true) :
    (keyBits.setWidth 16).toNat = keyBits.toNat ∧ keyBits.toNat / 8 ≤ 32 := by
  rcases (keyBitsSupported_iff keyBits).mp hs with rfl | rfl | rfl <;> decide

/-- The key in use after a rebuild is the operand. -/
theorem keyInUse_rebuildKey {keyBits : BitVec 32} {key : List Byte} (hs : keyBitsSupported keyBits = true)
    (hl : key.length = keyBits.toNat / 8) (c : Context) : keyInUse (rebuildKey keyBits key c) = key := by
  obtain ⟨hw, h32⟩ := setWidth_keyBits hs
  rw [keyInUse, rebuildKey_key, rebuildKey_keyBits, hw, ← hl, padKey_take (hl ▸ h32)]

/-- Once the key and its tables agree, a context in KEYED asks nothing of the registers of the message but the bounds on its lengths. -/
theorem keyed_keeps_inv {c : Context} (h : c.Inv) (hv : c.keyValid = true) : ({ c with msgState := .keyed } : Context).Inv :=
  { h with
    initIff := iff_of_false nofun (by simp [hv])
    started := nofun, updating := nofun, finished := nofun, pendUpdating := nofun, pendFinished := nofun, keystream := by simp }

/-- A rebuild writes the key, its tables and KEY_VALID together. -/
theorem rebuildKey_keyed_inv {c : Context} (h : c.Inv) {keyBits : BitVec 32} {key : List Byte}
    (hs : keyBitsSupported keyBits = true) (hl : key.length = keyBits.toNat / 8) :
    ({ rebuildKey keyBits key c with msgState := .keyed } : Context).Inv := by
  have hk : keyInUse { rebuildKey keyBits key c with msgState := .keyed } = key := keyInUse_rebuildKey hs hl c
  exact { h with
    initIff := iff_of_false nofun nofun
    tables := fun _ => by rw [hk]; rfl
    keyBits := by
      rcases (keyBitsSupported_iff keyBits).mp hs with rfl | rfl | rfl <;> simp
    keyTail := fun _ i hi hle => by
      rw [rebuildKey_keyBits, (setWidth_keyBits hs).1, ← hl] at hle
      rw [rebuildKey_key, padKey_getElem hi, List.getD_eq_default _ _ hle]
    started := nofun, updating := nofun, finished := nofun, pendUpdating := nofun, pendFinished := nofun, keystream := by simp }

theorem setKeyBody_keeps_inv {c : Context} (h : c.Inv) {keyBits : BitVec 32} {key : List Byte}
    (hs : keyBitsSupported keyBits = true) (hl : key.length = keyBits.toNat / 8) : (setKeyBody keyBits key c).Inv := by
  by_cases hc : sameKey keyBits key c = true
  · rw [setKeyBody_cached hc]
    exact keyed_keeps_inv h ((sameKey_iff _ _ _).mp hc).1
  · rw [setKeyBody_rebuilt hc]
    exact rebuildKey_keyed_inv h hs hl

/-! ## START and UPDATE_AD -/

theorem startBody_keeps_inv {c : Context} (h : c.Inv) (hk : c.msgState ≠ .init) (mode : Mode) (iv : List Byte) :
    (startBody mode iv c).Inv :=
  { h with
    initIff := iff_of_false nofun (by simp [h.keyValid_of_ne_init hk])
    started := fun _ => ⟨rfl, rfl, rfl, rfl⟩
    updating := nofun, finished := nofun, pendUpdating := nofun, pendFinished := nofun, keystream := by simp
    aadDone := nofun
    aadBound := Nat.two_pow_pos 61
    dataBound := Nat.zero_le _ }

theorem Context.CounterAtData.of_eq {c d : Context} (h : c.CounterAtData) (hoff : d.ksOff = c.ksOff) (hlen : d.dataLen = c.dataLen)
    (hj : d.j0 = c.j0) (horig : d.j0Orig = c.j0Orig) : d.CounterAtData :=
  ⟨by rw [hoff, hlen, h.offset], by rw [hj, hlen, horig, h.counter]⟩

theorem updateAdBody_keeps_inv {c : Context} (h : c.Inv) {aadLen : BitVec 64} (ha : aadLen.toNat < aadLimit) (aad : List Byte) :
    (updateAdBody aadLen aad c).Inv :=
  { h with
    updating := fun hs => (h.updating hs).of_eq rfl rfl rfl rfl
    finished := fun hs => (h.finished hs).imp_right fun hc => hc.of_eq rfl rfl rfl rfl
    aadDone := fun _ => rfl
    aadBound := ha }

/-! ## UPDATE -/

/-- R45 for the next byte: an open keystream block is the cipher of the counter. -/
def Context.KeystreamAtCounter (c : Context) : Prop := c.ksOff ≠ 0 → c.ks = Config.blockCipher (keyInUse c) c.j0

theorem ctrByte_keeps_keystream {c : Context} (h : c.KeystreamAtCounter) (b : Byte) : (ctrByte c b).1.KeystreamAtCounter := by
  have hks : (if c.ksOff = 0 then Config.blockCipher (keyInUse c) c.j0 else c.ks) = Config.blockCipher (keyInUse c) c.j0 := by
    split
    · rfl
    · exact h ‹_›
  unfold ctrByte
  rw [hks]
  by_cases h15 : c.ksOff = 15
  · rw [if_pos h15]
    exact fun h0 => absurd rfl h0
  · rw [if_neg h15]
    exact fun _ => rfl

theorem ctrCrypt_keeps_keystream (d : List Byte) {c : Context} (h : c.KeystreamAtCounter) :
    (ctrCrypt d c).1.KeystreamAtCounter := by
  induction d generalizing c with
  | nil => exact h
  | cons b d ih => exact ih (ctrByte_keeps_keystream h b)

theorem absorbPair_snd (hh hl : Vector Half 16) (p : Block × Nibble) (b : Byte) : (absorbPair hh hl p b).2 = p.2 + 1 := by
  unfold absorbPair
  by_cases h : p.2 = 15
  · rw [if_pos h, h]; rfl
  · rw [if_neg h]

/-- GH_PEND counts the absorbed bytes modulo 16. -/
theorem foldl_absorbPair_snd (hh hl : Vector Half 16) (l : List Byte) (p : Block × Nibble) :
    (l.foldl (absorbPair hh hl) p).2.toNat = (p.2.toNat + l.length) % 16 := by
  induction l generalizing p with
  | nil => exact (Nat.mod_eq_of_lt p.2.isLt).symm
  | cons b l ih =>
    rw [List.foldl_cons, ih, absorbPair_snd, BitVec.toNat_add, List.length_cons]
    simp only [BitVec.reduceToNat]
    omega

@[simp] theorem updateCiphertext_length (input : List Byte) (c : Context) : (updateCiphertext input c).length = input.length := by
  unfold updateCiphertext
  split <;> simp

/-- The registers of the message that UPDATE starts from, whether it is the first of the message or a later one. -/
theorem firstIncrement_inv {c : Context} (h : c.Inv) (hm : c.msgState = .started ∨ c.msgState = .updating) :
    (firstIncrement c).CounterAtData ∧ (firstIncrement c).KeystreamAtCounter ∧ c.ghPend.toNat = c.dataLen.toNat % 16 := by
  rw [firstIncrement_eq]
  rcases hm with hs | hs
  · obtain ⟨hlen, hoff, hpend, hj⟩ := h.started hs
    refine ⟨⟨?_, ?_⟩, fun h0 => absurd hoff h0, ?_⟩
    · simp [hlen, hoff]
    · simp [hs, hlen, hj, inc32Iter]
    · simp [hlen, hpend]
  · have hj : (if c.msgState = .started then inc32 c.j0 else c.j0) = c.j0 := by simp [hs]
    exact ⟨(h.updating hs).of_eq rfl rfl hj rfl, fun h0 => (h.keystream (.inl hs) h0).trans (by rw [hj]), h.pendUpdating hs⟩

/-- CTR_CRYPT moves the counter and the offset on as far as the payload grows. -/
theorem ctrCrypt_counter {c : Context} (h : c.CounterAtData) (d : List Byte) :
    (ctrCrypt d c).1.ksOff.toNat = (c.dataLen.toNat + d.length) % 16 ∧
    (ctrCrypt d c).1.j0 = inc32Iter (1 + (c.dataLen.toNat + d.length) / 16) c.j0Orig := by
  rw [ctrCrypt_eq]
  dsimp only
  rw [h.offset, h.counter, ← inc32Iter_add]
  refine ⟨?_, ?_⟩
  · rw [BitVec.toNat_ofNat]
    omega
  · congr 1
    omega

@[simp] theorem firstIncrement_dataLen (c : Context) : (firstIncrement c).dataLen = c.dataLen := by rw [firstIncrement_eq]
@[simp] theorem firstIncrement_j0Orig (c : Context) : (firstIncrement c).j0Orig = c.j0Orig := by rw [firstIncrement_eq]
@[simp] theorem firstIncrement_keyInUse (c : Context) : keyInUse (firstIncrement c) = keyInUse c := by rw [firstIncrement_eq]; rfl

theorem updateBody_keeps_inv {c : Context} (h : c.Inv) (hm : c.msgState = .started ∨ c.msgState = .updating) {len : BitVec 64}
    {input : List Byte} (hl : input.length = len.toNat) (hb : c.dataLen.toNat + len.toNat ≤ maxDataBytes) :
    (updateBody len input c).1.Inv := by
  obtain ⟨hctr, hks, hpend⟩ := firstIncrement_inv h hm
  obtain ⟨hoff, hj⟩ := ctrCrypt_counter hctr input
  have hks' := ctrCrypt_keeps_keystream input hks
  have hlen : (c.dataLen + len).toNat = c.dataLen.toNat + len.toNat := by
    have : maxDataBytes < 2 ^ 64 := by decide
    exact BitVec.toNat_add_of_lt (by omega)
  rw [firstIncrement_dataLen, hl, ← hlen] at hoff hj
  rw [firstIncrement_j0Orig] at hj
  rw [Context.KeystreamAtCounter, ctrCrypt_keyInUse, firstIncrement_keyInUse] at hks'
  rw [updateBody_eq]
  exact { h with
    initIff := iff_of_false nofun (by simp [h.keyValid_of_inMessage hm])
    started := nofun
    updating := fun _ => ⟨hoff, hj⟩
    finished := nofun
    pendUpdating := fun _ => by
      rw [foldl_absorbPair_snd, updateCiphertext_length, hpend, hl, hlen]
      omega
    pendFinished := nofun
    dataBound := by rwa [hlen]
    keystream := fun _ => hks' }

/-! ## FINISH and the one-shots -/

theorem finishBody_keeps_inv {c : Context} (h : c.Inv) (hm : c.msgState = .started ∨ c.msgState = .updating) (tagLen : BitVec 32) :
    (finishBody tagLen c).1.Inv := by
  rw [finishBody_eq]
  exact { h with
    initIff := iff_of_false nofun (by simp [h.keyValid_of_inMessage hm])
    started := nofun
    updating := nofun
    finished := fun _ => hm.imp
      (fun hs => let ⟨hlen, hoff, _, hj⟩ := h.started hs; ⟨hj, hoff, hlen⟩)
      (fun hs => (h.updating hs).of_eq rfl rfl rfl rfl)
    pendUpdating := nofun
    pendFinished := fun _ => rfl
    keystream := fun _ h0 => hm.elim (fun hs => absurd (h.started hs).2.1 h0) (fun hs => h.keystream (.inl hs) h0) }

/-- A one-shot is START, UPDATE_AD, UPDATE and FINISH, and each keeps the invariants. -/
theorem oneShotBody_keeps_inv {c : Context} (h : c.Inv) (hk : c.msgState ≠ .init) {aadLen len : BitVec 64} {input : List Byte}
    (ha : aadLen.toNat < aadLimit) (hl : input.length = len.toNat) (hb : len.toNat ≤ maxDataBytes) (mode : Mode)
    (iv aad : List Byte) (tagLen : BitVec 32) : (oneShotBody mode iv aadLen aad len input tagLen c).context.Inv := by
  have hstart := startBody_keeps_inv h hk mode iv
  have haad := updateAdBody_keeps_inv hstart ha aad
  have hupdate := updateBody_keeps_inv haad (.inl rfl) hl (by simpa using hb)
  exact finishBody_keeps_inv hupdate (.inr (by rw [updateBody_eq])) tagLen

/-! ## Every command -/

theorem commandEffect_keeps_inv {i : Instr} {c : Context} (h : c.Inv) (hw : i.wf = true)
    (hc : firstFailing (commandChecks i c) = none) : (commandEffect i c).Inv := by
  cases i
  case setKey keyBits key =>
    simp only [commandChecks, keyChecks, firstFailing_cons_eq_none, Bool.not_eq_eq_eq_not, Bool.not_false] at hc
    exact setKeyBody_keeps_inv h hc.1 (bufferBytes_length hw (by rintro rfl; cases hc.2.1))
  case start mode ivLen iv =>
    exact startBody_keeps_inv h (ne_init_of_keyedCheck (firstFailing_cons_eq_none.mp hc).1) _ _
  case updateAd aadLen aad =>
    exact updateAdBody_keeps_inv h (aad_of_aadChecks (firstFailing_cons_eq_none.mp hc).2) _
  case update len input =>
    obtain ⟨hm, hin⟩ := firstFailing_cons_eq_none.mp hc
    obtain ⟨hl, hmax⟩ := input_of_inputChecks hw hin
    exact updateBody_keeps_inv h (inMessage_of_inMessageCheck hm) hl hmax
  case finish tagLen =>
    exact finishBody_keeps_inv h (inMessage_of_inMessageCheck (firstFailing_cons_eq_none.mp hc).1) _
  case cryptAndTag mode ivLen iv aadLen aad len input tagLen =>
    simp only [Instr.wf, Bool.and_eq_true] at hw
    obtain ⟨hk, ha, hl, hmax⟩ := oneShot_of_oneShotChecks hw.2 hc
    exact oneShotBody_keeps_inv h hk ha hl hmax _ _ _ _
  case authDecrypt ivLen iv aadLen aad len input tagLen tag =>
    simp only [Instr.wf, Bool.and_eq_true] at hw
    simp only [commandChecks, firstFailing_append, Option.or_eq_none_iff] at hc
    obtain ⟨hk, ha, hl, hmax⟩ := oneShot_of_oneShotChecks hw.1.2 hc.1
    exact oneShotBody_keeps_inv h hk ha hl hmax _ _ _ _
  all_goals exact h

end Sys2Proof.Machine
end

section
/-! PROOFS. The invariants of the machine: they hold at reset, and every step keeps them (10_state.md R50). -/

namespace Sys2Proof.Machine

theorem Context.reset_inv : Context.reset.Inv := by
  constructor <;> simp [Context.reset]

/-- What the port and the commands do to the contexts is one write, of a context that keeps R50 or of a dropped one. -/
theorem State.Inv.of_storeSlot {s t : State} (h : s.Inv) {id : Nat} {slot : Option Context}
    (ht : t.contexts = storeSlot s.contexts id slot) (hslot : ∀ c, slot = some c → c.Inv) : t.Inv := by
  refine ⟨ht ▸ contextsWf_storeSlot h.canonical id slot, fun k c hk => ?_⟩
  rw [ht] at hk
  by_cases hid : k = id
  · subst hid
    exact hslot c ((lookupSlot_storeSlot_same _ _ _).symm.trans hk)
  · exact h.contexts k c ((lookupSlot_storeSlot_other _ _ hid).symm.trans hk)

theorem State.Inv.of_contexts_eq {s t : State} (h : s.Inv) (ht : t.contexts = s.contexts) : t.Inv :=
  ⟨ht ▸ h.canonical, fun id c hc => h.contexts id c (ht ▸ hc)⟩

theorem State.Inv.respond {s : State} (h : s.Inv) {c : Context} (hc : c.Inv) (r : Response) : (s.respond c r).Inv :=
  h.of_storeSlot rfl fun _ e => Option.some.inj e ▸ hc

theorem State.Inv.current {s : State} (h : s.Inv) {c : Context} (hc : s.current = some c) : c.Inv :=
  h.contexts _ c (current_eq_some.mp hc).2

/-- A command keeps the invariants; a datapath operation run on its own need not (log 8). -/
theorem exec_keeps_inv {i : Instr} (hi : i.isCommand = true) {s t : State} (h : s.Inv) (ht : exec i s = .next t) : t.Inv := by
  obtain ⟨c, c', r, hc, rfl, hkeep | ⟨hw, hchecks, heffect⟩⟩ := exec_command_next hi ht
  · exact h.respond (hkeep ▸ h.current hc) r
  · exact h.respond (heffect ▸ commandEffect_keeps_inv (h.current hc) hw hchecks) r

/-- Settles O13: by what a step can be; a command leaves its context alone or runs the body that keeps R50. -/
theorem stepKeepsTheInvariants : Obligations.StepKeepsTheInvariants := by
  intro s t h hstep
  obtain ⟨-, rfl⟩ | ⟨id, slot, rest, -, hslot, -, rfl⟩ | ⟨rest, -, rfl⟩ | ⟨x, ts, rest, -, -, hx⟩ := step_next_cases hstep
  · exact h
  · refine h.of_storeSlot rfl fun c hc => ?_
    obtain rfl | rfl := hslot
    · cases hc
    · exact Option.some.inj hc ▸ Context.reset_inv
  · exact h.of_contexts_eq rfl
  · have htaking : (s.taking x ts rest).Inv := h.of_contexts_eq rfl
    obtain ⟨e, c, -, hc, rfl⟩ | ⟨i, -, hi, hexec⟩ := hx
    · exact htaking.respond (htaking.current hc) _
    · exact exec_keeps_inv hi htaking hexec

/-- Settles O12: an unlisted number is a context in its reset state. -/
theorem resetMeetsTheInvariants : Obligations.ResetMeetsTheInvariants :=
  ⟨contextsWf_reset, fun _ _ hc => Option.some.inj hc ▸ Context.reset_inv⟩

end Sys2Proof.Machine
end

section
/-! PROOFS. Frames: what an instruction and a step leave (10_state.md R52, 20_memory.md R77, R83), and which commands write which register
(10_state.md section 4). -/

namespace Sys2Proof.Machine

/-! ## The machine -/

/-- Settles O40: an instruction that completes is one `respond` or one `deliver` on the selected context. -/
theorem execLeavesTheRestOfTheMachine : Obligations.ExecLeavesTheRestOfTheMachine := by
  intro i s t h
  obtain ⟨c, c', -, ⟨hi, r, rfl⟩ | ⟨hi, v, rfl⟩⟩ := exec_next_shape h
  · exact ⟨fun _ => contextAt_respond_other s c' r, rfl, rfl, fun _ => ⟨rfl, nofun⟩, by simp [hi]⟩
  · exact ⟨fun _ => contextAt_deliver_other s c' v, rfl, rfl, by simp [hi], fun _ => ⟨rfl, nofun⟩⟩

theorem contextAt_storeSlot_other {s t : State} {id k : Nat} {slot : Option Context}
    (h : t.contexts = storeSlot s.contexts k slot) (hk : id ≠ k) : t.contextAt id = s.contextAt id := by
  rw [State.contextAt, h, lookupSlot_storeSlot_other _ _ hk, State.contextAt]

/-- Settles O9: a creation or a drop writes the number it names, and a command or an illegal word the context it addresses. -/
theorem stepTouchesOneContext : Obligations.StepTouchesOneContext := by
  intro s t id hstep hne
  obtain ⟨-, rfl⟩ | ⟨k, slot, rest, -, -, hs, rfl⟩ | ⟨rest, -, rfl⟩ | ⟨x, ts, rest, hs, -, hx⟩ := step_next_cases hstep
  · rfl
  · have hk : id ≠ k := by
      rintro rfl
      obtain hs | hs := hs <;> exact hne (by rw [hs]; rfl)
    exact contextAt_storeSlot_other rfl hk
  · rfl
  · have hid : id ≠ (s.taking x ts rest).active := by
      rintro rfl
      exact hne (by rw [hs]; rfl)
    obtain ⟨e, c, -, -, rfl⟩ | ⟨i, -, -, hx⟩ := hx
    · exact contextAt_respond_other _ _ _ hid
    · exact (execLeavesTheRestOfTheMachine i _ t hx).1 id hid

/-! ## The registers of the context -/

/-- The registers that SET_KEY alone writes: KEY, KEY_BITS, KEY_VALID, HH and HL. -/
def Context.SameKey (c d : Context) : Prop :=
  d.key = c.key ∧ d.keyBits = c.keyBits ∧ d.keyValid = c.keyValid ∧ d.hh = c.hh ∧ d.hl = c.hl

theorem updateBody_sameKey (len : BitVec 64) (input : List Byte) (c : Context) : c.SameKey (updateBody len input c).1 := by
  rw [updateBody_eq]
  exact ⟨rfl, rfl, rfl, rfl, rfl⟩

theorem finishBody_sameKey (tagLen : BitVec 32) (c : Context) : c.SameKey (finishBody tagLen c).1 := by
  rw [finishBody_eq]
  exact ⟨rfl, rfl, rfl, rfl, rfl⟩

theorem oneShotBody_sameKey (mode : Mode) (iv : List Byte) (aadLen : BitVec 64) (aad : List Byte) (len : BitVec 64)
    (input : List Byte) (tagLen : BitVec 32) (c : Context) :
    c.SameKey (oneShotBody mode iv aadLen aad len input tagLen c).context := by
  rw [oneShotBody]
  dsimp only
  rw [finishBody_eq, updateBody_eq]
  exact ⟨rfl, rfl, rfl, rfl, rfl⟩

theorem commandEffect_sameKey {i : Instr} (hi : ∀ keyBits key, i ≠ .setKey keyBits key) (c : Context) :
    c.SameKey (commandEffect i c) := by
  cases i
  case setKey keyBits key => exact absurd rfl (hi keyBits key)
  case update => exact updateBody_sameKey _ _ c
  case finish => exact finishBody_sameKey _ c
  case cryptAndTag => exact oneShotBody_sameKey _ _ _ _ _ _ _ c
  case authDecrypt => exact oneShotBody_sameKey _ _ _ _ _ _ _ c
  all_goals exact ⟨rfl, rfl, rfl, rfl, rfl⟩

/-- SET_KEY leaves every register of the message but STATE. -/
theorem setKeyBody_frame (keyBits : BitVec 32) (key : List Byte) (c : Context) :
    ∃ k kb kv hh hl, setKeyBody keyBits key c =
      { c with key := k, keyBits := kb, keyValid := kv, hh := hh, hl := hl, msgState := .keyed } := by
  by_cases h : sameKey keyBits key c = true
  · exact ⟨_, _, _, _, _, setKeyBody_cached h⟩
  · exact ⟨_, _, _, _, _, setKeyBody_rebuilt h⟩

/-- Settles O43: a command leaves its context as it was, or leaves the registers its body writes, one record for each body. -/
theorem registersHaveTheirWriters : Obligations.RegistersHaveTheirWriters := by
  intro i s c c' r hi hc h
  obtain ⟨c₀, c₁, r₁, hc₀, ht, hc'⟩ := exec_command_next hi h
  obtain rfl : c = c₀ := Option.some.inj (hc.symm.trans hc₀)
  obtain ⟨rfl, -⟩ := respond_inj ht
  obtain rfl | ⟨-, -, rfl⟩ := hc'
  · simp
  · refine ⟨fun hk => commandEffect_sameKey hk c, fun hs => ?_⟩
    cases i <;> simp only [startsMessage, Instr.isCommand, Bool.true_eq_false, Bool.false_eq_true] at hs hi
    case setKey keyBits key =>
      obtain ⟨k, kb, kv, hh, hl, he⟩ := setKeyBody_frame keyBits (bufferBytes key) c
      simp [commandEffect, he]
    case updateAd => simp [commandEffect]
    case update => simp [commandEffect, updateBody_eq]
    case finish => simp [commandEffect, finishBody_eq]

end Sys2Proof.Machine
end

section
/-! PROOFS. A command as one function of its context, tied to `exec` by one equation, with all that a command that answers can do; and which
commands, given twice, leave what they leave given once (20_memory.md R80). -/

namespace Sys2Proof.Machine

/-! ## A command as a function of its context -/

/-- The response of the effect of a command, once its checks have passed; that of a datapath operation is not spoken of. -/
def commandResponse (i : Instr) (c : Context) : Response :=
  match i with
  | .update len input => { status := .ok, out := (updateBody len (bufferBytes input) c).2, tag := [] }
  | .finish tagLen => { status := .ok, out := [], tag := (finishBody tagLen c).2 }
  | .cryptAndTag mode _ iv aadLen aad len input tagLen =>
    let done := oneShotBody mode (bufferBytes iv) aadLen (bufferBytes aad) len (bufferBytes input) tagLen c
    { status := .ok, out := done.out, tag := done.tag }
  | .authDecrypt _ iv aadLen aad len input tagLen tag =>
    let done := oneShotBody .decrypt (bufferBytes iv) aadLen (bufferBytes aad) len (bufferBytes input) tagLen c
    verdict done.out done.tag (bufferBytes tag) len tagLen
  | _ => okOnly

/-- What a command does to its context, and its response. -/
def commandAnswer (i : Instr) (c : Context) : Except Refusal (Context × Response) :=
  command (commandChecks i c) i.wf (commandEffect i c, commandResponse i c) c

theorem exec_eq_runCommand {i : Instr} (hi : i.isCommand = true) (s : State) : exec i s = runCommand (commandAnswer i) s := by
  cases i <;> simp only [Instr.isCommand, Bool.false_eq_true] at hi
  all_goals rfl

theorem commandChecks_fails {i : Instr} {c : Context} {x : Bool × Status} (hx : x ∈ commandChecks i c) : x.2.fails := by
  revert x
  cases i <;> simp [commandChecks, oneShotChecks, keyedCheck, beforeAadCheck, inMessageCheck, keyChecks, ivChecks, aadChecks,
    inputChecks, tagLenChecks, tagChecks, Status.fails]

/-- All that a command that answers can do: fail one of its checks with the registers as they were, or run its effect. -/
theorem exec_answer_cases {i : Instr} (hi : i.isCommand = true) {s t : State} (h : exec i s = .next t) :
    ∃ c, s.current = some c ∧ i.wf = true ∧
      ((∃ st, st.fails ∧ firstFailing (commandChecks i c) = some st ∧ t = s.respond c (failed st)) ∨
        (firstFailing (commandChecks i c) = none ∧ t = s.respond (commandEffect i c) (commandResponse i c))) := by
  rw [exec_eq_runCommand hi] at h
  obtain ⟨c, c', r, hc, hr, rfl⟩ := runCommand_next h
  refine ⟨c, hc, duty_of_command_ok hr, ?_⟩
  rw [commandAnswer] at hr
  rcases command_cases (commandChecks i c) i.wf (commandEffect i c, commandResponse i c) c with
    ⟨-, st, hst, hm, he⟩ | ⟨-, hn, he⟩ | ⟨-, he⟩ <;> rw [he] at hr <;> cases hr
  · exact .inl ⟨st, commandChecks_fails hm, hst, rfl⟩
  · exact .inr ⟨hn, rfl⟩

theorem exec_fails {i : Instr} (hi : i.isCommand = true) (hw : i.wf = true) {s : State} {c : Context} (hc : s.current = some c)
    {st : Status} (h : firstFailing (commandChecks i c) = some st) : exec i s = .next (s.respond c (failed st)) := by
  rw [exec_eq_runCommand hi]
  exact runCommand_ok hc (command_fails hw h _ c)

theorem exec_runs {i : Instr} (hi : i.isCommand = true) (hw : i.wf = true) {s : State} {c : Context} (hc : s.current = some c)
    (h : firstFailing (commandChecks i c) = none) :
    exec i s = .next (s.respond (commandEffect i c) (commandResponse i c)) := by
  rw [exec_eq_runCommand hi]
  refine runCommand_ok hc ?_
  rw [commandAnswer, hw]
  exact command_runs h _ c

/-- A command that answers OK has run its effect. -/
theorem exec_next_ok {i : Instr} (hi : i.isCommand = true) {s t : State} (h : exec i s = .next t) {r : Response}
    (hr : t.response = some r) (hok : r.status = .ok) :
    ∃ c, t.current = some (commandEffect i c) := by
  obtain ⟨c, hc, -, ⟨st, hst, -, rfl⟩ | ⟨-, rfl⟩⟩ := exec_answer_cases hi h
  · obtain rfl : failed st = r := Option.some.inj hr
    obtain rfl : st = .ok := hok
    simp [Status.fails] at hst
  · exact ⟨c, current_respond hc _ _⟩

/-! ## Repeated commands -/

/-- A command repeats what it did where its checks pass again after its effect, and the effect and the response are then the same. -/
theorem exec_again {i : Instr} {s t : State} (hi : i.isCommand = true)
    (hidem : ∀ c, i.wf = true → firstFailing (commandChecks i c) = none →
      firstFailing (commandChecks i (commandEffect i c)) = none ∧ commandEffect i (commandEffect i c) = commandEffect i c ∧
        commandResponse i (commandEffect i c) = commandResponse i c)
    (h : exec i s = .next t) : exec i t = .next t := by
  obtain ⟨c, hc, hw, ⟨st, -, hst, rfl⟩ | ⟨hn, rfl⟩⟩ := exec_answer_cases hi h
  · rw [exec_fails hi hw (current_respond hc _ _) hst, respond_respond]
  · obtain ⟨hn', heffect, hresponse⟩ := hidem c hw hn
    rw [exec_runs hi hw (current_respond hc _ _) hn', respond_respond, heffect, hresponse]

/-- After SET_KEY its key is the cached one (R210). -/
theorem sameKey_setKeyBody {keyBits : BitVec 32} {key : List Byte} (hs : keyBitsSupported keyBits = true)
    (hl : key.length = keyBits.toNat / 8) (c : Context) : sameKey keyBits key (setKeyBody keyBits key c) = true := by
  by_cases h : sameKey keyBits key c = true
  · rw [setKeyBody_cached h]
    exact h
  · obtain ⟨hw, h32⟩ := setWidth_keyBits hs
    rw [setKeyBody_rebuilt h, sameKey_iff]
    exact ⟨rfl, hw, by rw [← hl] at h32 ⊢; exact padKey_take h32⟩

theorem setKeyBody_again {keyBits : BitVec 32} {key : List Byte} (hs : keyBitsSupported keyBits = true)
    (hl : key.length = keyBits.toNat / 8) (c : Context) :
    setKeyBody keyBits key (setKeyBody keyBits key c) = setKeyBody keyBits key c := by
  rw [setKeyBody_cached (sameKey_setKeyBody hs hl c)]
  obtain ⟨_, _, _, _, _, h⟩ := setKeyBody_frame keyBits key c
  rw [h]

theorem key_of_keyChecks {keyBits : BitVec 32} {key : Buffer} (hb : holds key (keyBits.toNat / 8) = true)
    (h : firstFailing (keyChecks keyBits key) = none) :
    keyBitsSupported keyBits = true ∧ (bufferBytes key).length = keyBits.toNat / 8 := by
  simp only [keyChecks, firstFailing_cons_eq_none, Bool.not_eq_eq_eq_not, Bool.not_false] at h
  exact ⟨h.1, bufferBytes_length hb (by rintro rfl; cases h.2.1)⟩

theorem exec_setKey_again {s t : State} {keyBits : BitVec 32} {key : Buffer} (h : exec (.setKey keyBits key) s = .next t) :
    exec (.setKey keyBits key) t = .next t :=
  exec_again rfl (fun c hw hn => let ⟨hs, hl⟩ := key_of_keyChecks hw hn; ⟨hn, setKeyBody_again hs hl c, rfl⟩) h

theorem exec_start_again {s t : State} {m : Mode} {ivLen : BitVec 64} {iv : Buffer} (h : exec (.start m ivLen iv) s = .next t) :
    exec (.start m ivLen iv) t = .next t :=
  exec_again rfl (fun _ _ hn => ⟨firstFailing_cons_eq_none.mpr ⟨rfl, (firstFailing_cons_eq_none.mp hn).2⟩, rfl, rfl⟩) h

/-- Settles O44: SET_KEY finds its own key cached, START reads only STATE, which it leaves at STARTED, and the tables, which
it leaves alone; UPDATE_AD leaves AD_DONE at 1 and FINISH leaves FINISHED, which the state check of a second one does not pass. -/
theorem idempotentCommands : Obligations.IdempotentCommands := by
  refine ⟨fun _ _ _ _ => exec_setKey_again, fun _ _ _ _ _ => exec_start_again, ?_, ?_⟩
  · intro s t aadLen aadLen' aad aad' h hr hw
    obtain ⟨c, ht⟩ := exec_next_ok rfl h hr rfl
    refine ⟨_, exec_fails rfl hw ht ?_, ht⟩
    rw [commandChecks, beforeAadCheck_fail (.inr rfl), firstFailing_true]
  · intro s t tagLen tagLen' tag h hr
    obtain ⟨c, ht⟩ := exec_next_ok rfl h hr rfl
    have hs : (commandEffect (.finish tagLen) c).msgState = .finished := by rw [commandEffect, finishBody_eq]
    refine ⟨_, exec_fails rfl rfl ht ?_, ht⟩
    rw [commandChecks, inMessageCheck_fail (by simp [hs]) (by simp [hs]), firstFailing_true]

end Sys2Proof.Machine
end

section
/-! PROOFS. The port: what the first transaction in flight comes to, and which transactions have no step (20_memory.md R77, R81, R82,
70_reset_and_hazards.md R330). -/

namespace Sys2Proof.Machine

/-! ## The next transaction -/

@[simp] theorem current_taking (s : State) (t : Transaction) (ts : List Transaction) (rest : List PortEvent) :
    (s.taking t ts rest).current = s.contextAt t.context := rfl

theorem step_issue {s : State} {t : Transaction} {ts : List Transaction} {rest : List PortEvent} {i : Instr}
    (hs : s.stream = .issue (t :: ts) :: rest) (hd : distinctContexts (t :: ts) = true) (hi : decode t.cmd t.operands = .ok i) :
    step s = exec i (s.taking t ts rest) := by
  rw [step, fetch_issue hs hd, State.take, hi]

/-- Settles O6: the port takes the first transaction, and DECODE gives its command. -/
theorem stepRunsTheDecodedCommand : Obligations.StepRunsTheDecodedCommand :=
  fun _ _ _ _ _ => step_issue

/-! ## Transactions without a step -/

theorem step_overlapping {s : State} {ts : List Transaction} {rest : List PortEvent} (hs : s.stream = .issue ts :: rest)
    (hd : distinctContexts ts = false) : step s = .refused .overlappingCommands := by
  cases ts with
  | nil => cases hd
  | cons t ts => simp [step, fetch, hs, hd]

theorem distinctContexts_eq_false {a b : Transaction} (h : a.context = b.context) (before between after : List Transaction) :
    distinctContexts (before ++ a :: between ++ b :: after) = false := by
  simp [distinctContexts, List.nodup_append, h]

/-- Settles O7: two transactions with one context number repeat an entry of the list of context numbers. -/
theorem overlappingCommandsHaveNoStep : Obligations.OverlappingCommandsHaveNoStep :=
  fun _ _ _ before between after _ hab hs => step_overlapping hs (distinctContexts_eq_false hab before between after)

theorem carries_eq_false {b : Buffer} {n : Nat} : Buffer.carries b n = false ↔ ∃ l, b = some l ∧ l.length ≠ n := by
  cases b <;> simp [Buffer.carries]

/-- Settles O41: a buffer of the wrong length makes its command ill-formed, and an ill-formed command has no step. -/
theorem brokenBufferDutyNeverRuns : Obligations.BrokenBufferDutyNeverRuns := by
  refine ⟨fun s c hc => ⟨?setKey, ?start, ?updateAd, ?update, ?cryptAndTag, ?authDecrypt⟩, ?step⟩
  case setKey => exact fun _ k hl => exec_refuses (i := .setKey _ _) rfl (carries_eq_false.mpr ⟨k, rfl, hl⟩) hc
  case start => exact fun _ _ iv hl => exec_refuses (i := .start _ _ _) rfl (carries_eq_false.mpr ⟨iv, rfl, hl⟩) hc
  case updateAd => exact fun _ aad hl => exec_refuses (i := .updateAd _ _) rfl (carries_eq_false.mpr ⟨aad, rfl, hl⟩) hc
  case update => exact fun _ input hl => exec_refuses (i := .update _ _) rfl (carries_eq_false.mpr ⟨input, rfl, hl⟩) hc
  case cryptAndTag =>
    exact fun _ _ _ _ _ _ _ _ h => exec_refuses rfl
      (by simpa only [Instr.wf, Bool.and_eq_false_iff, carries_eq_false, or_assoc] using h) hc
  case authDecrypt =>
    exact fun _ _ _ _ _ _ _ _ h => exec_refuses rfl
      (by simpa only [Instr.wf, Bool.and_eq_false_iff, carries_eq_false, or_assoc] using h) hc
  case step =>
    intro s t ts rest c i hs hd hc hi hw
    rw [step_issue hs hd hi]
    exact exec_refuses (decode_isCommand hi) hw hc

end Sys2Proof.Machine
end

section
/-! PROOFS. Interleavings: a run of transactions, issued one after the other, is for each context the run of its own transactions
(20_memory.md R83). -/

namespace Sys2Proof.Machine

/-! ## A transaction as a function of its context -/

/-- What a transaction does to its context, and its response: an illegal word writes no register (30_encoding.md R107). -/
def transactionAnswer (t : Transaction) (c : Context) : Except Refusal (Context × Response) :=
  match decode t.cmd t.operands with
  | .ok i => commandAnswer i c
  | .error _ => .ok (c, failed .illegalCommand)

theorem step_issue_one {s : State} {t : Transaction} {rest : List PortEvent} (hs : s.stream = .issue [t] :: rest) :
    step s = runCommand (transactionAnswer t) (s.taking t [] rest) := by
  have hd : distinctContexts [t] = true := by simp [distinctContexts]
  cases hi : decode t.cmd t.operands with
  | ok i =>
    have ha : transactionAnswer t = commandAnswer i := by funext c; rw [transactionAnswer, hi]
    rw [step_issue hs hd hi, exec_eq_runCommand (decode_isCommand hi), ha]
  | error e =>
    have ha : transactionAnswer t = fun c => .ok (c, failed .illegalCommand) := by funext c; rw [transactionAnswer, hi]
    rw [step, fetch_issue hs hd, State.take, hi, runCommand, ha]
    cases (s.taking t [] rest).current <;> rfl

/-! ## The run of one context -/

/-- Transactions on one context, one after the other: what they leave of it, and their responses with its number; absent where one has
no answer. -/
def answerAll : List Transaction → Option Context → Option (Option Context × List (Nat × Response))
  | [], slot => some (slot, [])
  | _ :: _, none => none
  | t :: ts, some c =>
    match transactionAnswer t c with
    | .error _ => none
    | .ok done => (answerAll ts (some done.1)).map fun p => (p.1, (t.context, done.2) :: p.2)

theorem answerAll_cons_ok {t : Transaction} {c c' : Context} {r : Response} (h : transactionAnswer t c = .ok (c', r))
    (ts : List Transaction) :
    answerAll (t :: ts) (some c) = (answerAll ts (some c')).map fun p => (p.1, (t.context, r) :: p.2) := by
  rw [answerAll, h]

/-- All that a transaction on the port can come to: an answer of its context, or no step, and then no answer either. -/
theorem step_issue_one_cases {s : State} {t : Transaction} {rest : List PortEvent} (hs : s.stream = .issue [t] :: rest) :
    (∃ c c' r, s.contextAt t.context = some c ∧ transactionAnswer t c = .ok (c', r) ∧
      step s = .next ((s.taking t [] rest).respond c' r)) ∨
    ((∃ why, step s = .refused why) ∧ ∀ ts, answerAll (t :: ts) (s.contextAt t.context) = none) := by
  rw [step_issue_one hs, runCommand, current_taking]
  cases hc : s.contextAt t.context with
  | none => exact .inr ⟨⟨_, rfl⟩, fun _ => rfl⟩
  | some c =>
    cases ha : transactionAnswer t c with
    | error why => exact .inr ⟨⟨why, by simp [ha]⟩, fun ts => by rw [answerAll, ha]⟩
    | ok done => exact .inl ⟨c, done.1, done.2, rfl, ha, by simp [ha]⟩

/-! ## A run and the runs of its contexts -/

/-- The transactions of a list that address one context. -/
def ofContext (id : Nat) (ts : List Transaction) : List Transaction := ts.filter fun x => x.context == id

/-- The answers of each context, before and after the first transaction of a run. -/
theorem answerAll_ofContext_cons {s : State} {t : Transaction} {c c' : Context} {r : Response}
    (hc : s.contextAt t.context = some c) (ha : transactionAnswer t c = .ok (c', r)) (rest : List PortEvent) (id : Nat)
    (ts : List Transaction) :
    answerAll (ofContext id (t :: ts)) (s.contextAt id) =
      (answerAll (ofContext id ts) (((s.taking t [] rest).respond c' r).contextAt id)).map fun p =>
        (p.1, [(t.context, r)].filter (fun x => x.1 == id) ++ p.2) := by
  by_cases hid : t.context = id
  · subst hid
    have hc' : ((s.taking t [] rest).respond c' r).contextAt t.context = some c' :=
      contextAt_respond_same (s := s.taking t [] rest) hc c' r
    rw [hc, hc', ofContext, List.filter_cons_of_pos (by simp), answerAll_cons_ok ha]
    simp [ofContext]
  · have hc' : ((s.taking t [] rest).respond c' r).contextAt id = s.contextAt id :=
      contextAt_respond_other (s.taking t [] rest) c' r (Ne.symm hid)
    rw [hc', ofContext, List.filter_cons_of_neg (by simpa using hid)]
    simp [ofContext, hid]

theorem runSteps_succ_next {s t : State} (h : step s = .next t) (n : Nat) :
    runSteps (n + 1) s = (runSteps n t).map fun p => (p.1, t.observed.toList ++ p.2) := by
  rw [runSteps, h]

/-- All that a run of transactions, issued one after the other, can be: one in which each context answers its own transactions, or
one that stops, and then some context does not answer its own. -/
theorem runSteps_issued_cases (ts : List Transaction) {s : State} (hs : s.stream = issued ts) :
    (∃ t seen, runSteps ts.length s = some (t, seen) ∧
      ∀ id, answerAll (ofContext id ts) (s.contextAt id) = some (t.contextAt id, seen.filter fun x => x.1 == id)) ∨
    (runSteps ts.length s = none ∧ ∃ id, answerAll (ofContext id ts) (s.contextAt id) = none) := by
  induction ts generalizing s with
  | nil => exact .inl ⟨s, [], rfl, fun _ => rfl⟩
  | cons x ts ih =>
    replace hs : s.stream = .issue [x] :: issued ts := hs
    obtain ⟨c, c', r, hc, ha, hstep⟩ | ⟨⟨why, hstep⟩, hnone⟩ := step_issue_one_cases hs
    · have hanswer := fun id => answerAll_ofContext_cons hc ha (issued ts) id ts
      rw [List.length_cons, runSteps_succ_next hstep]
      obtain ⟨t, seen, hrun, hall⟩ | ⟨hrun, id, hnone⟩ := ih (s := (s.taking x [] (issued ts)).respond c' r) rfl
      · refine .inl ⟨t, (x.context, r) :: seen, by rw [hrun]; rfl, fun id => ?_⟩
        rw [hanswer, hall, Option.map_some, ← List.filter_append]
        rfl
      · exact .inr ⟨by rw [hrun]; rfl, id, by rw [hanswer, hnone]; rfl⟩
    · refine .inr ⟨by rw [List.length_cons, runSteps, hstep], x.context, ?_⟩
      rw [ofContext, List.filter_cons_of_pos (by simp)]
      exact hnone _

/-- Settles O10: what a run leaves of a context, and shows of it, is what the context's own transactions leave and show, and the two
lists have the same ones for each context. -/
theorem interleavingsOfContextsAgree : Obligations.InterleavingsOfContextsAgree := by
  intro s t ts us seen hsame hrun
  change ∀ id, ofContext id ts = ofContext id us at hsame
  obtain ⟨t₀, seen₀, hrun₀, hts⟩ | ⟨hstop, -⟩ := runSteps_issued_cases ts (s := { s with stream := issued ts }) rfl
  · obtain ⟨rfl, rfl⟩ : t₀ = t ∧ seen₀ = seen := by simpa [hrun₀] using hrun
    simp only [hsame] at hts
    obtain ⟨t', seen', hrun', hus⟩ | ⟨-, id, hnone⟩ := runSteps_issued_cases us (s := { s with stream := issued us }) rfl
    · refine ⟨t', seen', hrun', fun id => ?_⟩
      have hboth := (hus id).symm.trans (hts id)
      rw [Option.some.injEq, Prod.mk.injEq] at hboth
      exact hboth.symm
    · cases hnone.symm.trans (hts id)
  · cases hstop.symm.trans hrun

end Sys2Proof.Machine
end

section
/-! PROOFS. Command words: what a word is by its fields, that DECODE and the encoder are inverse to each other, and which words are illegal
and how they are answered (30_encoding.md R101, R105, R107, R113). -/

namespace Sys2Proof.Machine

/-! ## The fields of a command word -/

theorem commandWord_getLsbD (opc : BitVec 8) (m : Bool) (k : Nat) :
    (commandWord opc m).getLsbD k = if k < 8 then opc.getLsbD k else decide (k = 8) && m := by
  rw [commandWord, BitVec.getLsbD_append, BitVec.getLsbD_append]
  by_cases h : k < 8
  · simp [h]
  · by_cases h8 : k = 8
    · simp [h8]
    · simp [h, h8, show ¬ k - 8 < 1 by omega]

theorem reservedField_eq_zero {w : BitVec 32} : reservedField w = 0 ↔ ∀ k, 9 ≤ k → w.getLsbD k = false := by
  constructor
  · intro h k hk
    have hbit := congrArg (fun v => v.getLsbD (k - 9)) h
    by_cases hlt : k < 32
    · simpa [reservedField, show k - 9 < 23 by omega, show 9 + (k - 9) = k by omega] using hbit
    · exact BitVec.getLsbD_of_ge _ _ (by omega)
  · intro h
    apply BitVec.eq_of_getLsbD_eq
    intro k _
    simp [reservedField, h (9 + k) (by omega)]

@[simp] theorem reservedField_commandWord (opc : BitVec 8) (m : Bool) : reservedField (commandWord opc m) = 0 :=
  reservedField_eq_zero.mpr fun k hk => by
    rw [commandWord_getLsbD, if_neg (by omega), decide_eq_false (by omega), Bool.false_and]

@[simp] theorem opcodeField_commandWord (opc : BitVec 8) (m : Bool) : opcodeField (commandWord opc m) = opc :=
  BitVec.extractLsb'_append_eq_right

@[simp] theorem modeField_commandWord (opc : BitVec 8) (m : Bool) : modeField (commandWord opc m) = m := by
  rw [modeField, commandWord_getLsbD]
  simp

/-- A word with RSV 0 is the command word of its opcode and its MODE bit (R101). -/
theorem commandWord_fields {w : BitVec 32} (h : reservedField w = 0) : commandWord (opcodeField w) (modeField w) = w := by
  apply BitVec.eq_of_getLsbD_eq
  intro k hk
  rw [commandWord_getLsbD]
  obtain hlt | rfl | hgt := lt_trichotomy k 8
  · simp [hlt, opcodeField]
  · simp [modeField]
  · rw [reservedField_eq_zero.mp h k hgt, if_neg (by omega), decide_eq_false (by omega), Bool.false_and]

@[simp] theorem modeOfBit_bitOfMode (m : Mode) : modeOfBit (bitOfMode m) = m := by cases m <;> rfl

@[simp] theorem bitOfMode_modeOfBit (b : Bool) : bitOfMode (modeOfBit b) = b := by cases b <;> rfl

/-! ## DECODE and the encoder -/

/-- Settles O1: the fields of a command word are the opcode and the MODE bit it was put together from, so DECODE takes the branch of
the command and finds its operands in the record. -/
theorem decodeInvertsEncode : Obligations.DecodeInvertsEncode := by
  intro i hi
  cases i <;> simp only [Instr.isCommand, Bool.false_eq_true] at hi
  all_goals exact ⟨_, _, rfl, by simp [decode]⟩

/-- A word that DECODE accepts has RSV 0, and its opcode and MODE bit are those of the command it gives. -/
theorem decode_ok_fields {w : BitVec 32} {r : OperandRecord} {i : Instr} (h : decode w r = .ok i) :
    reservedField w = 0 ∧ ∃ r', encode i = some (commandWord (opcodeField w) (modeField w), r') := by
  unfold decode at h
  split_ifs at h with hr ho ho hm ho ho ho ho ho <;> cases h
  all_goals refine ⟨not_not.mp hr, ?_⟩
  all_goals simp [encode, *]

/-- Settles O2: DECODE accepts a word with RSV 0 alone, and the other two fields are those of its command. -/
theorem acceptedWordIsTheCommandsWord : Obligations.AcceptedWordIsTheCommandsWord := by
  intro w r i h
  obtain ⟨hr, henc⟩ := decode_ok_fields h
  rw [commandWord_fields hr] at henc
  exact ⟨decode_isCommand h, henc⟩

/-- Settles O3: the encoder and DECODE evaluated on the words. -/
theorem workedEncodings : Obligations.WorkedEncodings :=
  ⟨⟨rfl, rfl⟩, ⟨rfl, rfl⟩, fun _ => ⟨rfl, rfl⟩, ⟨rfl, rfl⟩, fun _ => ⟨_, rfl⟩, fun _ => ⟨_, rfl⟩, fun _ => ⟨_, rfl⟩⟩

/-! ## Illegal words -/

theorem opcodeField_toNat (w : BitVec 32) : (opcodeField w).toNat = w.toNat % 2 ^ 8 := by
  simp [opcodeField]

/-- The words that DECODE rejects, by their fields (R107): RSV, an opcode without a command, MODE 1 with an opcode that has no mode. -/
theorem decode_error_iff {w : BitVec 32} {r : OperandRecord} :
    (∃ e, decode w r = .error e) ↔
      ((opcodeField w).toNat = 0 ∨ 8 ≤ (opcodeField w).toNat) ∨
      (modeField w = true ∧ (opcodeField w).toNat ∈ [1, 3, 4, 5, 7]) ∨ reservedField w ≠ 0 := by
  by_cases hr : reservedField w = 0
  · simp only [decode, hr, ne_eq, not_true_eq_false, if_false, or_false]
    split_ifs with h2 h6 hm h1 h3 h4 h5 h7
    · simp [h2]
    · simp [h6]
    · simp [BitVec.toNat_eq] at h2 h6
      simp [hm]
      omega
    · simp [hm, h1]
    · simp [hm, h3]
    · simp [hm, h4]
    · simp [hm, h5]
    · simp [hm, h7]
    · simp [BitVec.toNat_eq] at h1 h2 h3 h4 h5 h6 h7
      simp [hm]
      omega
  · exact iff_of_true ⟨_, if_pos hr⟩ (.inr (.inr hr))

theorem reservedField_ne_zero {w : BitVec 32} : reservedField w ≠ 0 ↔ ∃ k, 9 ≤ k ∧ w.getLsbD k = true := by
  rw [ne_eq, reservedField_eq_zero]
  simp

/-- An illegal word at the port: the answer of R107, on the context it addresses. -/
theorem step_illegal {s : State} {t : Transaction} {ts : List Transaction} {rest : List PortEvent} {c : Context} {e : DecodeError}
    (hs : s.stream = .issue (t :: ts) :: rest) (hd : distinctContexts (t :: ts) = true) (hc : s.contextAt t.context = some c)
    (he : decode t.cmd t.operands = .error e) :
    step s = .next ((s.taking t ts rest).respond c (failed .illegalCommand)) := by
  rw [step, fetch_issue hs hd, State.take, he, current_taking, hc]

/-- Settles O4: the legal words evaluated; the illegal ones by their fields; and the answer keeps the registers. -/
theorem illegalWordsAreAnswered : Obligations.IllegalWordsAreAnswered := by
  refine ⟨fun r => ⟨rfl, rfl, rfl, rfl, rfl, rfl, rfl, rfl, rfl⟩, fun w r => ?_, ?_⟩
  · rw [decode_error_iff, opcodeField_toNat, reservedField_ne_zero, modeField]
  · rintro s t ts rest c hs hd hc ⟨e, he⟩
    exact ⟨_, step_illegal hs hd hc he, rfl, rfl, rfl, rfl, contextAt_respond_keep (s := s.taking t ts rest) hc _⟩

end Sys2Proof.Machine
end

section
/-! PROOFS. Responses: which command gives which status, and when OUT and TAG are there and how long (30_encoding.md R104, 60_exceptions.md
R281). -/

namespace Sys2Proof.Machine

/-! ## The statuses of failing checks -/

/-- UNSUPPORTED_KEY_LENGTH is the status of a check of SET_KEY alone (R210). -/
theorem setKey_of_unsupportedKeyLength_check {i : Instr} {c : Context} {b : Bool}
    (h : (b, .unsupportedKeyLength) ∈ commandChecks i c) : ∃ keyBits key, i = .setKey keyBits key := by
  cases i
  case setKey keyBits key => exact ⟨keyBits, key, rfl⟩
  all_goals simp [commandChecks, oneShotChecks, keyedCheck, beforeAadCheck, inMessageCheck, ivChecks, aadChecks, inputChecks,
    tagLenChecks, tagChecks] at h

theorem invalidState_notMem_keyChecks (keyBits : BitVec 32) (key : Buffer) (b : Bool) :
    (b, .invalidState) ∉ keyChecks keyBits key := by
  simp [keyChecks]

/-! ## The lengths of OUT and TAG -/

theorem tagLen_of_tagLenChecks {n : BitVec 32} (h : firstFailing (tagLenChecks n) = none) : n.toNat ≤ tagMax := by
  rw [firstFailing_tagLenChecks] at h
  by_contra hn
  rw [if_pos (.inr (not_le.mp hn))] at h
  cases h

theorem tagLen_of_oneShotChecks {c : Context} {ivLen aadLen len : BitVec 64} {iv aad input : Buffer} {tagLen : BitVec 32}
    (h : firstFailing (oneShotChecks ivLen iv aadLen aad len input tagLen c) = none) : tagLen.toNat ≤ tagMax := by
  rw [oneShotChecks, firstFailing_cons_eq_none, firstFailing_append, Option.or_eq_none_iff] at h
  exact tagLen_of_tagLenChecks h.2.2

theorem finishBody_length {tagLen : BitVec 32} (h : tagLen.toNat ≤ tagMax) (c : Context) :
    (finishBody tagLen c).2.length = tagLen.toNat := by
  rw [finishBody_eq]
  simpa using h

@[simp] theorem oneShotBody_out_length (mode : Mode) (iv : List Byte) (aadLen : BitVec 64) (aad : List Byte) (len : BitVec 64)
    (input : List Byte) (tagLen : BitVec 32) (c : Context) :
    (oneShotBody mode iv aadLen aad len input tagLen c).out.length = input.length :=
  updateBody_length len _ _

theorem oneShotBody_tag_length {tagLen : BitVec 32} (h : tagLen.toNat ≤ tagMax) (mode : Mode) (iv : List Byte) (aadLen : BitVec 64)
    (aad : List Byte) (len : BitVec 64) (input : List Byte) (c : Context) :
    (oneShotBody mode iv aadLen aad len input tagLen c).tag.length = tagLen.toNat :=
  finishBody_length h _

@[simp] theorem verdict_tag (plain check tag : List Byte) (len : BitVec 64) (tagLen : BitVec 32) :
    (verdict plain check tag len tagLen).tag = [] := by
  unfold verdict
  split <;> rfl

theorem verdict_out_length {plain : List Byte} {len : BitVec 64} (h : plain.length = len.toNat) (check tag : List Byte)
    (tagLen : BitVec 32) : (verdict plain check tag len tagLen).out.length = len.toNat := by
  unfold verdict
  split
  · exact h
  · exact List.length_replicate

/-! ## The shape of a response -/

/-- Settles O38: a response is that of a failing check, with empty OUT and TAG and a status by which checks the command has, or that
of the command's effect, which gives OUT and TAG the lengths that the passed checks ask. -/
theorem responsesHaveTheirShape : Obligations.ResponsesHaveTheirShape := by
  refine ⟨⟨rfl, rfl, rfl, rfl, rfl, rfl⟩, fun i s t r hi h hr => ?_⟩
  obtain ⟨c, -, hw, ⟨st, hf, hst, rfl⟩ | ⟨hn, rfl⟩⟩ := exec_answer_cases hi h
  · obtain rfl : failed st = r := Option.some.inj hr
    have hmem := firstFailing_mem hst
    obtain rfl | rfl | rfl := hf
    · simp [failed]
    · have hset : ∀ keyBits key, i ≠ .setKey keyBits key := by
        rintro keyBits key rfl
        exact invalidState_notMem_keyChecks keyBits key true hmem
      simpa [failed] using hset
    · simpa [failed] using setKey_of_unsupportedKeyLength_check hmem
  · replace hr : commandResponse i c = r := Option.some.inj hr
    cases i <;> simp only [Instr.isCommand, Bool.false_eq_true] at hi
    case setKey | start | updateAd => simp [← hr, commandResponse, okOnly]
    case update len input =>
      obtain ⟨hl, -⟩ := input_of_inputChecks hw (firstFailing_cons_eq_none.mp hn).2
      simp [← hr, commandResponse, hl]
    case finish tagLen =>
      have ht := finishBody_length (tagLen_of_tagLenChecks (firstFailing_cons_eq_none.mp hn).2) c
      simp [← hr, commandResponse, ht]
    case cryptAndTag mode ivLen iv aadLen aad len input tagLen =>
      simp only [Instr.wf, Bool.and_eq_true] at hw
      obtain ⟨-, -, hl, -⟩ := oneShot_of_oneShotChecks hw.2 hn
      have hs : r.status = .ok := hr ▸ rfl
      have hout : r.out.length = len.toNat := hr ▸ (oneShotBody_out_length _ _ _ _ len _ tagLen c).trans hl
      have htag : r.tag.length = tagLen.toNat := hr ▸ oneShotBody_tag_length (tagLen_of_oneShotChecks hn) ..
      simp +contextual [hs, hout, htag]
    case authDecrypt ivLen iv aadLen aad len input tagLen tag =>
      simp only [Instr.wf, Bool.and_eq_true] at hw
      simp only [commandChecks, firstFailing_append, Option.or_eq_none_iff] at hn
      obtain ⟨-, -, hl, -⟩ := oneShot_of_oneShotChecks hw.1.2 hn.1
      have hout : r.out.length = len.toNat := hr ▸ verdict_out_length ((oneShotBody_out_length ..).trans hl) _ _ _
      have htag : r.tag = [] := hr ▸ verdict_tag _ _ _ _ _
      obtain hs | hs : r.status = .ok ∨ r.status = .authenticationFailed := hr ▸ verdict_status _ _ _ _ _
      · simp +contextual [hs, hout, htag]
      · simp +contextual [hs, hout, htag]

end Sys2Proof.Machine
end

section
/-! PROOFS. The field: x is a unit and a square, so squaring is onto and therefore one to one, and no Block but 0 has a power that is 0
(41_galois_multiplier.md R130, 45_oneshot.md R259). -/

namespace Sys2Proof.Machine

/-! ## Multiplication by x -/

/-- Settles O16: the halves side by side, and the product with the power x^1. -/
theorem halvingIsMultiplicationByX : Obligations.HalvingIsMultiplicationByX :=
  ⟨fun vh vl => (mulxHalves_append vh vl).symm, fun v => (gfMulRef_xPow_left (i := 1) (by omega) v).symm⟩

/-- The inverse of x: x • (x^127 + x^6 + x + 1) = x^128 + x^7 + x^2 + x = 1. -/
def xInverse : Block := xPow 127 ^^^ xPow 6 ^^^ xPow 1 ^^^ xPow 0

theorem mulx_xInverse : mulx xInverse = xPow 0 := by decide

theorem gfMulRef_xInverse_mulx (v : Block) : gfMulRef xInverse (mulx v) = v :=
  calc gfMulRef xInverse (mulx v)
    _ = mulx (gfMulRef xInverse v) := gfMulRef_mulxIter_right 1 _ _
    _ = gfMulRef (mulx xInverse) v := (gfMulRef_mulxIter_left 1 _ _).symm
    _ = v := by rw [mulx_xInverse, gfMulRef_one_left]

theorem mulx_injective : Function.Injective mulx := Function.LeftInverse.injective gfMulRef_xInverse_mulx

theorem mulxIter_eq_zero {n : Nat} {v : Block} : mulxIter n v = 0 ↔ v = 0 :=
  (mulx_injective.iterate n).eq_iff' (mulxIter_zero n)

/-! ## Squares -/

/-- Squaring is additive, as 1 + 1 = 0. -/
theorem gfMulRef_self_xor (a b : Block) : gfMulRef (a ^^^ b) (a ^^^ b) = gfMulRef a a ^^^ gfMulRef b b := by
  rw [gfMulRef_xor_left, gfMulRef_xor_right, gfMulRef_xor_right, gfMulRef_comm b a, BitVec.xor_assoc,
    ← BitVec.xor_assoc (gfMulRef a b), BitVec.xor_self, BitVec.zero_xor]

/-- The square root of x, which is x^(2^127). -/
def xRoot : Block := 0x25b6db6db6db6db64924924924924924

theorem gfMulRef_xRoot_self : gfMulRef xRoot xRoot = xPow 1 := by decide +kernel

theorem gfMulRef_mul_self (a b : Block) :
    gfMulRef (gfMulRef a b) (gfMulRef a b) = gfMulRef (gfMulRef a a) (gfMulRef b b) := by
  rw [gfMulRef_assoc, gfMulRef_assoc, ← gfMulRef_assoc b, gfMulRef_comm b a, gfMulRef_assoc a b b]

/-- Every power of x is the square of that power of the root of x. -/
theorem exists_root_xPow {i : Nat} (hi : i < 128) : ∃ r, gfMulRef r r = xPow i := by
  induction i with
  | zero => exact ⟨xPow 0, gfMulRef_one_left _⟩
  | succ i ih =>
    obtain ⟨r, hr⟩ := ih (by omega)
    refine ⟨gfMulRef xRoot r, ?_⟩
    rw [gfMulRef_mul_self, gfMulRef_xRoot_self, hr, gfMulRef_xPow_left (by omega)]
    exact mulx_xPow (by omega)

theorem gfMulRef_self_surjective : Function.Surjective fun a => gfMulRef a a := by
  intro x
  induction x using block_induction with
  | zero => exact ⟨0, gfMulRef_zero_left 0⟩
  | sum a b iha ihb =>
    obtain ⟨r, rfl⟩ := iha
    obtain ⟨q, rfl⟩ := ihb
    exact ⟨r ^^^ q, gfMulRef_self_xor r q⟩
  | power i hi => exact exists_root_xPow hi

/-- There are finitely many Blocks, so squaring is one to one. -/
theorem gfMulRef_self_eq_zero {a : Block} (h : gfMulRef a a = 0) : a = 0 :=
  Finite.injective_iff_surjective.mpr gfMulRef_self_surjective (h.trans (gfMulRef_zero_left 0).symm)

/-! ## Powers of a Block -/

/-- With `y • h • h`, the square of `y • h` is 0 too. -/
theorem gfMulRef_eq_zero_of_twice {y h : Block} (e : gfMulRef (gfMulRef y h) h = 0) : gfMulRef y h = 0 := by
  apply gfMulRef_self_eq_zero
  calc gfMulRef (gfMulRef y h) (gfMulRef y h)
    _ = gfMulRef (gfMulRef y h) (gfMulRef h y) := by rw [gfMulRef_comm y h]
    _ = gfMulRef (gfMulRef (gfMulRef y h) h) y := (gfMulRef_assoc _ _ _).symm
    _ = 0 := by rw [e, gfMulRef_zero_left]

theorem gfMulRef_eq_zero_of_iterate {h : Block} {k : Nat} {y : Block} (e : (fun z => gfMulRef z h)^[k + 1] y = 0) :
    gfMulRef y h = 0 := by
  induction k generalizing y with
  | zero => exact e
  | succ k ih => exact gfMulRef_eq_zero_of_twice (ih e)

/-- Settles O59: were the product 0, so were the one bit times H, which is a power of x times H; and x is a unit. -/
theorem oneBitTimesPowersOfHVanishesOnlyForZeroH : Obligations.OneBitTimesPowersOfHVanishesOnlyForZeroH := by
  intro h j k hj hk
  obtain ⟨k, rfl⟩ : ∃ m, k = m + 1 := ⟨k - 1, by omega⟩
  have hbit : BitVec.ofNat 128 (2 ^ j) = xPow (127 - j) := by rw [xPow, show 127 - (127 - j) = j by omega]
  rw [hbit, not_iff_not]
  constructor
  · intro e
    have hprod := gfMulRef_eq_zero_of_iterate e
    rwa [gfMulRef_xPow_left (by omega), mulxIter_eq_zero] at hprod
  · rintro rfl
    rw [Function.iterate_succ_apply', gfMulRef_zero_right]

end Sys2Proof.Machine
end

section
/-! PROOFS. The tables and GF_MULT: a table entry is the product with a nibble, GF_MULT is Horner's rule over the table entries, and
Horner's rule over nibble multiples is the product (41_galois_multiplier.md R132 to R135). -/

namespace Sys2Proof.Machine

/-! ## The tables -/

/-- A nibble as the coefficients of x^0 to x^3: the top four bits of a Block (R132). -/
def topNibble (n : Nibble) : Block := BitVec.ofNat 128 (n.toNat * 2 ^ 124)

theorem topNibble_eq_sum : ∀ n : Nibble,
    topNibble n = bitTimes (n.getLsbD 3) (xPow 0) ^^^ bitTimes (n.getLsbD 2) (xPow 1) ^^^ bitTimes (n.getLsbD 1) (xPow 2) ^^^
      bitTimes (n.getLsbD 0) (xPow 3) := by
  decide

theorem gfMulRef_bitTimes_left (b : Bool) (v h : Block) : gfMulRef (bitTimes b v) h = bitTimes b (gfMulRef v h) := by
  cases b
  · exact gfMulRef_zero_left h
  · rfl

theorem gfMulRef_topNibble (n : Nibble) (h : Block) : gfMulRef (topNibble n) h = nibbleMultiple h n := by
  simp [topNibble_eq_sum, gfMulRef_xor_left, gfMulRef_bitTimes_left, gfMulRef_xPow_left, nibbleMultiple]

theorem nibbleMultiple_eight (h : Block) : nibbleMultiple h 8 = h := by simp [nibbleMultiple]

/-- Settles O17: an entry is the nibble multiple of H, which is a product; the nibble 8 is 1. -/
theorem tablesAreNibbleMultiples : Obligations.TablesAreNibbleMultiples := by
  intro s c h hc
  have hrun : execBuildTables h s = .next (s.deliver c (.tables (buildTables h).1 (buildTables h).2)) := runDatapath_ok hc rfl
  refine ⟨_, _, hrun, fun n => ?_, ?_⟩
  · rw [tableEntry_buildTables, ← gfMulRef_topNibble, gfMulRef_comm, topNibble]
  · rw [tableEntry_buildTables, nibbleMultiple_eight]

/-- Settles O18, entry by entry. -/
theorem reductionTable : Obligations.ReductionTable := ⟨by decide, by decide⟩

/-! ## Horner's rule -/

/-- Horner's rule over the lowest `n` nibbles of a Block, the lowest nibble (the highest degree) first, with `T` giving the entries. -/
def horner (T : Nibble → Block) (x : Block) (n : Nat) : Block :=
  (List.range n).foldl (fun z k => mulxIter 4 z ^^^ T (x.extractLsb' (4 * k) 4)) 0

theorem horner_zero (T : Nibble → Block) (x : Block) : horner T x 0 = 0 := rfl

theorem horner_succ (T : Nibble → Block) (x : Block) (n : Nat) :
    horner T x (n + 1) = mulxIter 4 (horner T x n) ^^^ T (x.extractLsb' (4 * n) 4) := by
  rw [horner, List.range_succ, List.foldl_append]
  rfl

/-- All that GF_MULT does, whatever the tables hold: a STEP on the two halves is a turn of Horner's rule on the Block they make. -/
theorem gfMult_eq_horner (hh hl : Vector Half 16) (x : Block) : gfMult hh hl x = horner (tableEntry hh hl) x 32 :=
  calc gfMult hh hl x
    _ = (List.range 31).foldl (fun z k => mulxIter 4 z ^^^ tableEntry hh hl (nibbleInOrder x (k + 1)))
          (tableEntry hh hl (nibbleInOrder x 0)) :=
      (List.foldl_hom (fun z : Half × Half => (z.1 ++ z.2 : BitVec (64 + 64))) fun z k =>
        (gfStep_append hh hl z (nibbleInOrder x (k + 1))).symm).symm
    _ = (List.range 32).foldl (fun z k => mulxIter 4 z ^^^ tableEntry hh hl (nibbleInOrder x k)) 0 := by
      rw [List.range_succ_eq_map (n := 31), List.foldl_cons, List.foldl_map, mulxIter_zero]
      exact congrArg (List.foldl _ · _) BitVec.zero_xor.symm
    _ = horner (tableEntry hh hl) x 32 :=
      List.foldl_ext _ _ _ fun z k hk => by rw [nibbleInOrder_eq x (List.mem_range.mp hk)]

/-- The nibbles counted from the highest degree down, as R134 numbers them. -/
theorem horner_eq_foldl_reverse (T : Nibble → Block) (x : Block) :
    horner T x 32 =
      (List.range 32).reverse.foldl (fun z k => mulx (mulx (mulx (mulx z))) ^^^ T (x.extractLsb' (124 - 4 * k) 4)) 0 := by
  have hrev : (List.range 32).reverse = (List.range 32).map (31 - ·) := by decide
  rw [hrev, List.foldl_map]
  refine List.foldl_ext _ _ _ fun z k hk => ?_
  have hk := List.mem_range.mp hk
  rw [show 124 - 4 * (31 - k) = 4 * k by omega]
  rfl

/-- Settles O19: GF_MULT is Horner's rule, read in the other numbering of the nibbles. -/
theorem gfMultIsHornersRule : Obligations.GfMultIsHornersRule := by
  intro s c x hc
  rw [← horner_eq_foldl_reverse, ← gfMult_eq_horner]
  show execGfMult x s = _
  exact runDatapath_ok hc rfl

/-! ## Horner's rule is the product -/

theorem topNibble_getLsbD (n : Nibble) {k : Nat} (hk : k < 128) :
    (topNibble n).getLsbD k = (decide (124 ≤ k) && n.getLsbD (k - 124)) := by
  rw [topNibble, BitVec.getLsbD_ofNat, Nat.testBit_mul_two_pow, decide_eq_true hk, Bool.true_and]
  rfl

/-- The next nibble comes in at the top, above the nibbles so far times x^4. -/
theorem shiftLeft_next_nibble (x : Block) {n : Nat} (hn : n < 32) :
    x <<< (128 - 4 * (n + 1)) = mulxIter 4 (x <<< (128 - 4 * n)) ^^^ topNibble (x.extractLsb' (4 * n) 4) := by
  rw [mulxIter_four_high (fun k hk => by simp; omega)]
  apply BitVec.eq_of_getLsbD_eq
  intro k hk
  simp only [BitVec.getLsbD_xor, BitVec.getLsbD_ushiftRight, BitVec.getLsbD_shiftLeft, topNibble_getLsbD _ hk,
    BitVec.getLsbD_extractLsb']
  by_cases htop : 124 ≤ k
  · simp [htop, hk, show ¬ 4 + k < 128 by omega, show ¬ k < 128 - 4 * (n + 1) by omega, show k - 124 < 4 by omega,
      show k - (128 - 4 * (n + 1)) = 4 * n + (k - 124) by omega]
  · simp [htop, hk, show 4 + k < 128 by omega, show k < 128 - 4 * (n + 1) ↔ 4 + k < 128 - 4 * n by omega,
      show k - (128 - 4 * (n + 1)) = 4 + k - (128 - 4 * n) by omega]

theorem horner_nibbleMultiple (h x : Block) {n : Nat} (hn : n ≤ 32) :
    horner (nibbleMultiple h) x n = gfMulRef (x <<< (128 - 4 * n)) h := by
  induction n with
  | zero => rw [horner_zero, show x <<< (128 - 4 * 0) = 0 by simp, gfMulRef_zero_left]
  | succ n ih =>
    rw [horner_succ, ih (by omega), shiftLeft_next_nibble x hn, gfMulRef_xor_left, gfMulRef_mulxIter_left, gfMulRef_topNibble]

/-- Settles O20: GF_MULT is Horner's rule over the multiples of H, which is the product. -/
theorem tableProductIsTheProduct : Obligations.TableProductIsTheProduct := by
  intro h x
  rw [gfMult_eq_horner, funext (tableEntry_buildTables h), horner_nibbleMultiple h x le_rfl]
  simp

end Sys2Proof.Machine
end

section
/-! PROOFS. GHASH: GHASH_UPDATE as a fold over padded blocks, the incremental form, and the chunking law (41_galois_multiplier.md R137 to
R142). -/

namespace Sys2Proof.Machine

/-! ## GHASH_UPDATE -/

/-- The fold of GHASH over the first `n` groups of 16 bytes, each zero-padded to a Block. -/
def ghashGroups (hh hl : Vector Half 16) (n : Nat) (d : List Byte) (a : Block) : Block :=
  (List.range n).foldl (fun a k => gfMult hh hl (a ^^^ blockOfBytes ((d.drop (16 * k)).take 16))) a

theorem ghashGroups_succ (hh hl : Vector Half 16) (n : Nat) (d : List Byte) (a : Block) :
    ghashGroups hh hl (n + 1) d a = ghashGroups hh hl n (d.drop 16) (gfMult hh hl (a ^^^ blockOfBytes (d.take 16))) := by
  simp [ghashGroups, List.range_succ_eq_map, List.foldl_map, Nat.mul_add, Nat.add_comm]

/-- All that GHASH_UPDATE does: ceil(len / 16) groups. -/
theorem ghashUpdate_eq_groups (hh hl : Vector Half 16) (d : List Byte) (a : Block) :
    ghashUpdate hh hl d a = ghashGroups hh hl ((d.length + 15) / 16) d a := by
  induction hn : d.length using Nat.strong_induction_on generalizing d a with
  | _ n ih =>
    subst hn
    by_cases hblock : 16 ≤ d.length
    · rw [ghashUpdate_block hh hl hblock, ih _ (by simp; omega) (d.drop 16) _ rfl,
        show (d.length + 15) / 16 = ((d.drop 16).length + 15) / 16 + 1 by simp; omega, ghashGroups_succ]
    · by_cases hnil : d = []
      · subst hnil
        simp [ghashGroups]
      · have hpos := List.length_pos_iff.mpr hnil
        rw [ghashUpdate_partial hh hl hnil (by omega), show (d.length + 15) / 16 = 0 + 1 by omega, ghashGroups_succ,
          List.take_of_length_le (by omega)]
        rfl

/-- Settles O21: GHASH_UPDATE hands back the fold over the groups. -/
theorem ghashUpdateTakesPaddedBlocks : Obligations.GhashUpdateTakesPaddedBlocks := by
  intro s c d a hc
  rw [← ghashGroups, ← ghashUpdate_eq_groups]
  show execGhashUpdate d a s = _
  exact runDatapath_ok hc rfl

/-! ## GHASH_ABSORB and GHASH_FLUSH -/

theorem ghashAbsorb_sixteenth {c : Context} (h : c.ghPend = 15) (b : Byte) :
    ghashAbsorb c b = { c with acc := gfMult c.hh c.hl (c.acc ^^^ byteAt c.ghPend.toNat b), ghPend := 0 } := if_pos h

theorem ghashAbsorb_inside {c : Context} (h : c.ghPend ≠ 15) (b : Byte) :
    ghashAbsorb c b = { c with acc := c.acc ^^^ byteAt c.ghPend.toNat b, ghPend := c.ghPend + 1 } := if_neg h

theorem blockByte_xor_byteAt (a : Block) (b : Byte) {i j : Nat} (hi : i < 16) (hj : j < 16) :
    blockByte (a ^^^ byteAt j b) i = if i = j then blockByte a i ^^^ b else blockByte a i := by
  rw [blockByte_xor, blockByte_byteAt hi hj]
  split <;> simp

/-- Settles O22: x is ACC with the byte XORed into its place. -/
theorem ghashAbsorbTakesOneByte : Obligations.GhashAbsorbTakesOneByte := by
  intro s c b hc
  have hrun : exec (.ghashAbsorb b) s = .next (s.deliver (ghashAbsorb c b) .registersOnly) := by
    show execGhashAbsorb b s = _
    exact runDatapath_ok hc rfl
  refine ⟨c.acc ^^^ byteAt c.ghPend.toNat b, fun i hi => blockByte_xor_byteAt _ _ hi c.ghPend.isLt, fun h => ?_, fun h => ?_⟩
  · rw [hrun, ghashAbsorb_sixteenth h]
  · rw [hrun, ghashAbsorb_inside h]

theorem ghashFlush_aligned {c : Context} (h : c.ghPend = 0) : ghashFlush c = c := if_pos h

theorem ghashFlush_pending {c : Context} (h : c.ghPend ≠ 0) :
    ghashFlush c = { c with acc := gfMult c.hh c.hl c.acc, ghPend := 0 } := if_neg h

/-- Settles O23, by the two cases of GH_PEND. -/
theorem ghashFlushClosesTheBlock : Obligations.GhashFlushClosesTheBlock := by
  intro s c hc
  have hrun : exec .ghashFlush s = .next (s.deliver (ghashFlush c) .registersOnly) := by
    show execGhashFlush s = _
    exact runDatapath_ok hc rfl
  exact ⟨fun h => by rw [hrun, ghashFlush_aligned h], fun h => by rw [hrun, ghashFlush_pending h]⟩

/-! ## The chunking law -/

/-- Absorbing from an open block position 0, then closing the block. -/
theorem ghashFlush_foldl_ghashAbsorb {c : Context} (h : c.ghPend = 0) (l : List Byte) :
    ghashFlush (l.foldl ghashAbsorb c) = { c with acc := ghashUpdate c.hh c.hl l c.acc, ghPend := 0 } := by
  rw [ghashFlush_eq, foldl_ghashAbsorb_eq, h, ← foldl_absorbPair_flush]

/-- Settles O24: chunk by chunk is byte by byte over the concatenation. -/
theorem absorbThenFlushIsGhashUpdate : Obligations.AbsorbThenFlushIsGhashUpdate := by
  intro c chunks h
  rw [← List.foldl_flatten, ghashFlush_foldl_ghashAbsorb h]
  exact ⟨rfl, rfl⟩

end Sys2Proof.Machine
end

section
/-! PROOFS. DERIVE_J0: the closed form of each of its two paths, and its run on every IV; TAG_COMPARE outside the operands of its
rule (42_iv_deriver.md R160 to R163, 45_oneshot.md R256). -/

namespace Sys2Proof.Machine

/-! ## The last four bytes of a Block -/

/-- A bit of a Block is a bit of one of its bytes. -/
theorem getLsbD_eq_blockByte (b : Block) {k : Nat} (hk : k < 128) : b.getLsbD k = (blockByte b (15 - k / 8)).getLsbD (k % 8) := by
  rw [blockByte_getLsbD, show 8 * (15 - (15 - k / 8)) + k % 8 = k by omega]
  simp [Nat.mod_lt]

theorem be32_getD (v : BitVec 32) {i : Nat} (h : i < 4) : (be32 v).getD i 0 = v.extractLsb' (8 * (3 - i)) 8 := by
  simp [be32, List.getD_eq_getElem?_getD, h]

theorem blockOfBytes_append_be32_setWidth {l : List Byte} (h : l.length = 12) (v : BitVec 32) :
    (blockOfBytes (l ++ be32 v)).setWidth 32 = v := by
  apply BitVec.eq_of_getLsbD_eq
  intro k hk
  have hlen : (l ++ be32 v).length ≤ 16 := by simp [be32_length, h]
  rw [BitVec.getLsbD_setWidth, getLsbD_eq_blockByte _ (by omega), blockByte_blockOfBytes (by omega) hlen,
    List.getD_append_right _ _ _ _ (by omega), be32_getD v (by omega), BitVec.getLsbD_extractLsb',
    show 8 * (3 - (15 - k / 8 - l.length)) + k % 8 = k by omega]
  simp [hk, Nat.mod_lt]

/-! ## The two paths of DERIVE_J0 -/

theorem deriveJ0_fast (hh hl : Vector Half 16) {iv : List Byte} (h : iv.length = 12) :
    deriveJ0 hh hl iv = blockOfBytes (iv ++ be32 1) := if_pos h

/-- The length block of the general path is the length of the IV in bits: no IV of the spec reaches 2^64 bits. -/
theorem blockOfBytes_lengthBlock_zero {n : Nat} (h : n < 2 ^ 61) : blockOfBytes (lengthBlock 0 n) = BitVec.ofNat 128 (8 * n) := by
  rw [blockOfBytes_lengthBlock]
  apply BitVec.eq_of_toNat_eq
  have hbits : (n * 8) % 2 ^ 64 = n * 8 := Nat.mod_eq_of_lt (by omega)
  simp only [BitVec.toNat_append, BitVec.toNat_ofNat, Nat.zero_mul, Nat.zero_mod, Nat.zero_shiftLeft, Nat.zero_or, hbits]
  omega

theorem deriveJ0_general (hh hl : Vector Half 16) {iv : List Byte} (h : iv.length ≠ 12) (hlen : iv.length < 2 ^ 61) :
    deriveJ0 hh hl iv = gfMult hh hl (ghashUpdate hh hl iv 0 ^^^ BitVec.ofNat 128 (8 * iv.length)) := by
  rw [deriveJ0, fastIvBytes, if_neg h, ghashUpdate_one hh hl (lengthBlock_length 0 iv.length), blockOfBytes_lengthBlock_zero hlen]

/-! ## DERIVE_J0 and TAG_COMPARE run on their own -/

theorem exec_deriveJ0_of_valid {s : State} {c : Context} {iv : List Byte} (hc : s.current = some c)
    (h : 1 ≤ iv.length ∧ iv.length < 2 ^ 29) :
    exec (.deriveJ0 iv) s = .next (s.deliver c (.block (deriveJ0 c.hh c.hl iv))) := by
  show execDeriveJ0 iv s = _
  exact runDatapath_ok hc (if_pos h)

theorem exec_deriveJ0_of_not_valid {s : State} {c : Context} {iv : List Byte} (hc : s.current = some c)
    (h : ¬ (1 ≤ iv.length ∧ iv.length < 2 ^ 29)) : exec (.deriveJ0 iv) s = .refused .operandDomain := by
  show execDeriveJ0 iv s = _
  exact runDatapath_error hc (if_neg h)

theorem tagCompareDomain_iff (check tag : List Byte) (t : Nat) :
    tagCompareDomain check tag t = true ↔ 4 ≤ t ∧ t ≤ 16 ∧ t ≤ check.length ∧ t ≤ tag.length := by
  simp [tagCompareDomain, and_assoc]

theorem exec_tagCompare_of_not_domain {s : State} {c : Context} {check tag : List Byte} {t : BitVec 32} (hc : s.current = some c)
    (h : ¬ tagCompareDomain check tag t.toNat = true) : exec (.tagCompare check tag t) s = .refused .operandDomain := by
  show execTagCompare check tag t s = _
  exact runDatapath_error hc (if_neg h)

/-- Settles O25: on the fast path the bytes and the last 32 bits of J0 are read off the packed sequence; on the general path the length
block is one block of GHASH_UPDATE. -/
theorem deriveJ0ByIvLength : Obligations.DeriveJ0ByIvLength := by
  intro s c iv hc hpos hlen
  rw [exec_deriveJ0_of_valid hc (by omega)]
  constructor
  · intro h
    rw [deriveJ0_fast _ _ h]
    refine ⟨_, rfl, fun i hi => ?_, ?_⟩
    · rw [blockByte_blockOfBytes (by omega) (by simp [be32_length, h]), List.getD_append _ _ _ _ (by omega)]
    · rw [← BitVec.toNat_setWidth, blockOfBytes_append_be32_setWidth h]
      rfl
  · intro h
    rw [deriveJ0_general _ _ h (by omega)]

/-- Settles O42: each operand named is outside the domain the operation checks. -/
theorem datapathOperandDomains : Obligations.DatapathOperandDomains := by
  constructor
  · intro s c iv hc h
    exact exec_deriveJ0_of_not_valid hc (by omega)
  · intro s c check tag t hc h
    exact exec_tagCompare_of_not_domain hc (by rw [tagCompareDomain_iff]; omega)

end Sys2Proof.Machine
end

section
/-! PROOFS. The CounterCodec: INC32, CTR_CRYPT and CTR_SINGLE_BLOCK run on their own, and the payload counters of a message
(43_counter_codec.md R180, R181, R183, R184). -/

namespace Sys2Proof.Machine

/-! ## INC32, CTR_CRYPT and CTR_SINGLE_BLOCK run on their own -/

/-- Settles O26: the quotient and the remainder by 2^32 are read off the integer of INC32. -/
theorem inc32WrapsInTheLastFourBytes : Obligations.Inc32WrapsInTheLastFourBytes := by
  intro s c b hc
  have hrun : exec (.inc32 b) s = .next (s.deliver c (.block (inc32 b))) := by
    show execInc32 b s = _
    exact runDatapath_ok hc rfl
  have hint := inc32_toNat b
  exact ⟨inc32 b, hrun, by omega, by omega⟩

/-- Settles O27: CTR_CRYPT hands back its closed form, the stream being that of the registers before it. -/
theorem ctrCryptClosedForm : Obligations.CtrCryptClosedForm := by
  intro s c d hc
  refine ⟨ctrStream c, fun _ => rfl, ?_⟩
  show execCtrCrypt d s = _
  exact runDatapath_ok hc (by rw [ctrCrypt_eq])

/-- Settles O29: the operation hands back the cipher of its counter under its block, from the registers as they are. -/
theorem ctrSingleBlockIsOneBlock : Obligations.CtrSingleBlockIsOneBlock := by
  intro s c j x hc
  show execCtrSingleBlock j x s = _
  exact runDatapath_ok hc rfl

/-! ## The payload counters -/

/-- INC32 comes back to a counter only after 2^32 turns. -/
theorem inc32Iter_ne {m m' : Nat} (hlt : m < m') (hturn : m' < m + 2 ^ 32) (b : Block) : inc32Iter m b ≠ inc32Iter m' b := by
  intro h
  have hint := congrArg BitVec.toNat h
  rw [inc32Iter_toNat, inc32Iter_toNat] at hint
  omega

/-- Settles O30: the counters of a message, J0_ORIG being the one after no turn, are less than 2^32 turns apart; the last four bytes
wrap at the second counter from J0_ORIG = fffffffe. -/
theorem payloadCountersAreDistinct : Obligations.PayloadCountersAreDistinct := by
  refine ⟨fun n hn => ?_, fun b m m' h1 hlt hmax => ⟨?_, ?_, ?_⟩, 0xfffffffe, 1, by omega, by omega, ?_, ?_⟩
  · have : n ≤ 2 ^ 36 - 32 := hn
    omega
  · exact inc32Iter_ne hlt (by omega) b
  · exact (inc32Iter_ne (m := 0) (by omega) (by omega) b).symm
  · exact (inc32Iter_ne (m := 0) (by omega) (by omega) b).symm
  · rw [inc32Iter_toNat]
    decide
  · rw [inc32Iter_toNat]
    decide

end Sys2Proof.Machine
end

section
/-! PROOFS. UPDATEs one after the other: a run of them is the iterate of the body of UPDATE, that iterate is one body over the whole
payload, and its output is the payload under the keystream (43_counter_codec.md R182). -/

namespace Sys2Proof.Machine

/-! ## The bodies of UPDATEs, one after the other -/

/-- The body of an UPDATE for each chunk: the registers after the last, and OUT of each. -/
def updateBodies : List (List Byte) → Context → Context × List (List Byte)
  | [], c => (c, [])
  | d :: rest, c =>
    let first := updateBody (BitVec.ofNat 64 d.length) d c
    let others := updateBodies rest first.1
    (others.1, first.2 :: others.2)

theorem updateBodies_cons (d : List Byte) (rest : List (List Byte)) (c : Context) :
    updateBodies (d :: rest) c =
      ((updateBodies rest (updateBody (BitVec.ofNat 64 d.length) d c).1).1,
        (updateBody (BitVec.ofNat 64 d.length) d c).2 :: (updateBodies rest (updateBody (BitVec.ofNat 64 d.length) d c).1).2) := rfl

theorem updateBodies_lengths (chunks : List (List Byte)) (c : Context) :
    (updateBodies chunks c).2.map List.length = chunks.map List.length := by
  induction chunks generalizing c with
  | nil => rfl
  | cons d rest ih => rw [updateBodies_cons, List.map_cons, List.map_cons, updateBody_length, ih]

/-- However a payload is split into one chunk or more, the registers and the whole output are those of one UPDATE of it. -/
theorem updateBodies_eq_updateBody {chunks : List (List Byte)} (h : chunks ≠ []) (c : Context) :
    (updateBodies chunks c).1 = (updateBody (BitVec.ofNat 64 chunks.flatten.length) chunks.flatten c).1 ∧
    (updateBodies chunks c).2.flatten = (updateBody (BitVec.ofNat 64 chunks.flatten.length) chunks.flatten c).2 := by
  induction chunks generalizing c with
  | nil => exact absurd rfl h
  | cons d rest ih =>
    rw [updateBodies_cons, List.flatten_cons, List.flatten_cons, List.length_append, BitVec.ofNat_add]
    by_cases hrest : rest = []
    · subst hrest
      simp [updateBodies]
    · obtain ⟨hregs, hout⟩ := ih hrest (updateBody (BitVec.ofNat 64 d.length) d c).1
      obtain ⟨happ, happOut⟩ := updateBody_append (BitVec.ofNat 64 d.length) (BitVec.ofNat 64 rest.flatten.length) d rest.flatten c
      exact ⟨by rw [hregs, happ], by rw [happOut, ← hout]⟩

/-! ## A run of UPDATEs -/

theorem execAll_cons {i : Instr} {rest : List Instr} {s t u : State} {rs : List Response} (h : exec i s = .next t)
    (hrest : execAll rest t = some (u, rs)) : execAll (i :: rest) s = some (u, t.response.toList ++ rs) := by
  rw [execAll, h]
  simp only [hrest, Option.map_some]

/-- UPDATE with its bytes, in a message that has room for them. -/
theorem exec_update_of_room {s : State} {c : Context} (hc : s.current = some c) (hm : c.msgState = .started ∨ c.msgState = .updating)
    {len : BitVec 64} {d : List Byte} (hlen : d.length = len.toNat) (hroom : c.dataLen.toNat + len.toNat ≤ maxDataBytes) :
    exec (.update len (some d)) s =
      .next (s.respond (updateBody len d c).1 { status := .ok, out := (updateBody len d c).2, tag := [] }) := by
  have hchecks : firstFailing (commandChecks (.update len (some d)) c) = none := by
    rw [commandChecks, inMessageCheck_pass hm, firstFailing_false, firstFailing_inputChecks]
    simpa using hroom
  exact exec_runs rfl (by simp [Instr.wf, Buffer.carries, hlen]) hc hchecks

/-- A run of UPDATEs within the payload limit answers OK throughout, and is the iterate of the body of UPDATE. -/
theorem execAll_updates (chunks : List (List Byte)) {s : State} {c : Context} (hc : s.current = some c)
    (hm : c.msgState = .started ∨ c.msgState = .updating) (hroom : c.dataLen.toNat + chunks.flatten.length ≤ maxDataBytes) :
    ∃ t, execAll (updates chunks) s =
        some (t, (updateBodies chunks c).2.map fun out => { status := .ok, out := out, tag := [] }) ∧
      t.current = some (updateBodies chunks c).1 := by
  induction chunks generalizing s c with
  | nil => exact ⟨s, rfl, hc⟩
  | cons d rest ih =>
    rw [List.flatten_cons, List.length_append] at hroom
    have hlimit : maxDataBytes < 2 ^ 64 := by decide
    have hlen : (BitVec.ofNat 64 d.length).toNat = d.length := Nat.mod_eq_of_lt (by omega)
    have hmsg : (updateBody (BitVec.ofNat 64 d.length) d c).1.msgState = .updating := by rw [updateBody_eq]
    have hdata : (updateBody (BitVec.ofNat 64 d.length) d c).1.dataLen.toNat = c.dataLen.toNat + d.length := by
      rw [updateBody_eq, BitVec.toNat_add_of_lt (by omega), hlen]
    obtain ⟨t, ht, hct⟩ := ih (current_respond hc _ _) (.inr hmsg) (by omega)
    exact ⟨t, execAll_cons (exec_update_of_room hc hm hlen.symm (by omega)) ht, hct⟩

/-! ## The keystream -/

/-- OUT of the first UPDATE of a message: the counter of its first byte is that after J0. -/
theorem updateBody_out_of_started {c : Context} (hs : c.msgState = .started) (hoff : c.ksOff = 0) (len : BitVec 64) (input : List Byte) :
    (updateBody len input c).2 = crypted (keyInUse c) c.j0 input := by
  have hfirst : firstIncrement c = { c with j0 := inc32 c.j0 } := if_pos hs
  have hstream (j : Nat) : ctrStream (firstIncrement c) (j / 16) =
      Config.blockCipher (keyInUse c) (inc32Iter (1 + j / 16) c.j0) := by
    rw [hfirst, ctrStream_closed (c := { c with j0 := inc32 c.j0 }) hoff, Nat.add_comm]
    rfl
  have hoff' : (firstIncrement c).ksOff.toNat = 0 := by rw [hfirst, hoff]; rfl
  simp only [updateBody_eq, ctrCrypt_eq, hoff', Nat.zero_add, hstream]
  rfl

/-- Settles O28: the run is one UPDATE of the whole payload, whose output is the payload under the keystream. -/
theorem keystreamOfAMessage : Obligations.KeystreamOfAMessage := by
  intro s c chunks hc hs hoff hlen hmax
  obtain ⟨t, hrun, -⟩ := execAll_updates chunks hc (.inl hs) (by simpa [hlen] using hmax)
  refine ⟨t, _, hrun, ?_, ?_, by simp⟩
  · rw [List.map_map]
    by_cases hnil : chunks = []
    · subst hnil
      rfl
    · rw [← updateBody_out_of_started hs hoff, ← (updateBodies_eq_updateBody hnil c).2]
      simp [Function.comp_def]
  · rw [← updateBodies_lengths chunks c, List.map_map]
    rfl

end Sys2Proof.Machine
end

section
/-! PROOFS. The five streaming commands: which check fails first, and the whole effect of each where none does (44_gcm_engine.md R210,
R215, R220, R225, R230). -/

namespace Sys2Proof.Machine

/-! ## SET_KEY -/

theorem firstFailing_keyChecks (keyBits : BitVec 32) (key : Buffer) :
    firstFailing (keyChecks keyBits key) =
      if keyBitsSupported keyBits = true then if key = none then some .badInput else none else some .unsupportedKeyLength := by
  cases hs : keyBitsSupported keyBits <;> cases key <;> simp [keyChecks, hs]

theorem exec_setKey_of_key {s : State} {c : Context} (hc : s.current = some c) {keyBits : BitVec 32}
    (hs : keyBits = 128 ∨ keyBits = 192 ∨ keyBits = 256) {key : List Byte} (hl : key.length = keyBits.toNat / 8) :
    exec (.setKey keyBits (some key)) s = .next (s.respond (setKeyBody keyBits key c) okOnly) := by
  have hchecks : firstFailing (commandChecks (.setKey keyBits (some key)) c) = none := by
    rw [commandChecks, firstFailing_keyChecks, if_pos ((keyBitsSupported_iff keyBits).mpr hs), if_neg nofun]
  exact exec_runs rfl (by simp [Instr.wf, Buffer.carries, hl]) hc hchecks

theorem padKey_eq_ofFn (key : List Byte) : padKey key = Vector.ofFn fun i => key.getD i 0 :=
  Vector.ext fun i hi => by rw [padKey_getElem hi, Vector.getElem_ofFn]

/-- Settles O31: the checks of the key, then the cached key or the rebuild. -/
theorem setKeyRule : Obligations.SetKeyRule := by
  intro s c keyBits hc
  refine ⟨fun h1 h2 h3 key hw => ?unsupported, fun hs => ⟨?null, fun k hk => ⟨fun hcached => ?cached, fun hnew => ?rebuilt⟩⟩⟩
  case unsupported =>
    have hs : ¬ keyBitsSupported keyBits = true := by
      rw [keyBitsSupported_iff]
      tauto
    exact exec_fails rfl hw hc (by rw [commandChecks, firstFailing_keyChecks, if_neg hs])
  case null =>
    refine exec_fails rfl rfl hc ?_
    rw [commandChecks, firstFailing_keyChecks, if_pos ((keyBitsSupported_iff keyBits).mpr hs), if_pos rfl]
  case cached =>
    rw [exec_setKey_of_key hc hs hk, setKeyBody_cached ((sameKey_iff _ _ _).mpr hcached)]
    rfl
  case rebuilt =>
    rw [exec_setKey_of_key hc hs hk, setKeyBody_rebuilt (mt (sameKey_iff _ _ _).mp hnew), ← padKey_eq_ofFn]
    rfl

/-! ## START -/

theorem exec_start_of_iv {s : State} {c : Context} (hc : s.current = some c) (hk : c.msgState ≠ .init) (m : Mode) {ivLen : BitVec 64}
    {iv : List Byte} (hl : iv.length = ivLen.toNat) (h1 : 1 ≤ ivLen.toNat) (hmax : ivLen.toNat < ivLimit) :
    exec (.start m ivLen (some iv)) s = .next (s.respond (startBody m iv c) okOnly) := by
  have hbad : ¬ (some iv = none ∨ ivLen.toNat = 0 ∨ ivLimit ≤ ivLen.toNat) := by
    simp only [reduceCtorEq, false_or]
    omega
  have hchecks : firstFailing (commandChecks (.start m ivLen (some iv)) c) = none := by
    rw [commandChecks, keyedCheck_pass hk, firstFailing_false, firstFailing_ivChecks, if_neg hbad]
  exact exec_runs rfl (by simp [Instr.wf, Buffer.carries, hl]) hc hchecks

/-- Settles O32: the state check, IV_CHECK, then the cleared message. -/
theorem startRule : Obligations.StartRule := by
  intro s c m ivLen hc
  refine ⟨fun hi iv hw => ?_, fun hk => ⟨fun iv hbad hw => ?_, fun iv h1 hmax hl => exec_start_of_iv hc hk m hl h1 hmax⟩⟩
  · exact exec_fails rfl hw hc (by rw [commandChecks, keyedCheck_fail hi, firstFailing_true])
  · refine exec_fails rfl hw hc ?_
    rw [commandChecks, keyedCheck_pass hk, firstFailing_false, firstFailing_ivChecks, if_pos hbad]

/-! ## UPDATE_AD -/

theorem exec_updateAd_of_buffer {s : State} {c : Context} (hc : s.current = some c) (hs : c.msgState = .started)
    (had : c.adDone = false) {aadLen : BitVec 64} {aad : Buffer} {a : List Byte} (hb : aad = none ∧ a = [] ∨ aad = some a)
    (hl : a.length = aadLen.toNat) (hmax : aadLen.toNat < aadLimit) :
    exec (.updateAd aadLen aad) s = .next (s.respond (updateAdBody aadLen a c) okOnly) := by
  obtain ⟨rfl, hw, hnull⟩ := buffer_of_bytes hb hl
  have hbad : ¬ ((aad = none ∧ 0 < aadLen.toNat) ∨ aadLimit ≤ aadLen.toNat) := by
    rintro (⟨h, hpos⟩ | h)
    · exact hpos.ne' (hnull h)
    · exact h.not_gt hmax
  have hchecks : firstFailing (commandChecks (.updateAd aadLen aad) c) = none := by
    rw [commandChecks, beforeAadCheck_pass hs had, firstFailing_false, firstFailing_aadChecks, if_neg hbad]
  exact exec_runs (i := .updateAd aadLen aad) rfl hw hc hchecks

theorem updateAdBody_empty (c : Context) : updateAdBody 0 [] c = { c with aadLen := 0, adDone := true } := by
  rw [updateAdBody, ghashUpdate_nil]

/-- Settles O33: the state check, AAD_CHECK, then the hash of the data, which is none for NULL. -/
theorem updateAdRule : Obligations.UpdateAdRule := by
  intro s c aadLen hc
  refine ⟨fun hout aad hw => ?_, fun hs had => ⟨fun aad hbad hw => ?_, fun h0 => ?_, fun aad hmax hl => ?_⟩⟩
  · exact exec_fails rfl hw hc (by rw [commandChecks, beforeAadCheck_fail hout, firstFailing_true])
  · refine exec_fails rfl hw hc ?_
    rw [commandChecks, beforeAadCheck_pass hs had, firstFailing_false, firstFailing_aadChecks, if_pos hbad]
  · obtain rfl : aadLen = 0 := BitVec.eq_of_toNat_eq h0
    rw [exec_updateAd_of_buffer (aadLen := 0) hc hs had (.inl ⟨rfl, rfl⟩) rfl (Nat.two_pow_pos 61), updateAdBody_empty]
    rfl
  · exact exec_updateAd_of_buffer hc hs had (.inr rfl) hl hmax

/-! ## UPDATE -/

theorem exec_update_of_buffer {s : State} {c : Context} (hc : s.current = some c) (hm : c.msgState = .started ∨ c.msgState = .updating)
    {len : BitVec 64} {input : Buffer} {d : List Byte} (hb : input = none ∧ d = [] ∨ input = some d) (hl : d.length = len.toNat)
    (hmax : c.dataLen.toNat + len.toNat ≤ maxDataBytes) :
    exec (.update len input) s =
      .next (s.respond (updateBody len d c).1 { status := .ok, out := (updateBody len d c).2, tag := [] }) := by
  obtain ⟨rfl, rfl⟩ | rfl := hb
  · have hchecks : firstFailing (commandChecks (.update len none) c) = none := by
      rw [commandChecks, inMessageCheck_pass hm, firstFailing_false, firstFailing_inputChecks]
      simpa [← hl] using hmax
    exact exec_runs rfl rfl hc hchecks
  · exact exec_update_of_room hc hm hl hmax

/-- Settles O34: the state check, the checks on IN, then the record of all that UPDATE writes; GHASH_ABSORB reads no register
that the counter writes. -/
theorem updateRule : Obligations.UpdateRule := by
  intro s c len hc
  refine ⟨fun hst hup input hw => ?_, fun hm => ⟨fun input hbad hw => ?_, fun input d hb hl hmax => ?_⟩⟩
  · exact exec_fails rfl hw hc (by rw [commandChecks, inMessageCheck_fail hst hup, firstFailing_true])
  · refine exec_fails rfl hw hc ?_
    rw [commandChecks, inMessageCheck_pass hm, firstFailing_false, firstFailing_inputChecks, if_pos hbad]
  · refine ⟨firstIncrement c, _, updateCiphertext d c, firstIncrement_eq c, rfl, ?_, by simp [hl], ?_⟩
    · cases hmode : c.mode <;> simp [updateCiphertext, hmode]
    · rw [exec_update_of_buffer hc hm hb hl hmax, updateBody_eq, foldl_ghashAbsorb_eq]

/-! ## FINISH -/

theorem exec_finish_of_tagLen {s : State} {c : Context} (hc : s.current = some c)
    (hm : c.msgState = .started ∨ c.msgState = .updating) {tagLen : BitVec 32} (hmin : tagMin ≤ tagLen.toNat)
    (hmax : tagLen.toNat ≤ tagMax) :
    exec (.finish tagLen) s =
      .next (s.respond (finishBody tagLen c).1 { status := .ok, out := [], tag := (finishBody tagLen c).2 }) := by
  have hbad : ¬ (tagLen.toNat < tagMin ∨ tagMax < tagLen.toNat) := by omega
  have hchecks : firstFailing (commandChecks (.finish tagLen) c) = none := by
    rw [commandChecks, inMessageCheck_pass hm, firstFailing_false, firstFailing_tagLenChecks, if_neg hbad]
  exact exec_runs rfl rfl hc hchecks

/-- Settles O35: the state check, the check on TAG_LEN, then the record of all that FINISH writes. -/
theorem finishRule : Obligations.FinishRule := by
  intro s c tagLen hc
  refine ⟨fun hst hup => ?_, fun hm => ⟨fun hbad => ?_, fun hmin hmax => ⟨_, _, rfl, rfl, ?_⟩⟩⟩
  · exact exec_fails rfl rfl hc (by rw [commandChecks, inMessageCheck_fail hst hup, firstFailing_true])
  · refine exec_fails rfl rfl hc ?_
    rw [commandChecks, inMessageCheck_pass hm, firstFailing_false, firstFailing_tagLenChecks, if_pos hbad]
  · rw [exec_finish_of_tagLen hc hm hmin hmax, finishBody_eq]

end Sys2Proof.Machine
end

section
/-! PROOFS. STATE under the commands: the transition table, and what a failing, an abandoned and a new message leave (44_gcm_engine.md
R201, R202, R239, 60_exceptions.md R281). -/

namespace Sys2Proof.Machine

/-! ## The transition table -/

/-- Only the state check, which comes first, answers INVALID_STATE. -/
theorem firstFailing_stateCheck {b : Bool} {rest : List (Bool × Status)} (h : ∀ x ∈ rest, x.2 ≠ .invalidState) :
    firstFailing ((b, .invalidState) :: rest) = some .invalidState ↔ b = true := by
  cases b
  · refine iff_of_false (fun hrest => ?_) nofun
    exact h _ (firstFailing_mem hrest) rfl
  · exact iff_of_true rfl rfl

/-- A command fails INVALID_STATE exactly where the table has `IS`. -/
theorem firstFailing_eq_invalidState {i : Instr} (hi : i.isCommand = true) (c : Context) :
    firstFailing (commandChecks i c) = some .invalidState ↔ transition i c.msgState c.adDone = none := by
  cases i <;> simp only [Instr.isCommand, Bool.false_eq_true] at hi
  case setKey keyBits key =>
    exact iff_of_false (fun h => invalidState_notMem_keyChecks keyBits key true (firstFailing_mem h)) nofun
  case start => exact (firstFailing_stateCheck (by simp [ivChecks])).trans (by simp [transition])
  case updateAd =>
    exact (firstFailing_stateCheck (by simp [aadChecks])).trans (by simp [transition, Classical.or_iff_not_imp_left])
  case update => exact (firstFailing_stateCheck (by simp [inputChecks])).trans (by simp [transition])
  case finish => exact (firstFailing_stateCheck (by simp [tagLenChecks])).trans (by simp [transition])
  case cryptAndTag =>
    exact (firstFailing_stateCheck (by simp [ivChecks, aadChecks, inputChecks, tagLenChecks])).trans (by simp [transition])
  case authDecrypt =>
    exact (firstFailing_stateCheck (by simp [ivChecks, aadChecks, inputChecks, tagLenChecks, tagChecks])).trans (by simp [transition])

@[simp] theorem setKeyBody_msgState (keyBits : BitVec 32) (key : List Byte) (c : Context) :
    (setKeyBody keyBits key c).msgState = .keyed := by
  obtain ⟨_, _, _, _, _, h⟩ := setKeyBody_frame keyBits key c
  rw [h]

theorem oneShotBody_msgState (mode : Mode) (iv : List Byte) (aadLen : BitVec 64) (aad : List Byte) (len : BitVec 64)
    (input : List Byte) (tagLen : BitVec 32) (c : Context) :
    (oneShotBody mode iv aadLen aad len input tagLen c).context.msgState = .finished := rfl

/-- Where every check passes, the effect leaves the STATE of the table. -/
theorem transition_eq_commandEffect {i : Instr} (hi : i.isCommand = true) {c : Context}
    (hn : firstFailing (commandChecks i c) = none) : transition i c.msgState c.adDone = some (commandEffect i c).msgState := by
  have hcell : transition i c.msgState c.adDone ≠ none := by
    rw [ne_eq, ← firstFailing_eq_invalidState hi, hn]
    nofun
  cases i <;> simp only [Instr.isCommand, Bool.false_eq_true] at hi
  case setKey => rw [transition, commandEffect, setKeyBody_msgState]
  case update => simpa [transition, commandEffect, updateBody_eq] using hcell
  case finish => simpa [transition, commandEffect, finishBody_eq] using hcell
  case cryptAndTag => simpa [transition, commandEffect, oneShotBody_msgState] using hcell
  case authDecrypt => simpa [transition, commandEffect, oneShotBody_msgState] using hcell
  case start => simpa [transition, commandEffect] using hcell
  case updateAd =>
    simp only [transition, ne_eq, ite_eq_right_iff, reduceCtorEq, imp_false, not_not] at hcell
    rw [transition, if_pos hcell, commandEffect, updateAdBody_msgState, hcell.1]

theorem commandResponse_status (i : Instr) (c : Context) :
    (commandResponse i c).status = .ok ∨ (commandResponse i c).status = .authenticationFailed := by
  cases i
  case authDecrypt => exact verdict_status _ _ _ _ _
  all_goals exact .inl rfl

/-- Settles O36: by the first check that fails, or by the effect where none does. -/
theorem transitionTable : Obligations.TransitionTable := by
  intro i s c hi hw hc
  have hcell := firstFailing_eq_invalidState hi c
  cases hf : firstFailing (commandChecks i c) with
  | some st =>
    rw [hf, Option.some.injEq] at hcell
    refine ⟨failed st, c, exec_fails hi hw hc hf, hcell.symm, fun hend => ?_, fun _ _ => rfl⟩
    obtain rfl | rfl : st = .ok ∨ st = .authenticationFailed := hend
    all_goals simpa [Status.fails] using commandChecks_fails (firstFailing_mem hf)
  | none =>
    have hstatus := commandResponse_status i c
    have htable := transition_eq_commandEffect hi hf
    refine ⟨_, _, exec_runs hi hw hc hf, iff_of_false (by simp [htable]) ?_, fun _ => htable, fun hok hauth => ?_⟩
    · obtain h | h := hstatus <;> simp [h]
    · exact absurd hstatus (not_or.mpr ⟨hok, hauth⟩)

/-- Settles O37: only the effect of a command answers OK or AUTHENTICATION_FAILED, and a failing check keeps the registers. -/
theorem failingCommandWritesNothing : Obligations.FailingCommandWritesNothing := by
  intro i s t r hi h hr hok hauth
  obtain ⟨c, hc, -, ⟨st, -, -, rfl⟩ | ⟨-, rfl⟩⟩ := exec_answer_cases hi h
  · obtain rfl : failed st = r := Option.some.inj hr
    exact ⟨rfl, rfl, contextAt_respond_keep hc _, rfl, rfl, rfl⟩
  · obtain rfl : commandResponse i c = r := Option.some.inj hr
    exact absurd (commandResponse_status i c) (not_or.mpr ⟨hok, hauth⟩)

/-! ## Abandoned messages -/

theorem exec_invalidState {i : Instr} (hi : i.isCommand = true) (hw : i.wf = true) {s : State} {c : Context} (hc : s.current = some c)
    (h : transition i c.msgState c.adDone = none) : exec i s = .next (s.respond c (failed .invalidState)) :=
  exec_fails hi hw hc ((firstFailing_eq_invalidState hi c).mpr h)

/-- Settles O45: SET_KEY leaves KEYED, where the table has `IS` for the three commands; START leaves its record. -/
theorem abandonedMessages : Obligations.AbandonedMessages := by
  constructor
  · intro s t keyBits key h hr
    obtain ⟨c, ht⟩ := exec_next_ok rfl h hr rfl
    have hs : (commandEffect (.setKey keyBits key) c).msgState = .keyed := setKeyBody_msgState _ _ _
    exact ⟨_, ht, hs, fun _ _ hw => exec_invalidState rfl hw ht (by simp [transition, hs]),
      fun _ _ hw => exec_invalidState rfl hw ht (by simp [transition, hs]),
      fun _ => exec_invalidState rfl rfl ht (by simp [transition, hs])⟩
  · intro s t m ivLen iv h hr
    obtain ⟨c, ht⟩ := exec_next_ok rfl h hr rfl
    exact ⟨_, ht, rfl, rfl, rfl, rfl, rfl, rfl, rfl⟩

end Sys2Proof.Machine
end

section
/-! PROOFS. A message in closed form: its UPDATEs and FINISH, whatever the chunks, then its associated data, its IV and its key
(44_gcm_engine.md R235 to R238). -/

namespace Sys2Proof.Machine

/-! ## Runs -/

/-- All that a run of a command and those after it can be. -/
theorem execAll_cons_eq_some {i : Instr} {rest : List Instr} {s u : State} {rs : List Response}
    (h : execAll (i :: rest) s = some (u, rs)) :
    ∃ t rs', exec i s = .next t ∧ execAll rest t = some (u, rs') ∧ rs = t.response.toList ++ rs' := by
  rw [execAll] at h
  split at h
  · rename_i t ht
    obtain ⟨⟨u', rs'⟩, hrest, hp⟩ := Option.map_eq_some_iff.mp h
    cases hp
    exact ⟨t, rs', ht, hrest, rfl⟩
  · cases h

theorem execAll_append {is js : List Instr} {s t u : State} {rs qs : List Response} (h : execAll is s = some (t, rs))
    (h' : execAll js t = some (u, qs)) : execAll (is ++ js) s = some (u, rs ++ qs) := by
  induction is generalizing s rs with
  | nil =>
    cases h
    exact h'
  | cons i is ih =>
    obtain ⟨v, rs', hi, hrest, rfl⟩ := execAll_cons_eq_some h
    rw [List.append_assoc]
    exact execAll_cons hi (ih hrest)

/-- Responses that are all OK, with their outputs together and their tags together. -/
structure AnswersOk (rs : List Response) (out tag : List Byte) : Prop where
  ok : ∀ r ∈ rs, r.status = .ok
  out : (rs.map (·.out)).flatten = out
  tag : (rs.map (·.tag)).flatten = tag

theorem AnswersOk.cons_okOnly {rs : List Response} {out tag : List Byte} (h : AnswersOk rs out tag) :
    AnswersOk (okOnly :: rs) out tag :=
  ⟨List.forall_mem_cons.mpr ⟨rfl, h.ok⟩, h.out, h.tag⟩

/-- The response of an UPDATE that answers OK. -/
def outOnly (out : List Byte) : Response := { status := .ok, out := out, tag := [] }

/-- The response of a FINISH that answers OK. -/
def tagOnly (tag : List Byte) : Response := { status := .ok, out := [], tag := tag }

theorem answersOk_outs_tag (outs : List (List Byte)) (tag : List Byte) :
    AnswersOk (outs.map outOnly ++ [tagOnly tag]) outs.flatten tag := by
  constructor <;> simp +contextual [outOnly, tagOnly, or_imp, Function.comp_def]

/-! ## UPDATEs and FINISH as bodies -/

theorem updateBodies_inMessage (chunks : List (List Byte)) {c : Context} (hm : c.msgState = .started ∨ c.msgState = .updating) :
    (updateBodies chunks c).1.msgState = .started ∨ (updateBodies chunks c).1.msgState = .updating := by
  by_cases hnil : chunks = []
  · subst hnil
    exact hm
  · rw [(updateBodies_eq_updateBody hnil c).1, updateBody_eq]
    exact .inr rfl

/-- The rest of a message within the payload limit answers OK throughout, with the outputs and the tag of the bodies. -/
theorem execAll_updates_finish (chunks : List (List Byte)) {s : State} {c : Context} (hc : s.current = some c)
    (hm : c.msgState = .started ∨ c.msgState = .updating) (hroom : c.dataLen.toNat + chunks.flatten.length ≤ maxDataBytes)
    {tagLen : BitVec 32} (hmin : tagMin ≤ tagLen.toNat) (hmax : tagLen.toNat ≤ tagMax) :
    ∃ t, execAll (updates chunks ++ [.finish tagLen]) s =
      some (t, (updateBodies chunks c).2.map outOnly ++ [tagOnly (finishBody tagLen (updateBodies chunks c).1).2]) := by
  obtain ⟨t, hrun, ht⟩ := execAll_updates chunks hc hm hroom
  have hfinish := exec_finish_of_tagLen ht (updateBodies_inMessage chunks hm) hmin hmax
  exact ⟨_, execAll_append hrun (execAll_cons hfinish rfl)⟩

/-! ## The associated data of none -/

theorem updateBody_adDone (b : Bool) (len : BitVec 64) (d : List Byte) (c : Context) :
    updateBody len d { c with adDone := b } = ({ (updateBody len d c).1 with adDone := b }, (updateBody len d c).2) := by
  simp only [updateBody_eq, updateCiphertext, firstIncrement_eq, ctrCrypt_eq]
  rfl

/-- UPDATE neither reads nor writes AD_DONE. -/
theorem updateBodies_adDone (b : Bool) (chunks : List (List Byte)) (c : Context) :
    updateBodies chunks { c with adDone := b } = ({ (updateBodies chunks c).1 with adDone := b }, (updateBodies chunks c).2) := by
  induction chunks generalizing c with
  | nil => rfl
  | cons d rest ih => rw [updateBodies_cons, updateBody_adDone, ih, updateBodies_cons]

theorem finishBody_adDone (b : Bool) (tagLen : BitVec 32) (c : Context) :
    (finishBody tagLen { c with adDone := b }).2 = (finishBody tagLen c).2 := by
  rw [finishBody_eq, finishBody_eq]
  rfl

/-- Settles O48: UPDATE_AD 0, NULL writes AD_DONE alone, which no later response depends on. -/
theorem omittedAadIsEmptyAad : Obligations.OmittedAadIsEmptyAad := by
  intro s c chunks tagLen hc hs had haad hroom hmin hmax
  have hnull : exec (.updateAd 0 none) s = .next (s.respond { c with adDone := true } okOnly) := by
    rw [exec_updateAd_of_buffer (aadLen := 0) hc hs had (.inl ⟨rfl, rfl⟩) rfl (Nat.two_pow_pos 61), updateAdBody_empty, ← haad]
  obtain ⟨t, hrun⟩ := execAll_updates_finish chunks hc (.inl hs) hroom hmin hmax
  obtain ⟨t', hrun'⟩ := execAll_updates_finish chunks (current_respond hc { c with adDone := true } okOnly) (.inl hs) hroom hmin hmax
  rw [updateBodies_adDone, finishBody_adDone] at hrun'
  exact ⟨t, t', _, hrun, execAll_cons hnull hrun', (answersOk_outs_tag _ _).ok⟩

/-! ## The payload -/

/-- A message whose payload has not begun. -/
structure Context.BeforePayload (c : Context) : Prop where
  started : c.msgState = .started
  ksOff : c.ksOff = 0
  ghPend : c.ghPend = 0
  dataLen : c.dataLen = 0

theorem Context.Inv.beforePayload {c : Context} (h : c.Inv) (hs : c.msgState = .started) : c.BeforePayload :=
  let ⟨hlen, hoff, hpend, _⟩ := h.started hs
  ⟨hs, hoff, hpend, hlen⟩

theorem startBody_beforePayload (m : Mode) (iv : List Byte) (c : Context) : (startBody m iv c).BeforePayload :=
  ⟨rfl, rfl, rfl, rfl⟩

theorem updateAdBody_beforePayload {c : Context} (h : c.BeforePayload) (aadLen : BitVec 64) (aad : List Byte) :
    (updateAdBody aadLen aad c).BeforePayload :=
  ⟨h.started, h.ksOff, h.ghPend, h.dataLen⟩

/-- TAG of a message, from the context that has taken in its associated data. -/
def tagFrom (c : Context) (ciphertext : List Byte) (tagLen : Nat) : List Byte :=
  (blockBytes (Config.blockCipher (keyInUse c) c.j0Orig ^^^
    ghashUpdate c.hh c.hl (lengthBlock c.aadLen.toNat ciphertext.length) (ghashUpdate c.hh c.hl ciphertext c.acc))).take tagLen

theorem finishBody_tag (tagLen : BitVec 32) (c : Context) :
    (finishBody tagLen c).2 =
      (blockBytes (Config.blockCipher (keyInUse c) c.j0Orig ^^^
        ghashUpdate c.hh c.hl (lengthBlock c.aadLen.toNat c.dataLen.toNat) (ghashFlush c).acc)).take tagLen.toNat := by
  rw [finishBody, ghashFlush_eq]
  rfl

theorem updateBody_ghashFlush_acc {c : Context} (h : c.ghPend = 0) (len : BitVec 64) (d : List Byte) :
    (ghashFlush (updateBody len d c).1).acc = ghashUpdate c.hh c.hl (updateCiphertext d c) c.acc := by
  rw [ghashFlush_eq, updateBody_eq, h, ← foldl_absorbPair_flush]

theorem updateCiphertext_of_beforePayload {c : Context} (h : c.BeforePayload) (d : List Byte) :
    updateCiphertext d c = ciphertextOf c.mode (keyInUse c) c.j0 d := by
  cases hmode : c.mode with
  | encrypt =>
    rw [updateCiphertext, if_pos hmode, ciphertextOf, ← updateBody_out_of_started h.started h.ksOff 0 d, updateBody_eq]
  | decrypt => rw [updateCiphertext, if_neg (by simp [hmode]), ciphertextOf]

/-- FINISH after one UPDATE of the whole payload. -/
theorem updateBody_finish_tag {c : Context} (h : c.BeforePayload) {len : BitVec 64} {d : List Byte} (hl : d.length = len.toNat)
    (tagLen : BitVec 32) :
    (finishBody tagLen (updateBody len d c).1).2 = tagFrom c (ciphertextOf c.mode (keyInUse c) c.j0 d) tagLen.toNat := by
  have hlen : (updateBody len d c).1.dataLen = len := by
    rw [updateBody_eq, h.dataLen]
    exact BitVec.zero_add len
  rw [finishBody_tag, hlen, updateBody_ghashFlush_acc h.ghPend, tagFrom, ← updateCiphertext_of_beforePayload h,
    updateCiphertext_length, hl, updateBody_eq]
  rfl

/-- FINISH of a message without an UPDATE. -/
theorem finishBody_tag_of_beforePayload {c : Context} (h : c.BeforePayload) (tagLen : BitVec 32) :
    (finishBody tagLen c).2 = tagFrom c [] tagLen.toNat := by
  rw [finishBody_tag, ghashFlush_aligned h.ghPend, tagFrom, ghashUpdate_nil, h.dataLen]
  rfl

/-- However the payload is split, and with no chunk at all where it is empty, OUT and TAG are those of the whole payload. -/
theorem updateBodies_finish {c : Context} (h : c.BeforePayload) {chunks : List (List Byte)}
    (hmax : chunks.flatten.length ≤ maxDataBytes) (tagLen : BitVec 32) :
    (updateBodies chunks c).2.flatten = crypted (keyInUse c) c.j0 chunks.flatten ∧
    (finishBody tagLen (updateBodies chunks c).1).2 =
      tagFrom c (ciphertextOf c.mode (keyInUse c) c.j0 chunks.flatten) tagLen.toNat := by
  by_cases hnil : chunks = []
  · subst hnil
    have hempty : ciphertextOf c.mode (keyInUse c) c.j0 [] = [] := by cases c.mode <;> rfl
    refine ⟨rfl, ?_⟩
    rw [List.flatten_nil, hempty]
    exact finishBody_tag_of_beforePayload h tagLen
  · obtain ⟨hregs, hout⟩ := updateBodies_eq_updateBody hnil c
    have hlimit : maxDataBytes < 2 ^ 64 := by decide
    have hlen : chunks.flatten.length = (BitVec.ofNat 64 chunks.flatten.length).toNat := (Nat.mod_eq_of_lt (by omega)).symm
    exact ⟨by rw [hout, updateBody_out_of_started h.started h.ksOff], by rw [hregs, updateBody_finish_tag h hlen]⟩

/-- The payload of a message and its FINISH, in closed form. -/
theorem execAll_payload {s : State} {c : Context} (hc : s.current = some c) (h : c.BeforePayload) {chunks : List (List Byte)}
    (hlen : chunks.flatten.length ≤ maxDataBytes) {tagLen : BitVec 32} (hmin : tagMin ≤ tagLen.toNat) (hmax : tagLen.toNat ≤ tagMax) :
    ∃ t rs, execAll (updates chunks ++ [.finish tagLen]) s = some (t, rs) ∧
      AnswersOk rs (crypted (keyInUse c) c.j0 chunks.flatten)
        (tagFrom c (ciphertextOf c.mode (keyInUse c) c.j0 chunks.flatten) tagLen.toNat) := by
  have hroom : c.dataLen.toNat + chunks.flatten.length ≤ maxDataBytes := by simpa [h.dataLen] using hlen
  obtain ⟨t, hrun⟩ := execAll_updates_finish chunks hc (.inl h.started) hroom hmin hmax
  obtain ⟨hout, htag⟩ := updateBodies_finish h hlen tagLen
  exact ⟨t, _, hrun, hout ▸ htag ▸ answersOk_outs_tag _ _⟩

/-- Settles O47: the closed form of the payload speaks of the concatenation alone. -/
theorem chunkSizeIndependence : Obligations.ChunkSizeIndependence := by
  intro s c chunks chunks' tagLen hc hinv hs hflat hlen hmin hmax
  obtain ⟨t, rs, hrun, h⟩ := execAll_payload hc (hinv.beforePayload hs) hlen hmin hmax
  obtain ⟨t', rs', hrun', h'⟩ := execAll_payload hc (hinv.beforePayload hs) (hflat ▸ hlen) hmin hmax
  rw [← hflat] at h'
  exact ⟨t, t', rs, rs', hrun, hrun', List.forall_mem_append.mpr ⟨h.ok, h'.ok⟩, h.out.trans h'.out.symm, h.tag.trans h'.tag.symm⟩

/-! ## Whole messages -/

/-- A message without UPDATE_AD hashes no associated data. -/
theorem tagFrom_startBody (m : Mode) (iv : List Byte) (c : Context) (ciphertext : List Byte) (n : Nat) :
    tagFrom (startBody m iv c) ciphertext n =
      messageTag (keyInUse c) c.hh c.hl (deriveJ0 c.hh c.hl iv) [] ciphertext n := by
  rw [messageTag, finalHash, ghashUpdate_nil]
  rfl

theorem tagFrom_updateAdBody {aadLen : BitVec 64} {aad : List Byte} (hl : aad.length = aadLen.toNat) (m : Mode) (iv : List Byte)
    (c : Context) (ciphertext : List Byte) (n : Nat) :
    tagFrom (updateAdBody aadLen aad (startBody m iv c)) ciphertext n =
      messageTag (keyInUse c) c.hh c.hl (deriveJ0 c.hh c.hl iv) aad ciphertext n := by
  rw [messageTag, finalHash, hl]
  rfl

/-- A message in closed form, from any context that has a key. -/
theorem execAll_message {s : State} {c : Context} (hc : s.current = some c) (hk : c.msgState ≠ .init) (m : Mode) {iv : List Byte}
    (hiv : 1 ≤ iv.length) (hivMax : iv.length < ivLimit) {aad : Option (List Byte)} (haad : (aad.getD []).length < aadLimit)
    {chunks : List (List Byte)} (hlen : chunks.flatten.length ≤ maxDataBytes) {tagLen : BitVec 32} (hmin : tagMin ≤ tagLen.toNat)
    (hmax : tagLen.toNat ≤ tagMax) :
    ∃ t rs, execAll (message m iv aad chunks tagLen) s = some (t, rs) ∧
      AnswersOk rs (crypted (keyInUse c) (deriveJ0 c.hh c.hl iv) chunks.flatten)
        (messageTag (keyInUse c) c.hh c.hl (deriveJ0 c.hh c.hl iv) (aad.getD [])
          (ciphertextOf m (keyInUse c) (deriveJ0 c.hh c.hl iv) chunks.flatten) tagLen.toNat) := by
  have hbits : (BitVec.ofNat 64 iv.length).toNat = iv.length := Nat.mod_eq_of_lt (hivMax.trans (by decide))
  have hstart := exec_start_of_iv hc hk m hbits.symm (by omega) (by omega)
  have hcur := current_respond hc (startBody m iv c) okOnly
  have hbefore := startBody_beforePayload m iv c
  cases aad with
  | none =>
    obtain ⟨t, rs, hrun, h⟩ := execAll_payload hcur hbefore hlen hmin hmax
    rw [tagFrom_startBody] at h
    exact ⟨t, _, execAll_cons hstart hrun, h.cons_okOnly⟩
  | some a =>
    have habits : (BitVec.ofNat 64 a.length).toNat = a.length := Nat.mod_eq_of_lt (haad.trans (by decide))
    have hupdateAd := exec_updateAd_of_buffer hcur rfl rfl (.inr rfl) habits.symm (habits.symm ▸ haad)
    obtain ⟨t, rs, hrun, h⟩ := execAll_payload (current_respond hcur _ okOnly)
      (updateAdBody_beforePayload hbefore (BitVec.ofNat 64 a.length) a) hlen hmin hmax
    rw [tagFrom_updateAdBody habits.symm] at h
    exact ⟨t, _, execAll_cons hstart (execAll_cons hupdateAd hrun), h.cons_okOnly.cons_okOnly⟩

/-- After SET_KEY the key in use is the operand, cached or not. -/
theorem keyInUse_setKeyBody {keyBits : BitVec 32} {key : List Byte} (hs : keyBitsSupported keyBits = true)
    (hl : key.length = keyBits.toNat / 8) (c : Context) : keyInUse (setKeyBody keyBits key c) = key := by
  obtain ⟨-, hbits, hkey⟩ := (sameKey_iff _ _ _).mp (sameKey_setKeyBody hs hl c)
  rw [keyInUse, hbits, hkey]

/-- After SET_KEY the tables are those of the key: rebuilt with it, or cached with it, by the invariants. -/
theorem tables_setKeyBody {c : Context} (h : c.Inv) {keyBits : BitVec 32} {key : List Byte} (hs : keyBitsSupported keyBits = true)
    (hl : key.length = keyBits.toNat / 8) :
    ((setKeyBody keyBits key c).hh, (setKeyBody keyBits key c).hl) = buildTables (Config.blockCipher key 0) := by
  obtain ⟨hvalid, -, -⟩ := (sameKey_iff _ _ _).mp (sameKey_setKeyBody hs hl c)
  rw [(setKeyBody_keeps_inv h hs hl).tables hvalid, keyInUse_setKeyBody hs hl]

/-- Settles O46: SET_KEY leaves the key and its tables, and the message from there has its closed form. -/
theorem messageClosedForm : Obligations.MessageClosedForm := by
  intro s c keyBits key m iv aad chunks tagLen hc hinv hbits hl hiv hivMax haad hlen hmin hmax
  have hs := (keyBitsSupported_iff keyBits).mpr hbits
  have hk : (setKeyBody keyBits key c).msgState ≠ .init := by simp
  obtain ⟨t, rs, hrun, h⟩ :=
    execAll_message (current_respond hc (setKeyBody keyBits key c) okOnly) hk m hiv hivMax haad hlen hmin hmax
  obtain ⟨hhh, hhl⟩ := Prod.mk.inj (tables_setKeyBody hinv hs hl)
  rw [keyInUse_setKeyBody hs hl, hhh, hhl] at h
  have hall := h.cons_okOnly
  exact ⟨t, _, _, _, execAll_cons (exec_setKey_of_key hc hbits hl) hrun, rfl, rfl, hall.ok, hall.out, hall.tag⟩

/-! ## Decryption -/

@[simp] theorem crypted_length (key : List Byte) (j : Block) (p : List Byte) : (crypted key j p).length = p.length := by
  simp [crypted]

/-- The keystream twice is no keystream. -/
theorem crypted_crypted (key : List Byte) (j : Block) (p : List Byte) : crypted key j (crypted key j p) = p :=
  List.ext_getElem (by simp) (by simp [crypted])

/-- Settles O49: both messages hash the same ciphertext, and the keystream is XORed twice. -/
theorem decryptInvertsEncrypt : Obligations.DecryptInvertsEncrypt := by
  intro s c iv aad chunks chunks' tagLen hc hk hiv hivMax haad hlen hmin hmax
  obtain ⟨t, rs, hrun, h⟩ := execAll_message hc hk .encrypt hiv hivMax haad hlen hmin hmax
  refine ⟨t, rs, hrun, fun hflat => ?_⟩
  rw [h.out] at hflat
  have hlen' : chunks'.flatten.length ≤ maxDataBytes := by rwa [hflat, crypted_length]
  obtain ⟨t', rs', hrun', h'⟩ := execAll_message hc hk .decrypt hiv hivMax haad hlen' hmin hmax
  rw [hflat] at h'
  exact ⟨t', rs', hrun', h'.out.trans (crypted_crypted _ _ _), h'.tag.trans h.tag.symm⟩

end Sys2Proof.Machine
end

section
/-! PROOFS. Between messages: START writes every register that SET_KEY does not, so the registers an earlier message left are not read
(44_gcm_engine.md R215, 45_oneshot.md R252). -/

namespace Sys2Proof.Machine

/-! ## Bodies on contexts that agree between messages -/

theorem startBody_congr {c d : Context} (h : c.SameBetweenMessages d) (m : Mode) (iv : List Byte) :
    startBody m iv c = startBody m iv d := by
  rw [startBody, startBody, h.key, h.keyBits, h.keyValid, h.hh, h.hl]

theorem oneShotBody_congr {c d : Context} (h : c.SameBetweenMessages d) (m : Mode) (iv : List Byte) (aadLen : BitVec 64)
    (aad : List Byte) (len : BitVec 64) (input : List Byte) (tagLen : BitVec 32) :
    oneShotBody m iv aadLen aad len input tagLen c = oneShotBody m iv aadLen aad len input tagLen d := by
  rw [oneShotBody, startBody_congr h, oneShotBody]

theorem sameKey_congr {c d : Context} (h : c.SameBetweenMessages d) (keyBits : BitVec 32) (key : List Byte) :
    sameKey keyBits key c = sameKey keyBits key d := by
  rw [sameKey, sameKey, h.keyValid, h.keyBits, h.key]

/-- Both find the key cached, or both rebuild it. -/
theorem setKeyBody_sameBetweenMessages {c d : Context} (h : c.SameBetweenMessages d) (keyBits : BitVec 32) (key : List Byte) :
    (setKeyBody keyBits key c).SameBetweenMessages (setKeyBody keyBits key d) := by
  have hsame := sameKey_congr h keyBits key
  by_cases hc : sameKey keyBits key c = true
  · rw [setKeyBody_cached hc, setKeyBody_cached (hsame ▸ hc)]
    exact ⟨rfl, h.key, h.keyBits, h.keyValid, h.hh, h.hl⟩
  · rw [setKeyBody_rebuilt hc, setKeyBody_rebuilt (hsame ▸ hc)]
    exact ⟨rfl, rfl, rfl, rfl, rfl, rfl⟩

/-! ## Commands on such contexts -/

/-- Outside a message no check reads a register on which the two contexts may differ. -/
theorem firstFailing_congr {i : Instr} (hi : i.isCommand = true) {c d : Context} (h : c.SameBetweenMessages d)
    (hst : c.msgState ≠ .started) (hup : c.msgState ≠ .updating) :
    firstFailing (commandChecks i c) = firstFailing (commandChecks i d) := by
  have hin : transition i c.msgState c.adDone = none → transition i d.msgState d.adDone = none →
      firstFailing (commandChecks i c) = firstFailing (commandChecks i d) := fun hc hd =>
    ((firstFailing_eq_invalidState hi c).mpr hc).trans ((firstFailing_eq_invalidState hi d).mpr hd).symm
  have hkeyed : keyedCheck c = keyedCheck d := by rw [keyedCheck, h.msgState, keyedCheck]
  cases i <;> simp only [Instr.isCommand, Bool.false_eq_true] at hi
  case setKey => rfl
  case start => rw [commandChecks, commandChecks, hkeyed]
  case cryptAndTag => rw [commandChecks, commandChecks, oneShotChecks, oneShotChecks, hkeyed]
  case authDecrypt => rw [commandChecks, commandChecks, oneShotChecks, oneShotChecks, hkeyed]
  case updateAd => exact hin (by simp [transition, hst]) (by simp [transition, ← h.msgState, hst])
  case update => exact hin (by simp [transition, hst, hup]) (by simp [transition, ← h.msgState, hst, hup])
  case finish => exact hin (by simp [transition, hst, hup]) (by simp [transition, ← h.msgState, hst, hup])

/-- Contexts that no sequence of commands tells apart: one and the same, or two that agree between messages. -/
def Context.Alike (c d : Context) : Prop :=
  c = d ∨ (c.SameBetweenMessages d ∧ c.msgState ≠ .started ∧ c.msgState ≠ .updating)

theorem Context.Alike.firstFailing_eq {c d : Context} (h : c.Alike d) {i : Instr} (hi : i.isCommand = true) :
    firstFailing (commandChecks i c) = firstFailing (commandChecks i d) := by
  obtain rfl | ⟨hsame, hst, hup⟩ := h
  · rfl
  · exact firstFailing_congr hi hsame hst hup

/-- Where its checks pass, a command answers such contexts alike and leaves them so. -/
theorem Context.Alike.effect {c d : Context} (h : c.Alike d) {i : Instr} (hi : i.isCommand = true)
    (hn : firstFailing (commandChecks i c) = none) :
    (commandEffect i c).Alike (commandEffect i d) ∧ commandResponse i c = commandResponse i d := by
  obtain rfl | ⟨hsame, hst, hup⟩ := h
  · exact ⟨.inl rfl, rfl⟩
  have hcell := transition_eq_commandEffect hi hn
  cases i <;> simp only [Instr.isCommand, Bool.false_eq_true] at hi
  case setKey keyBits key =>
    exact ⟨.inr ⟨setKeyBody_sameBetweenMessages hsame _ _, by simp [commandEffect], by simp [commandEffect]⟩, rfl⟩
  case start => exact ⟨.inl (startBody_congr hsame _ _), rfl⟩
  case cryptAndTag =>
    rw [commandEffect, commandResponse, oneShotBody_congr hsame]
    exact ⟨.inl rfl, rfl⟩
  case authDecrypt =>
    rw [commandEffect, commandResponse, oneShotBody_congr hsame]
    exact ⟨.inl rfl, rfl⟩
  case updateAd => simp [transition, hst] at hcell
  case update => simp [transition, hst, hup] at hcell
  case finish => simp [transition, hst, hup] at hcell

theorem exec_alike {i : Instr} (hi : i.isCommand = true) {s s' t : State} {c c' : Context} (hc : s.current = some c)
    (hc' : s'.current = some c') (h : c.Alike c') (ht : exec i s = .next t) :
    ∃ t' d d', exec i s' = .next t' ∧ t.current = some d ∧ t'.current = some d' ∧ d.Alike d' ∧ t'.response = t.response := by
  have hchecks := h.firstFailing_eq hi
  obtain ⟨c₀, hc₀, hw, hend⟩ := exec_answer_cases hi ht
  obtain rfl : c = c₀ := Option.some.inj (hc.symm.trans hc₀)
  obtain ⟨st, -, hst, rfl⟩ | ⟨hn, rfl⟩ := hend
  · exact ⟨_, _, _, exec_fails hi hw hc' (hchecks ▸ hst), current_respond hc _ _, current_respond hc' _ _, h, rfl⟩
  · obtain ⟨heffect, hresponse⟩ := h.effect hi hn
    exact ⟨_, _, _, exec_runs hi hw hc' (hchecks ▸ hn), current_respond hc _ _, current_respond hc' _ _, heffect,
      congrArg some hresponse.symm⟩

theorem execAll_alike {is : List Instr} (hi : ∀ i ∈ is, i.isCommand = true) {s s' t : State} {c c' : Context} {rs : List Response}
    (hc : s.current = some c) (hc' : s'.current = some c') (h : c.Alike c') (hrun : execAll is s = some (t, rs)) :
    ∃ t', execAll is s' = some (t', rs) := by
  induction is generalizing s s' c c' rs with
  | nil =>
    cases hrun
    exact ⟨s', rfl⟩
  | cons i is ih =>
    obtain ⟨hi₀, hi⟩ := List.forall_mem_cons.mp hi
    obtain ⟨u, rs', hexec, hrest, rfl⟩ := execAll_cons_eq_some hrun
    obtain ⟨u', d, d', hexec', hd, hd', halike, hresponse⟩ := exec_alike hi₀ hc hc' h hexec
    obtain ⟨t', hrest'⟩ := ih hi hd hd' halike hrest
    exact ⟨t', hresponse ▸ execAll_cons hexec' hrest'⟩

/-- Settles O60: by induction on the commands, each of which keeps the two contexts alike. -/
theorem messageRegistersAreNotObservableBetweenMessages : Obligations.MessageRegistersAreNotObservableBetweenMessages :=
  fun _ _ _ _ _ _ _ hi hc hc' hsame hst hup hrun => execAll_alike hi hc hc' (.inr ⟨hsame, hst, hup⟩) hrun

end Sys2Proof.Machine
end

section
/-! PROOFS. Tampering: GHASH is linear, so a changed byte shows in the tag as its difference times the power of H by which its block is
multiplied (44_gcm_engine.md R235, 45_oneshot.md R256, R259). -/

namespace Sys2Proof.Machine

/-! ## GHASH is linear -/

theorem xor_xor_same_right (a b m : Block) : (a ^^^ m) ^^^ (b ^^^ m) = a ^^^ b := by
  rw [xor_xor_comm4, BitVec.xor_self, BitVec.xor_zero]

theorem xor_xor_same_left (a b m : Block) : (m ^^^ a) ^^^ (m ^^^ b) = a ^^^ b := by
  rw [xor_xor_comm4, BitVec.xor_self, BitVec.zero_xor]

/-- `z • H^k`. -/
def timesPower (h : Block) (k : Nat) (z : Block) : Block := (fun z => gfMulRef z h)^[k] z

theorem timesPower_succ (h : Block) (k : Nat) (z : Block) : timesPower h (k + 1) z = timesPower h k (gfMulRef z h) := rfl

theorem timesPower_add (h : Block) (j k : Nat) (z : Block) : timesPower h (j + k) z = timesPower h j (timesPower h k z) :=
  Function.iterate_add_apply _ j k z

section
variable {hh hl : Vector Half 16} {h : Block} (ht : (hh, hl) = buildTables h)
include ht

theorem gfMult_of_tables (x : Block) : gfMult hh hl x = gfMulRef x h := by
  obtain ⟨rfl, rfl⟩ := Prod.mk.inj ht
  exact tableProductIsTheProduct h x

theorem gfMult_xor_gfMult (a b : Block) : gfMult hh hl a ^^^ gfMult hh hl b = gfMulRef (a ^^^ b) h := by
  rw [gfMult_of_tables ht, gfMult_of_tables ht, ← gfMulRef_xor_left]

/-- The difference of two accumulators is multiplied once for each group. -/
theorem ghashGroups_xor (n : Nat) (d : List Byte) (a b : Block) :
    ghashGroups hh hl n d a ^^^ ghashGroups hh hl n d b = timesPower h n (a ^^^ b) := by
  induction n generalizing d a b with
  | zero => rfl
  | succ n ih =>
    rw [ghashGroups_succ, ghashGroups_succ, ih, gfMult_xor_gfMult ht, xor_xor_same_right, timesPower_succ]

theorem ghashUpdate_xor (d : List Byte) (a b : Block) :
    ghashUpdate hh hl d a ^^^ ghashUpdate hh hl d b = timesPower h ((d.length + 15) / 16) (a ^^^ b) := by
  rw [ghashUpdate_eq_groups, ghashUpdate_eq_groups, ghashGroups_xor ht]

end

/-! ## One changed byte -/

/-- The sequence with `e` XORed into byte `i`. -/
def tamper (i : Nat) (e : Byte) (d : List Byte) : List Byte := d.set i (d.getD i 0 ^^^ e)

@[simp] theorem tamper_length (i : Nat) (e : Byte) (d : List Byte) : (tamper i e d).length = d.length := List.length_set

theorem tamper_take (i : Nat) (e : Byte) (d : List Byte) {n : Nat} (h : i < n) : (tamper i e d).take n = tamper i e (d.take n) := by
  simp [tamper, List.take_set, List.getD_eq_getElem?_getD, h]

theorem tamper_take_of_le {i : Nat} (e : Byte) (d : List Byte) {n : Nat} (h : n ≤ i) : (tamper i e d).take n = d.take n :=
  List.take_set_of_le h

theorem tamper_drop {i : Nat} (e : Byte) (d : List Byte) {n : Nat} (h : n ≤ i) :
    (tamper i e d).drop n = tamper (i - n) e (d.drop n) := by
  simp [tamper, List.drop_set, List.getD_eq_getElem?_getD, h.not_gt, Nat.add_sub_cancel' h]

theorem tamper_drop_of_lt {i : Nat} (e : Byte) (d : List Byte) {n : Nat} (h : i < n) : (tamper i e d).drop n = d.drop n :=
  List.drop_set_of_lt h

theorem tamper_getD {i : Nat} {d : List Byte} (hi : i < d.length) (e : Byte) (j : Nat) :
    (tamper i e d).getD j 0 = if j = i then d.getD j 0 ^^^ e else d.getD j 0 := by
  by_cases hj : j = i
  · subst hj
    simp [tamper, List.getD_eq_getElem?_getD, hi]
  · simp [tamper, List.getD_eq_getElem?_getD, List.getElem?_set_ne (Ne.symm hj), hj]

theorem blockOfBytes_tamper {i : Nat} {d : List Byte} (hi : i < d.length) (hd : d.length ≤ 16) (e : Byte) :
    blockOfBytes (tamper i e d) = blockOfBytes d ^^^ byteAt i e :=
  block_ext fun j hj => by
    rw [blockByte_blockOfBytes hj (by simpa using hd), tamper_getD hi, blockByte_xor_byteAt _ _ hj (by omega),
      blockByte_blockOfBytes hj hd]

section
variable {hh hl : Vector Half 16} {h : Block} (ht : (hh, hl) = buildTables h)
include ht

/-- The difference of the changed byte is multiplied for its own group and for each group after it. -/
theorem ghashGroups_tamper {n i : Nat} {d : List Byte} (hi : i < d.length) (hn : d.length ≤ 16 * n) (e : Byte) (a : Block) :
    ghashGroups hh hl n d a ^^^ ghashGroups hh hl n (tamper i e d) a = timesPower h (n - i / 16) (byteAt (i % 16) e) := by
  induction n generalizing d i a with
  | zero => omega
  | succ n ih =>
    rw [ghashGroups_succ, ghashGroups_succ]
    by_cases hfirst : i < 16
    · have hblock : blockOfBytes ((tamper i e d).take 16) = blockOfBytes (d.take 16) ^^^ byteAt i e := by
        rw [tamper_take i e d hfirst, blockOfBytes_tamper (by simp; omega) (by simp)]
      rw [tamper_drop_of_lt e d hfirst, ghashGroups_xor ht, gfMult_xor_gfMult ht, hblock, xor_xor_same_left, xor_cancel_left,
        ← timesPower_succ, Nat.mod_eq_of_lt hfirst, Nat.div_eq_of_lt hfirst, Nat.sub_zero]
    · have hlater : 16 ≤ i := not_lt.mp hfirst
      rw [tamper_take_of_le e d hlater, tamper_drop e d hlater, ih (by simp; omega) (by simp; omega), ← Nat.mod_eq_sub_mod hlater,
        show n - (i - 16) / 16 = n + 1 - i / 16 by omega]

theorem ghashUpdate_tamper {i : Nat} {d : List Byte} (hi : i < d.length) (e : Byte) (a : Block) :
    ghashUpdate hh hl d a ^^^ ghashUpdate hh hl (tamper i e d) a =
      timesPower h ((d.length + 15) / 16 - i / 16) (byteAt (i % 16) e) := by
  rw [ghashUpdate_eq_groups, ghashUpdate_eq_groups, tamper_length, ghashGroups_tamper ht hi (by omega)]

/-- The length block is one group. -/
theorem ghashUpdate_lengthBlock_xor (m n : Nat) (a b : Block) :
    ghashUpdate hh hl (lengthBlock m n) a ^^^ ghashUpdate hh hl (lengthBlock m n) b = timesPower h 1 (a ^^^ b) := by
  rw [ghashUpdate_xor ht, lengthBlock_length]

theorem finalHash_tamper_ciphertext {i : Nat} {d : List Byte} (hi : i < d.length) (e : Byte) (aad : List Byte) :
    finalHash hh hl aad d ^^^ finalHash hh hl aad (tamper i e d) =
      timesPower h ((d.length + 15) / 16 - i / 16 + 1) (byteAt (i % 16) e) := by
  rw [finalHash, finalHash, tamper_length, ghashUpdate_lengthBlock_xor ht, ghashUpdate_tamper ht hi, ← timesPower_add, Nat.add_comm]

theorem finalHash_tamper_aad {i : Nat} {aad : List Byte} (hi : i < aad.length) (e : Byte) (d : List Byte) :
    finalHash hh hl aad d ^^^ finalHash hh hl (tamper i e aad) d =
      timesPower h ((aad.length + 15) / 16 - i / 16 + (d.length + 15) / 16 + 1) (byteAt (i % 16) e) := by
  rw [finalHash, finalHash, tamper_length, ghashUpdate_lengthBlock_xor ht, ghashUpdate_xor ht, ghashUpdate_tamper ht hi,
    ← timesPower_add, ← timesPower_add]
  congr 1
  omega

end

/-! ## Tags -/

theorem blockBytes_take (b : Block) {t : Nat} (ht : t ≤ 16) : (blockBytes b).take t = (List.range t).map (blockByte b) := by
  rw [blockBytes, ← List.map_take, List.take_range, Nat.min_eq_left ht]

/-- Two Blocks agree on their first bytes exactly where those of their difference are zero. -/
theorem blockBytes_xor_take_eq_zero {a b : Block} {t : Nat} (ht : t ≤ 16) :
    (blockBytes (a ^^^ b)).take t = zeroBytes t ↔ (blockBytes a).take t = (blockBytes b).take t := by
  have hzero : zeroBytes t = (List.range t).map fun _ => 0#8 := by rw [List.map_const', List.length_range, zeroBytes]
  rw [hzero, blockBytes_take _ ht, blockBytes_take _ ht, blockBytes_take _ ht, List.map_inj_left, List.map_inj_left]
  simp only [blockByte_xor, BitVec.xor_eq_zero_iff]

/-- Two messages under one key and one IV have the same tag exactly where the tag does not show the difference of their hashes. -/
theorem messageTag_eq_iff {key : List Byte} {hh hl : Vector Half 16} {j0Orig : Block} {aad d aad' d' : List Byte} {t : Nat}
    (ht : t ≤ 16) :
    messageTag key hh hl j0Orig aad d t = messageTag key hh hl j0Orig aad' d' t ↔
      (blockBytes (finalHash hh hl aad d ^^^ finalHash hh hl aad' d')).take t = zeroBytes t := by
  rw [messageTag, messageTag, ← blockBytes_xor_take_eq_zero ht, xor_xor_same_left]

theorem messageTag_length (key : List Byte) (hh hl : Vector Half 16) (j0Orig : Block) (aad d : List Byte) {t : Nat} (ht : t ≤ 16) :
    (messageTag key hh hl j0Orig aad d t).length = t := by
  simpa [messageTag] using ht

theorem tagCompare_iff {check tag : List Byte} {t : Nat} (hc : check.length = t) (ht : tag.length = t) :
    tagCompare check tag t = true ↔ check = tag := by
  rw [tagCompare, beq_iff_eq]
  refine (tagDifference_eq_zero check tag t).trans ⟨fun h => List.ext_getElem (hc.trans ht.symm) fun i hi hi' => ?_, ?_⟩
  · simpa [List.getD_eq_getElem?_getD, hi, hi'] using h i (hc ▸ hi)
  · rintro rfl i -
    rfl

/-! ## AUTH_DECRYPT -/

/-- TAG of a one-shot is that of the message. -/
theorem oneShotBody_tag (m : Mode) (iv : List Byte) {aadLen len : BitVec 64} {aad input : List Byte}
    (haad : aad.length = aadLen.toNat) (hlen : input.length = len.toNat) (tagLen : BitVec 32) (c : Context) :
    (oneShotBody m iv aadLen aad len input tagLen c).tag =
      messageTag (keyInUse c) c.hh c.hl (deriveJ0 c.hh c.hl iv) aad
        (ciphertextOf m (keyInUse c) (deriveJ0 c.hh c.hl iv) input) tagLen.toNat := by
  have hbefore := updateAdBody_beforePayload (startBody_beforePayload m iv c) aadLen aad
  rw [← tagFrom_updateAdBody haad m]
  exact updateBody_finish_tag hbefore hlen tagLen

theorem verdict_status_failed {plain check tag : List Byte} {len : BitVec 64} {tagLen : BitVec 32}
    (hc : check.length = tagLen.toNat) (ht : tag.length = tagLen.toNat) :
    (verdict plain check tag len tagLen).status = .authenticationFailed ↔ tag ≠ check := by
  rw [verdict, ne_comm, ne_eq, ← tagCompare_iff hc ht]
  cases tagCompare check tag tagLen.toNat <;> simp

/-- The operands of a one-shot that pass its checks and meet the host's duty (R250). -/
structure OneShotOperands (ivLen aadLen len : BitVec 64) (iv aad d : List Byte) (tagLen : BitVec 32) : Prop where
  iv : iv.length = ivLen.toNat
  ivMin : 1 ≤ ivLen.toNat
  ivMax : ivLen.toNat < ivLimit
  aad : aad.length = aadLen.toNat
  aadMax : aadLen.toNat < aadLimit
  input : d.length = len.toNat
  inputMax : len.toNat ≤ maxDataBytes
  tagLenMin : tagMin ≤ tagLen.toNat
  tagLenMax : tagLen.toNat ≤ tagMax

theorem OneShotOperands.checks {ivLen aadLen len : BitVec 64} {iv aad d : List Byte} {tagLen : BitVec 32}
    (h : OneShotOperands ivLen aadLen len iv aad d tagLen) {c : Context} (hk : c.msgState ≠ .init) :
    firstFailing (oneShotChecks ivLen (some iv) aadLen (some aad) len (some d) tagLen c) = none := by
  obtain ⟨-, hivMin, hivMax, -, haad, -, hlen, hmin, hmax⟩ := h
  rw [firstFailing_oneShotChecks hk, if_neg]
  simp only [reduceCtorEq, false_and, false_or]
  omega

/-- AUTH_DECRYPT answers AUTHENTICATION_FAILED exactly where TAG is not the tag of the message. -/
theorem exec_authDecrypt_status {s : State} {c : Context} (hc : s.current = some c) (hk : c.msgState ≠ .init)
    {ivLen aadLen len : BitVec 64} {iv aad d tag : List Byte} {tagLen : BitVec 32}
    (h : OneShotOperands ivLen aadLen len iv aad d tagLen) (htag : tag.length = tagLen.toNat) :
    ∃ t r, exec (.authDecrypt ivLen (some iv) aadLen (some aad) len (some d) tagLen (some tag)) s = .next t ∧ t.response = some r ∧
      (r.status = .authenticationFailed ↔
        tag ≠ messageTag (keyInUse c) c.hh c.hl (deriveJ0 c.hh c.hl iv) aad d tagLen.toNat) ∧
      (r.status = .authenticationFailed ∨ r.status = .ok) := by
  have hchecks : firstFailing
      (commandChecks (.authDecrypt ivLen (some iv) aadLen (some aad) len (some d) tagLen (some tag)) c) = none := by
    rw [commandChecks, firstFailing_append, h.checks hk]
    rfl
  have hw : (Instr.authDecrypt ivLen (some iv) aadLen (some aad) len (some d) tagLen (some tag)).wf = true := by
    simp [Instr.wf, Buffer.carries, h.iv, h.aad, h.input, htag]
  refine ⟨_, _, exec_runs rfl hw hc hchecks, rfl, ?_, (verdict_status _ _ _ _ _).symm⟩
  have hcheck := oneShotBody_tag .decrypt iv h.aad h.input tagLen c
  rw [commandResponse]
  dsimp only [bufferBytes]
  rw [hcheck]
  exact verdict_status_failed (messageTag_length _ _ _ _ _ _ h.tagLenMax) htag

/-! ## Detection -/

/-- AUTH_DECRYPT of other data than the tag was made for, of the same lengths: detected exactly where the tag shows the difference of the
hashes. -/
theorem exec_authDecrypt_detects {s : State} {c : Context} (hc : s.current = some c) (hk : c.msgState ≠ .init)
    {ivLen aadLen len : BitVec 64} {iv aad d aad' d' tag : List Byte} {tagLen : BitVec 32}
    (h : OneShotOperands ivLen aadLen len iv aad' d' tagLen)
    (htag : tag = messageTag (keyInUse c) c.hh c.hl (deriveJ0 c.hh c.hl iv) aad d tagLen.toNat) {difference : Block}
    (hdiff : finalHash c.hh c.hl aad d ^^^ finalHash c.hh c.hl aad' d' = difference) :
    ∃ t r, exec (.authDecrypt ivLen (some iv) aadLen (some aad') len (some d') tagLen (some tag)) s = .next t ∧ t.response = some r ∧
      (r.status = .authenticationFailed ↔ (blockBytes difference).take tagLen.toNat ≠ zeroBytes tagLen.toNat) ∧
      (r.status = .authenticationFailed ∨ r.status = .ok) := by
  subst htag hdiff
  obtain ⟨t, r, hexec, hr, hfailed, hend⟩ := exec_authDecrypt_status hc hk h (messageTag_length _ _ _ _ _ _ h.tagLenMax)
  exact ⟨t, r, hexec, hr, hfailed.trans (not_congr (messageTag_eq_iff h.tagLenMax)), hend⟩

/-- Settles O57: the changed block is multiplied by H once for each block of the ciphertext from it on, and for the length block. -/
theorem changedCiphertextIsDetected : Obligations.ChangedCiphertextIsDetected := by
  intro s c h ivLen iv aadLen aad len d tag tagLen i e hc hk ht hiv hivMin hivMax haad haadMax hlen hlenMax hmin hmax hi htag
  have hops : OneShotOperands ivLen aadLen len iv aad (tamper i e d) tagLen :=
    ⟨hiv, hivMin, hivMax, haad, haadMax, (tamper_length i e d).trans hlen, hlenMax, hmin, hmax⟩
  obtain ⟨t, r, hdetect⟩ := exec_authDecrypt_detects hc hk hops htag (finalHash_tamper_ciphertext ht hi e aad)
  exact ⟨t, r, _, rfl, hdetect⟩

/-- Settles O58: the changed block is multiplied by H once for each block of the associated data from it on, for each block of the
ciphertext, and for the length block. -/
theorem changedAadIsDetected : Obligations.ChangedAadIsDetected := by
  intro s c h ivLen iv aadLen aad len d tag tagLen i e hc hk ht hiv hivMin hivMax haad haadMax hlen hlenMax hmin hmax hi htag
  have hops : OneShotOperands ivLen aadLen len iv (tamper i e aad) d tagLen :=
    ⟨hiv, hivMin, hivMax, (tamper_length i e aad).trans haad, haadMax, hlen, hlenMax, hmin, hmax⟩
  obtain ⟨t, r, hdetect⟩ := exec_authDecrypt_detects hc hk hops htag (finalHash_tamper_aad ht hi e d)
  exact ⟨t, r, _, rfl, hdetect⟩

end Sys2Proof.Machine
end

section
/-! PROOFS. The one-shot commands in closed form: the registers, OUT and TAG of their four bodies, and which TAG AUTH_DECRYPT takes
(45_oneshot.md R250, R251, R255 to R259). -/

namespace Sys2Proof.Machine

/-! ## The bodies of a one-shot -/

/-- UPDATE of the whole payload, where no payload has come before. -/
theorem updateBody_of_beforePayload {c : Context} (h : c.BeforePayload) (len : BitVec 64) (d : List Byte) :
    (updateBody len d c).1 =
      { c with
        j0 := inc32Iter (1 + d.length / 16) c.j0
        ks := if d = [] then c.ks else Config.blockCipher (keyInUse c) (inc32Iter (1 + (d.length - 1) / 16) c.j0)
        ksOff := BitVec.ofNat 4 (d.length % 16)
        acc := ((updateCiphertext d c).foldl (absorbPair c.hh c.hl) (c.acc, 0)).1
        ghPend := ((updateCiphertext d c).foldl (absorbPair c.hh c.hl) (c.acc, 0)).2
        dataLen := len
        msgState := .updating } := by
  have hfirst : firstIncrement c = { c with j0 := inc32 c.j0 } := if_pos h.started
  have hoff : (firstIncrement c).ksOff = 0 := by rw [hfirst, h.ksOff]
  have hoffNat : (firstIncrement c).ksOff.toNat = 0 := by rw [hoff]; rfl
  have hlen : c.dataLen + len = len := by rw [h.dataLen]; exact BitVec.zero_add len
  rw [updateBody_eq, ctrCrypt_eq, hoffNat, ctrStream_closed hoff, hfirst, h.ghPend, hlen, Nat.zero_add, Nat.add_comm 1,
    Nat.add_comm 1]
  rfl

/-- The registers that FINISH leaves. -/
theorem finishBody_context (tagLen : BitVec 32) (c : Context) :
    (finishBody tagLen c).1 =
      { c with
        acc := ghashUpdate c.hh c.hl (lengthBlock c.aadLen.toNat c.dataLen.toNat) (ghashFlush c).acc
        ghPend := 0, msgState := .finished } := by
  rw [finishBody, ghashFlush_eq]
  rfl

/-- FINISH after one UPDATE of the whole payload: the registers it leaves. -/
theorem finishBody_updateBody_context {c : Context} (h : c.BeforePayload) {len : BitVec 64} {d : List Byte}
    (hl : d.length = len.toNat) (tagLen : BitVec 32) :
    (finishBody tagLen (updateBody len d c).1).1 =
      { c with
        j0 := inc32Iter (1 + d.length / 16) c.j0
        ks := if d = [] then c.ks else Config.blockCipher (keyInUse c) (inc32Iter (1 + (d.length - 1) / 16) c.j0)
        ksOff := BitVec.ofNat 4 (d.length % 16)
        acc := ghashUpdate c.hh c.hl (lengthBlock c.aadLen.toNat d.length)
          (ghashUpdate c.hh c.hl (ciphertextOf c.mode (keyInUse c) c.j0 d) c.acc)
        ghPend := 0, dataLen := len, msgState := .finished } := by
  rw [finishBody_context, updateBody_ghashFlush_acc h.ghPend, updateCiphertext_of_beforePayload h, updateBody_of_beforePayload h, hl]

@[simp] theorem ciphertextOf_length (m : Mode) (key : List Byte) (j : Block) (p : List Byte) :
    (ciphertextOf m key j p).length = p.length := by
  cases m
  · rfl
  · exact crypted_length key j p

/-- The registers that a one-shot leaves (R250). -/
def afterOneShot (m : Mode) (iv : List Byte) (aadLen : BitVec 64) (aad : List Byte) (len : BitVec 64) (d : List Byte) (c : Context) :
    Context :=
  let j0Orig := deriveJ0 c.hh c.hl iv
  { c with
    mode := m, j0Orig := j0Orig, j0 := inc32Iter (1 + d.length / 16) j0Orig
    acc := finalHash c.hh c.hl aad (ciphertextOf m (keyInUse c) j0Orig d), ghPend := 0
    aadLen := aadLen, dataLen := len, adDone := true
    ks := if d = [] then 0 else Config.blockCipher (keyInUse c) (inc32Iter (1 + (d.length - 1) / 16) j0Orig)
    ksOff := BitVec.ofNat 4 (d.length % 16), msgState := .finished }

theorem oneShotBody_context (m : Mode) (iv : List Byte) {aadLen len : BitVec 64} {aad d : List Byte}
    (haad : aad.length = aadLen.toNat) (hlen : d.length = len.toNat) (tagLen : BitVec 32) (c : Context) :
    (oneShotBody m iv aadLen aad len d tagLen c).context = afterOneShot m iv aadLen aad len d c := by
  have hbefore := updateAdBody_beforePayload (startBody_beforePayload m iv c) aadLen aad
  rw [afterOneShot, finalHash, ciphertextOf_length, haad]
  exact finishBody_updateBody_context hbefore hlen tagLen

theorem oneShotBody_out (m : Mode) (iv : List Byte) (aadLen : BitVec 64) (aad : List Byte) (len : BitVec 64) (d : List Byte)
    (tagLen : BitVec 32) (c : Context) :
    (oneShotBody m iv aadLen aad len d tagLen c).out = crypted (keyInUse c) (deriveJ0 c.hh c.hl iv) d :=
  updateBody_out_of_started (c := updateAdBody aadLen aad (startBody m iv c)) rfl rfl len d

/-! ## Operands -/

/-- The checks of a one-shot pass on its operands, NULL standing for no bytes. -/
theorem OneShotOperands.checks_of_buffers {ivLen aadLen len : BitVec 64} {iv : List Byte} {aad input : Buffer} {tagLen : BitVec 32}
    (h : OneShotOperands ivLen aadLen len iv (bufferBytes aad) (bufferBytes input) tagLen) {c : Context} (hk : c.msgState ≠ .init) :
    firstFailing (oneShotChecks ivLen (some iv) aadLen aad len input tagLen c) = none := by
  have hnull {b : Buffer} {n : Nat} (hl : (bufferBytes b).length = n) : ¬ (b = none ∧ 0 < n) := by
    rintro ⟨rfl, hpos⟩
    exact hpos.ne hl
  obtain ⟨-, hivMin, hivMax, haad, haadMax, hinput, hinputMax, hmin, hmax⟩ := h
  rw [firstFailing_oneShotChecks hk, if_neg]
  simp only [hnull haad, hnull hinput, reduceCtorEq, false_or]
  omega

/-- A ciphertext has the length of its payload, so it may stand as the payload of another one-shot. -/
theorem OneShotOperands.ciphertext {ivLen aadLen len : BitVec 64} {iv aad d : List Byte} {tagLen : BitVec 32}
    (h : OneShotOperands ivLen aadLen len iv aad d tagLen) (m : Mode) (key : List Byte) (j : Block) :
    OneShotOperands ivLen aadLen len iv aad (ciphertextOf m key j d) tagLen :=
  { h with input := (ciphertextOf_length m key j d).trans h.input }

theorem carries_of_length {b : Buffer} {n : Nat} (h : (bufferBytes b).length = n) : Buffer.carries b n = true := by
  cases b with
  | none => rfl
  | some l => exact beq_iff_eq.mpr h

/-- The operands of a one-shot whose buffers meet the host's duty and whose checks pass. -/
theorem oneShotOperands_of_checks {ivLen aadLen len : BitVec 64} {iv aad input : Buffer} {tagLen : BitVec 32} {c : Context}
    (hiv : holds iv ivLen.toNat = true) (haad : holds aad aadLen.toNat = true) (hinput : holds input len.toNat = true)
    (h : firstFailing (oneShotChecks ivLen iv aadLen aad len input tagLen c) = none) :
    c.msgState ≠ .init ∧
      ∃ l, iv = some l ∧ OneShotOperands ivLen aadLen len l (bufferBytes aad) (bufferBytes input) tagLen := by
  have hk : c.msgState ≠ .init := (oneShot_of_oneShotChecks hinput h).1
  rw [firstFailing_oneShotChecks hk, ite_eq_right_iff] at h
  simp only [reduceCtorEq, imp_false, not_or, not_lt, not_le, not_and] at h
  obtain ⟨⟨hsome, hivMin, hivMax⟩, ⟨haadNull, haadMax⟩, ⟨hinputNull, hinputMax⟩, hmin, hmax⟩ := h
  obtain ⟨l, rfl⟩ := Option.ne_none_iff_exists'.mp hsome
  exact ⟨hk, l, rfl, bufferBytes_length hiv nofun, Nat.pos_of_ne_zero hivMin, hivMax,
    bufferBytes_length haad fun e => Nat.le_zero.mp (haadNull e), haadMax,
    bufferBytes_length hinput fun e => Nat.le_zero.mp (hinputNull e), hinputMax, hmin, hmax⟩

/-! ## CRYPT_AND_TAG -/

section
variable {s : State} {c : Context} (hc : s.current = some c) (hk : c.msgState ≠ .init) {ivLen aadLen len : BitVec 64} {iv : List Byte}
  {aad input : Buffer} {tagLen : BitVec 32}
  (h : OneShotOperands ivLen aadLen len iv (bufferBytes aad) (bufferBytes input) tagLen)
include hc hk h

theorem exec_cryptAndTag_of_operands (m : Mode) :
    exec (.cryptAndTag m ivLen (some iv) aadLen aad len input tagLen) s =
      .next (s.respond (afterOneShot m iv aadLen (bufferBytes aad) len (bufferBytes input) c)
        { status := .ok
          out := crypted (keyInUse c) (deriveJ0 c.hh c.hl iv) (bufferBytes input)
          tag := messageTag (keyInUse c) c.hh c.hl (deriveJ0 c.hh c.hl iv) (bufferBytes aad)
            (ciphertextOf m (keyInUse c) (deriveJ0 c.hh c.hl iv) (bufferBytes input)) tagLen.toNat }) := by
  have hw : (Instr.cryptAndTag m ivLen (some iv) aadLen aad len input tagLen).wf = true := by
    simp [Instr.wf, carries_of_length (b := some iv) h.iv, carries_of_length h.aad, carries_of_length h.input]
  rw [exec_runs rfl hw hc (h.checks_of_buffers hk), ← oneShotBody_context m iv h.aad h.input tagLen,
    ← oneShotBody_tag m iv h.aad h.input, ← oneShotBody_out m iv aadLen (bufferBytes aad) len _ tagLen]
  rfl

/-- AUTH_DECRYPT leaves the registers of CRYPT_AND_TAG.DEC, whatever its verdict. -/
theorem exec_authDecrypt_of_operands {tag : List Byte} (htag : tag.length = tagLen.toNat) :
    exec (.authDecrypt ivLen (some iv) aadLen aad len input tagLen (some tag)) s =
      .next (s.respond (afterOneShot .decrypt iv aadLen (bufferBytes aad) len (bufferBytes input) c)
        (verdict (crypted (keyInUse c) (deriveJ0 c.hh c.hl iv) (bufferBytes input))
          (messageTag (keyInUse c) c.hh c.hl (deriveJ0 c.hh c.hl iv) (bufferBytes aad) (bufferBytes input) tagLen.toNat) tag len
          tagLen)) := by
  have hw : (Instr.authDecrypt ivLen (some iv) aadLen aad len input tagLen (some tag)).wf = true := by
    simp [Instr.wf, carries_of_length (b := some iv) h.iv, carries_of_length h.aad, carries_of_length h.input,
      carries_of_length (b := some tag) htag]
  have hchecks : firstFailing (commandChecks (.authDecrypt ivLen (some iv) aadLen aad len input tagLen (some tag)) c) = none := by
    rw [commandChecks, firstFailing_append, h.checks_of_buffers hk]
    rfl
  have htagBody := oneShotBody_tag .decrypt iv h.aad h.input tagLen c
  rw [ciphertextOf] at htagBody
  rw [exec_runs rfl hw hc hchecks, ← oneShotBody_context .decrypt iv h.aad h.input tagLen, ← htagBody,
    ← oneShotBody_out .decrypt iv aadLen (bufferBytes aad) len _ tagLen]
  rfl

/-- The four commands of R251 leave and answer what the four bodies of the one-shot do. -/
theorem execAll_oneShot (m : Mode) :
    ∃ u, execAll [.start m ivLen (some iv), .updateAd aadLen aad, .update len input, .finish tagLen] s =
        some (u, [okOnly, okOnly,
          outOnly (oneShotBody m iv aadLen (bufferBytes aad) len (bufferBytes input) tagLen c).out,
          tagOnly (oneShotBody m iv aadLen (bufferBytes aad) len (bufferBytes input) tagLen c).tag]) ∧
      u.contexts = storeSlot s.contexts s.active
        (some (oneShotBody m iv aadLen (bufferBytes aad) len (bufferBytes input) tagLen c).context) := by
  have hbuffer (b : Buffer) : b = none ∧ bufferBytes b = [] ∨ b = some (bufferBytes b) := by
    cases b
    · exact .inl ⟨rfl, rfl⟩
    · exact .inr rfl
  have hroom : (0 : BitVec 64).toNat + len.toNat ≤ maxDataBytes := (Nat.zero_add _).trans_le h.inputMax
  let started := startBody m iv c
  let withAad := updateAdBody aadLen (bufferBytes aad) started
  let updated := updateBody len (bufferBytes input) withAad
  have hstart := exec_start_of_iv hc hk m h.iv h.ivMin h.ivMax
  have haad := exec_updateAd_of_buffer (current_respond hc started okOnly) rfl rfl (hbuffer aad) h.aad h.aadMax
  have hupdate := exec_update_of_buffer (current_respond hc withAad okOnly) (.inl rfl) (hbuffer input) h.input hroom
  have hfinish := exec_finish_of_tagLen (current_respond hc updated.1 (outOnly updated.2)) (.inr rfl) h.tagLenMin h.tagLenMax
  rw [respond_respond] at haad hupdate hfinish
  exact ⟨_, execAll_cons hstart (execAll_cons haad (execAll_cons hupdate (execAll_cons hfinish rfl))), rfl⟩

end

/-- Settles O50: the state check, the checks on the operands, which have one status, then the closed form of the four bodies. -/
theorem cryptAndTagRule : Obligations.CryptAndTagRule := by
  intro s c m ivLen aadLen len tagLen hc
  refine ⟨fun hi iv aad input hw => ?invalidState, fun hk => ⟨fun iv aad input hbad hw => ?badInput, ?closed⟩⟩
  case invalidState => exact exec_invalidState rfl hw hc (by simp [transition, hi])
  case badInput =>
    refine exec_fails rfl hw hc ?_
    rw [commandChecks, firstFailing_oneShotChecks hk, if_pos (by simpa only [or_assoc] using hbad)]
  case closed =>
    intro iv aad input a d hiv hivMin hivMax haad haadLen haadMax hinput hlen hlenMax hmin hmax
    obtain ⟨rfl, -, -⟩ := buffer_of_bytes haad haadLen
    obtain ⟨rfl, -, -⟩ := buffer_of_bytes hinput hlen
    have hops : OneShotOperands ivLen aadLen len iv (bufferBytes aad) (bufferBytes input) tagLen :=
      ⟨hiv, hivMin, hivMax, haadLen, haadMax, hlen, hlenMax, hmin, hmax⟩
    exact ⟨_, _, rfl, rfl, exec_cryptAndTag_of_operands hc hk hops m⟩

/-- What a CRYPT_AND_TAG that answers was: one that failed and wrote nothing, or one on operands that pass its checks. -/
theorem exec_cryptAndTag_cases {s t : State} {m : Mode} {ivLen aadLen len : BitVec 64} {iv aad input : Buffer} {tagLen : BitVec 32}
    (h : exec (.cryptAndTag m ivLen iv aadLen aad len input tagLen) s = .next t) :
    ∃ c, s.current = some c ∧
      ((∃ st, st.fails ∧ t = s.respond c (failed st)) ∨
        (c.msgState ≠ .init ∧ ∃ l, iv = some l ∧
          OneShotOperands ivLen aadLen len l (bufferBytes aad) (bufferBytes input) tagLen)) := by
  obtain ⟨c, hc, hw, ⟨st, hst, -, rfl⟩ | ⟨hn, -⟩⟩ := exec_answer_cases rfl h
  · exact ⟨c, hc, .inl ⟨st, hst, rfl⟩⟩
  · simp only [Instr.wf, Bool.and_eq_true] at hw
    obtain ⟨⟨hiv, haad⟩, hinput⟩ := hw
    exact ⟨c, hc, .inr (oneShotOperands_of_checks hiv haad hinput hn)⟩

/-- Settles O51: the four commands are the four bodies, one after the other, and each finds its checks among those of the one-shot. -/
theorem oneShotEqualsTheSequence : Obligations.OneShotEqualsTheSequence := by
  intro s t r m ivLen iv aadLen aad len input tagLen h hr
  obtain ⟨c, hc, ⟨st, hst, rfl⟩ | ⟨hk, l, rfl, hops⟩⟩ := exec_cryptAndTag_cases h
  case inl =>
    obtain rfl : failed st = r := Option.some.inj hr
    refine ⟨fun hok => ?_, fun _ => contextAt_respond_keep hc _⟩
    obtain rfl : st = .ok := hok
    simp [Status.fails] at hst
  case inr =>
    obtain ⟨u, hrun, hu⟩ := execAll_oneShot hc hk hops m
    rw [oneShotBody_context m l hops.aad hops.input] at hu
    rw [oneShotBody_out, oneShotBody_tag m l hops.aad hops.input] at hrun
    obtain rfl := Host.Outcome.next.inj ((exec_cryptAndTag_of_operands hc hk hops m).symm.trans h)
    cases hr
    exact ⟨fun _ => ⟨u, _, _, hrun, rfl, rfl, rfl, rfl, hu⟩, fun hne => absurd rfl hne⟩

/-! ## The comparison of tags -/

/-- TAG_COMPARE reads the first `t` bytes alone. -/
theorem tagCompare_take (check tag : List Byte) (t : Nat) : tagCompare (check.take t) (tag.take t) t = tagCompare check tag t := by
  have hbyte (l : List Byte) {i : Nat} (hi : i < t) : (l.take t).getD i 0 = l.getD i 0 := by
    simp [List.getD_eq_getElem?_getD, hi]
  refine Bool.eq_iff_iff.mpr ?_
  rw [tagCompare, tagCompare, beq_iff_eq, beq_iff_eq]
  refine (tagDifference_eq_zero _ _ t).trans (.trans (forall₂_congr fun i hi => ?_) (tagDifference_eq_zero _ _ t).symm)
  rw [hbyte check hi, hbyte tag hi]

/-- Settles O53: the first `t` bytes of either are a sequence of `t` bytes, and TAG_COMPARE of two such is true exactly where
they are equal. -/
theorem tagCompareIsEqualityOfPrefixes : Obligations.TagCompareIsEqualityOfPrefixes := by
  intro s c check tag t hc hmin hmax hcheck htag
  have hdomain : tagCompareDomain check tag t.toNat = true := by
    simp only [tagCompareDomain, Bool.and_eq_true, decide_eq_true_eq]
    exact ⟨⟨⟨hmin, hmax⟩, hcheck⟩, htag⟩
  refine ⟨tagCompare check tag t.toNat, runDatapath_ok hc (if_pos hdomain), ?_⟩
  rw [← tagCompare_take]
  exact tagCompare_iff (List.length_take_of_le hcheck) (List.length_take_of_le htag)

theorem verdict_of_match {plain check tag : List Byte} {len : BitVec 64} {tagLen : BitVec 32} (hc : check.length = tagLen.toNat)
    (h : tag = check) : verdict plain check tag len tagLen = { status := .ok, out := plain, tag := [] } :=
  if_pos ((tagCompare_iff hc (h ▸ hc)).mpr h.symm)

/-- What a mismatch answers, which is a matter of LEN alone. -/
theorem verdict_of_failed {plain check tag : List Byte} {len : BitVec 64} {tagLen : BitVec 32}
    (h : (verdict plain check tag len tagLen).status = .authenticationFailed) :
    verdict plain check tag len tagLen = { status := .authenticationFailed, out := zeroBytes len.toNat, tag := [] } := by
  rw [verdict] at h ⊢
  split at h
  · cases h
  · rename_i hne
    exact if_neg hne

theorem verdict_of_mismatch {plain check tag : List Byte} {len : BitVec 64} {tagLen : BitVec 32} (hc : check.length = tagLen.toNat)
    (ht : tag.length = tagLen.toNat) (h : tag ≠ check) :
    verdict plain check tag len tagLen = { status := .authenticationFailed, out := zeroBytes len.toNat, tag := [] } :=
  verdict_of_failed ((verdict_status_failed hc ht).mpr h)

/-! ## AUTH_DECRYPT -/

/-- Settles O52: the checks of CRYPT_AND_TAG, the check on TAG, then the closed form of the four bodies, and the verdict on their tag. -/
theorem authDecryptRule : Obligations.AuthDecryptRule := by
  intro s c ivLen aadLen len tagLen hc
  refine ⟨fun hi iv aad input tag hw => ?invalidState, fun hk => ⟨fun iv aad input tag hbad hw => ?badInput, ?closed⟩⟩
  case invalidState => exact exec_invalidState rfl hw hc (by simp [transition, hi])
  case badInput =>
    refine exec_fails rfl hw hc ?_
    rw [commandChecks, firstFailing_append, firstFailing_oneShotChecks hk, firstFailing_tagChecks, ite_or_ite,
      if_pos (by simpa only [or_assoc] using hbad)]
  case closed =>
    intro iv aad input a d tag hiv hivMin hivMax haad haadLen haadMax hinput hlen hlenMax hmin hmax htag
    obtain ⟨rfl, -, -⟩ := buffer_of_bytes haad haadLen
    obtain ⟨rfl, -, -⟩ := buffer_of_bytes hinput hlen
    have hops : OneShotOperands ivLen aadLen len iv (bufferBytes aad) (bufferBytes input) tagLen :=
      ⟨hiv, hivMin, hivMax, haadLen, haadMax, hlen, hlenMax, hmin, hmax⟩
    have hcheck := messageTag_length (keyInUse c) c.hh c.hl (deriveJ0 c.hh c.hl iv) (bufferBytes aad) (bufferBytes input) hmax
    have hexec := exec_authDecrypt_of_operands hc hk hops htag
    refine ⟨_, _, _, rfl, rfl, rfl, fun heq => ?_, fun hne => ?_⟩
    · rw [hexec, verdict_of_match hcheck heq]
      rfl
    · rw [hexec, verdict_of_mismatch hcheck htag hne]
      rfl

/-- Settles O54: no failing check answers AUTHENTICATION_FAILED, and a verdict that does has LEN zero bytes. -/
theorem mismatchShowsNoPlaintext : Obligations.MismatchShowsNoPlaintext := by
  intro s t r ivLen iv aadLen aad len input tagLen tag h hr hfailed
  obtain ⟨c, hc, -, ⟨st, hst, -, rfl⟩ | ⟨-, rfl⟩⟩ := exec_answer_cases rfl h
  · obtain rfl : failed st = r := Option.some.inj hr
    obtain rfl : st = .authenticationFailed := hfailed
    simp [Status.fails] at hst
  · cases hr
    rw [commandResponse] at hfailed ⊢
    rw [verdict_of_failed hfailed]
    exact ⟨rfl, rfl⟩

/-! ## AUTH_DECRYPT after CRYPT_AND_TAG -/

/-- AUTH_DECRYPT after a one-shot on the same IV and associated data: the key and the tables are those from before it, so the tag it
computes and the plaintext are those of its ciphertext there. -/
theorem exec_authDecrypt_after {s : State} {c : Context} (hc : s.current = some c) {ivLen aadLen len : BitVec 64} {iv ct tag : List Byte}
    {aad : Buffer} {tagLen : BitVec 32} (h : OneShotOperands ivLen aadLen len iv (bufferBytes aad) ct tagLen)
    (htag : tag.length = tagLen.toNat) (m : Mode) (d : List Byte) (r : Response) :
    ∃ done, exec (.authDecrypt ivLen (some iv) aadLen aad len (some ct) tagLen (some tag))
        (s.respond (afterOneShot m iv aadLen (bufferBytes aad) len d c) r) =
      .next (s.respond done
        (verdict (crypted (keyInUse c) (deriveJ0 c.hh c.hl iv) ct)
          (messageTag (keyInUse c) c.hh c.hl (deriveJ0 c.hh c.hl iv) (bufferBytes aad) ct tagLen.toNat) tag len tagLen)) := by
  have hk : (afterOneShot m iv aadLen (bufferBytes aad) len d c).msgState ≠ .init := nofun
  have hexec := exec_authDecrypt_of_operands (input := some ct) (current_respond hc _ r) hk h htag
  rw [respond_respond] at hexec
  exact ⟨_, hexec⟩

/-- Settles O55: the tables and the key are still there, the ciphertext gives the tag, and the keystream is XORed twice. -/
theorem authDecryptUndoesCryptAndTag : Obligations.AuthDecryptUndoesCryptAndTag := by
  intro s c ivLen iv aadLen aad len p tagLen hc hk hiv hivMin hivMax haad haadMax hlen hlenMax hmin hmax
  have hops : OneShotOperands ivLen aadLen len iv (bufferBytes (some aad)) (bufferBytes (some p)) tagLen :=
    ⟨hiv, hivMin, hivMax, haad, haadMax, hlen, hlenMax, hmin, hmax⟩
  have htag := messageTag_length (keyInUse c) c.hh c.hl (deriveJ0 c.hh c.hl iv) aad (crypted (keyInUse c) (deriveJ0 c.hh c.hl iv) p) hmax
  obtain ⟨done, hexec⟩ := exec_authDecrypt_after hc (hops.ciphertext .encrypt _ _) htag .encrypt p _
  refine ⟨_, _, _, _, exec_cryptAndTag_of_operands hc hk hops .encrypt, rfl, hexec, congrArg some ?_⟩
  exact (verdict_of_match htag rfl).trans (by rw [ciphertextOf, crypted_crypted]; rfl)

/-- Settles O56: the tag that AUTH_DECRYPT computes is the one that was given. -/
theorem changedTagIsDetected : Obligations.ChangedTagIsDetected := by
  intro s t m out tag tag' ivLen iv aadLen aad len input tagLen ct h hr hct hlen hne
  obtain ⟨c, hc, ⟨st, hst, rfl⟩ | ⟨hk, l, rfl, hops⟩⟩ := exec_cryptAndTag_cases h
  case inl =>
    obtain rfl : st = .ok := congrArg Response.status (Option.some.inj hr)
    simp [Status.fails] at hst
  case inr =>
    obtain rfl := Host.Outcome.next.inj ((exec_cryptAndTag_of_operands hc hk hops m).symm.trans h)
    cases hr
    have hcipher : ct = ciphertextOf m (keyInUse c) (deriveJ0 c.hh c.hl l) (bufferBytes input) := by
      obtain ⟨rfl, rfl⟩ | ⟨rfl, rfl⟩ := hct <;> rfl
    have hcheck := messageTag_length (keyInUse c) c.hh c.hl (deriveJ0 c.hh c.hl l) (bufferBytes aad) ct hops.tagLenMax
    subst hcipher
    obtain ⟨done, hexec⟩ := exec_authDecrypt_after hc (hops.ciphertext m _ _) (hlen.trans hcheck) m (bufferBytes input) _
    exact ⟨_, hexec, congrArg some (verdict_of_mismatch hcheck (hlen.trans hcheck) hne)⟩

end Sys2Proof.Machine
end

section
/-! PROOFS. Every transaction is answered: no command word and no failing check stops the port (60_exceptions.md R280, R292). -/

namespace Sys2Proof.Machine

/-- A command whose buffers meet the host's duty has an answer in every context: a check fails, or its effect runs. -/
theorem commandAnswer_ok_of_wf {i : Instr} (hw : i.wf = true) (c : Context) : ∃ c' r, commandAnswer i c = .ok (c', r) := by
  rw [commandAnswer, hw]
  cases hf : firstFailing (commandChecks i c) with
  | some st => exact ⟨c, failed st, command_fails rfl hf _ c⟩
  | none => exact ⟨_, _, command_runs hf _ c⟩

theorem transactionAnswer_ok {t : Transaction} (h : ∀ i, decode t.cmd t.operands = .ok i → i.wf = true) (c : Context) :
    ∃ c' r, transactionAnswer t c = .ok (c', r) := by
  rw [transactionAnswer]
  cases hd : decode t.cmd t.operands with
  | ok i => exact commandAnswer_ok_of_wf (h i hd) c
  | error _ => exact ⟨c, failed .illegalCommand, rfl⟩

/-- Settles O39: the transaction has an answer in its context, and the step gives that answer. -/
theorem everyTransactionIsAnswered : Obligations.EveryTransactionIsAnswered := by
  intro s t rest c hs hc hw
  obtain ⟨c', r, ha⟩ := transactionAnswer_ok hw c
  exact ⟨(s.taking t [] rest).respond c' r, r, (step_issue_one hs).trans (runCommand_ok hc ha), rfl, rfl⟩

end Sys2Proof.Machine
end

section
/-! PROOFS. Reset: the values of the registers, creating and dropping a context, and every command from a context at reset
(70_reset_and_hazards.md R320, R321, R323). -/

namespace Sys2Proof.Machine

/-! ## The registers at reset -/

/-- Settles O11: no number is listed at reset, so each reads as a context in its reset state. -/
theorem resetValues : Obligations.ResetValues :=
  fun _ hid => ⟨Context.reset, if_pos hid, rfl, rfl, rfl, rfl, rfl, rfl, rfl, rfl, rfl, rfl, rfl, rfl, rfl, rfl, rfl, rfl⟩

/-! ## Creating and dropping a context -/

theorem contextAt_storeSlot_same {s t : State} {id : Nat} {slot : Option Context} (h : t.contexts = storeSlot s.contexts id slot)
    (hid : id < Config.numContexts) : t.contextAt id = slot := by
  rw [State.contextAt, if_pos hid, h, lookupSlot_storeSlot_same]

/-- A step that replaces a context: its effect and its whole frame. -/
theorem step_replaceContext {s : State} {id : Nat} {slot : Option Context} {rest : List PortEvent} (hid : id < Config.numContexts)
    (hf : fetch s = s.replaceContext id slot rest) :
    ∃ t, step s = .next t ∧ t.contextAt id = slot ∧ (∀ k, k ≠ id → t.contextAt k = s.contextAt k) ∧
      t.response = none ∧ t.stream = rest ∧ t.active = s.active ∧ t.result = s.result := by
  refine ⟨{ s with contexts := storeSlot s.contexts id slot, stream := rest, response := none }, ?_,
    contextAt_storeSlot_same rfl hid, fun _ => contextAt_storeSlot_other rfl, rfl, rfl, rfl, rfl⟩
  rw [step, hf, State.replaceContext, if_pos hid]

/-- Settles O8: both events replace the context, one by a fresh one and the other by none. -/
theorem contextsAreCreatedAndDropped : Obligations.ContextsAreCreatedAndDropped :=
  fun _ _ _ hid =>
    ⟨fun hs => step_replaceContext hid (by rw [fetch, hs]), fun hs => step_replaceContext hid (by rw [fetch, hs])⟩

/-! ## Commands from reset -/

/-- The row INIT of the table has `IS` for every command but SET_KEY (44_gcm_engine.md R201). -/
theorem transition_init {i : Instr} (hi : i.isCommand = true) (hkey : ∀ keyBits key, i ≠ .setKey keyBits key) (adDone : Bool) :
    transition i .init adDone = none := by
  cases i <;> simp only [Instr.isCommand, Bool.false_eq_true] at hi
  case setKey keyBits key => exact absurd rfl (hkey keyBits key)
  all_goals simp [transition]

/-- Settles O14: SET_KEY by its rule, every other command by the row INIT of the table. -/
theorem commandsFromReset : Obligations.CommandsFromReset := by
  intro s hc
  refine ⟨fun keyBits k hs hl => ?key, fun keyBits key h1 h2 h3 hw => ?unsupported, fun keyBits hs => ?null,
    fun i hi hw hkey => ?other⟩
  case key => exact ⟨_, _, exec_setKey_of_key hc hs hl, rfl, current_respond hc _ _, setKeyBody_msgState _ _ _⟩
  case unsupported =>
    obtain ⟨hunsupported, -⟩ := setKeyRule s _ keyBits hc
    exact hunsupported h1 h2 h3 key hw
  case null =>
    obtain ⟨-, hsupported⟩ := setKeyRule s _ keyBits hc
    obtain ⟨hnull, -⟩ := hsupported hs
    exact hnull
  case other => exact exec_invalidState hi hw hc (transition_init hi hkey _)

end Sys2Proof.Machine
end
